-- ==== Sys2Proof/Word.lean ====
section
/-! DEFINITION. The two word types of the command port (`30_encoding.md` R71): the 16-bit command word
and the 8-bit data unit. -/

namespace Sys2Proof

/-- One command word, 16 bits (R71). -/
abbrev Word := BitVec 16

/-- One byte: the `imm` field and the unit of absorption (R8, R11). -/
abbrev Byte := BitVec 8

end Sys2Proof
end

