-- ==== Sys2Proof/Syntax.lean ====
section
/-! DEFINITION. The commands of CCS-1 as data: one constructor of `Instr` per row of
`spec/opcode_table.json` (`30_encoding.md` R72), with register numbers and algorithm identifiers
already turned into names. -/

namespace Sys2Proof

/-- The algorithm identifiers 0 to 6 (R29, R73), in the order of their numbers. -/
inductive Alg where
  | parity | lrc | add | add1c | dual | crc | crct
  deriving DecidableEq, Repr, Inhabited

/-- The staging configuration registers, selects 0 to 6 (R30, R74), in the order of their numbers. -/
inductive CfgReg where
  | width | poly | init | xorout | flags | modulus | expect
  deriving DecidableEq, Repr, Inhabited

/-- The commands (R72), one constructor per row of the opcode table. -/
inductive Instr where
  /-- `NOP` (R172). -/
  | nop
  /-- `CFGCLR sel` (R173). -/
  | cfgclr (reg : CfgReg)
  /-- `CFGSH sel, imm` (R174). -/
  | cfgsh (reg : CfgReg) (imm : Byte)
  /-- `NEW.PARITY` (R94). -/
  | newParity
  /-- `NEW.LRC` (R103). -/
  | newLrc
  /-- `NEW.ADD` (R114). -/
  | newAdd
  /-- `NEW.ADD1C` (R118). -/
  | newAdd1c
  /-- `NEW.DUAL` (R129). -/
  | newDual
  /-- `NEW.CRC` (R150). -/
  | newCrc
  /-- `NEW.CRCT` (R157). -/
  | newCrct
  /-- `NEW` with an unrecognised identifier, 7 to 15 (R176); a smaller `id` is ill formed. -/
  | newUnrecognised (id : BitVec 4)
  /-- `ABSORB imm` (R177). -/
  | absorb (imm : Byte)
  /-- `ABSORBBIT imm`, the bit being `imm[0]` (R178). -/
  | absorbbit (bit : Bool)
  /-- `FINALIZE` (R179). -/
  | finalize
  /-- `RESET` (R180). -/
  | reset
  /-- `VERIFY` (R181). -/
  | verify
  /-- `GETBYTE imm` (R183). -/
  | getbyte (imm : Byte)
  deriving DecidableEq, Repr

/-- The mnemonic of a command's row, as the opcode table spells it. -/
def Instr.mnemonic : Instr → String
  | .nop => "NOP"
  | .cfgclr _ => "CFGCLR"
  | .cfgsh _ _ => "CFGSH"
  | .newParity => "NEW.PARITY"
  | .newLrc => "NEW.LRC"
  | .newAdd => "NEW.ADD"
  | .newAdd1c => "NEW.ADD1C"
  | .newDual => "NEW.DUAL"
  | .newCrc => "NEW.CRC"
  | .newCrct => "NEW.CRCT"
  | .newUnrecognised _ => "NEW.<unrecognised>"
  | .absorb _ => "ABSORB"
  | .absorbbit _ => "ABSORBBIT"
  | .finalize => "FINALIZE"
  | .reset => "RESET"
  | .verify => "VERIFY"
  | .getbyte _ => "GETBYTE"

/-- The command that creates a ChecksumState of an algorithm: `NEW.<alg>` (R73, R175). -/
def Instr.newOf : Alg → Instr
  | .parity => .newParity
  | .lrc => .newLrc
  | .add => .newAdd
  | .add1c => .newAdd1c
  | .dual => .newDual
  | .crc => .newCrc
  | .crct => .newCrct

end Sys2Proof
end

