-- ==== Sys2Proof/WellFormed.lean ====
section
/-! DEFINITION. Which terms of `Instr` stand for a command word. The field types already hold every
bound of R72 but one: an unrecognised identifier is one of 7 to 15. -/

namespace Sys2Proof

/-- The operand bounds of R72 and R73 that the field types do not already hold. -/
def Instr.wf : Instr → Bool
  | .newUnrecognised id => decide (7 ≤ id.toNat)
  | .nop | .cfgclr _ | .cfgsh _ _ | .newParity | .newLrc | .newAdd | .newAdd1c | .newDual
  | .newCrc | .newCrct | .absorb _ | .absorbbit _ | .finalize | .reset | .verify | .getbyte _ => true

/-- A well-formed command: some word encodes it. -/
abbrev Instr.WellFormed (i : Instr) : Prop := i.wf = true

end Sys2Proof
end

