-- ==== Sys2Proof/Decode.lean ====
section
/-! DEFINITION. Decoding and encoding of the 16-bit command word (`30_encoding.md` R71 to R77, R82).
Decoding is total and looks at the word alone; a word that is no command is rejected by the name of the
check it fails (the block answers all of them with `IllegalCommand`). -/

namespace Sys2Proof

/-- Why a word is an illegal encoding (R76, R77). -/
inductive IllegalEncoding where
  /-- `op` is 0xA to 0xF. -/
  | reservedOp
  /-- `CFGCLR` or `CFGSH` with `sel` 7 to 15. -/
  | badSelect
  /-- A must-be-zero `sel` field is not zero. -/
  | nonzeroSel
  /-- A must-be-zero `imm` field (or `imm[7:1]` of `ABSORBBIT`) is not zero. -/
  | nonzeroImm
  deriving DecidableEq, Repr

/-- The result of decoding a word (R82): a command with its operands, or "illegal". -/
inductive Decoded where
  | command (i : Instr)
  | illegal (why : IllegalEncoding)
  deriving DecidableEq, Repr

/-- `op`, bits 15:12 (R71). -/
def opField (w : Word) : BitVec 4 := w.extractLsb' 12 4

/-- `sel`, bits 11:8 (R71). -/
def selField (w : Word) : BitVec 4 := w.extractLsb' 8 4

/-- `imm`, bits 7:0 (R71). -/
def immField (w : Word) : Byte := w.extractLsb' 0 8

/-- The word `op * 4096 + sel * 256 + imm` (R71). -/
def packWord (op sel : BitVec 4) (imm : Byte) : Word := op ++ (sel ++ imm)

/-- Register select numbers (R74); 7 to 15 select nothing. -/
def CfgReg.ofSel (sel : BitVec 4) : Option CfgReg :=
  match sel.toNat with
  | 0 => some .width
  | 1 => some .poly
  | 2 => some .init
  | 3 => some .xorout
  | 4 => some .flags
  | 5 => some .modulus
  | 6 => some .expect
  | _ => none

/-- The select number of a register (R74). -/
def CfgReg.sel : CfgReg → BitVec 4
  | .width => 0
  | .poly => 1
  | .init => 2
  | .xorout => 3
  | .flags => 4
  | .modulus => 5
  | .expect => 6

/-- The identifier of an algorithm (R73), also the value of the 3-bit register `ACT.ALG` (R29). -/
def Alg.id : Alg → BitVec 3
  | .parity => 0
  | .lrc => 1
  | .add => 2
  | .add1c => 3
  | .dual => 4
  | .crc => 5
  | .crct => 6

/-- The identifier as the `sel` field of `NEW.<alg>` carries it (R73). -/
def Alg.sel (alg : Alg) : BitVec 4 := alg.id.setWidth 4

/-- The command of a `NEW` word with a given identifier (R73). -/
def decodeNew (sel : BitVec 4) : Instr :=
  match sel.toNat with
  | 0 => .newParity
  | 1 => .newLrc
  | 2 => .newAdd
  | 3 => .newAdd1c
  | 4 => .newDual
  | 5 => .newCrc
  | 6 => .newCrct
  | _ => .newUnrecognised sel

/-- A must-be-zero `sel` (R76). -/
def needSelZero (w : Word) (d : Decoded) : Decoded :=
  if selField w = 0 then d else .illegal .nonzeroSel

/-- A must-be-zero `imm` (R76). -/
def needImmZero (w : Word) (d : Decoded) : Decoded :=
  if immField w = 0 then d else .illegal .nonzeroImm

/-- A configuration register selected by `sel`, or an illegal encoding (R77). -/
def withCfgReg (w : Word) (f : CfgReg → Decoded) : Decoded :=
  match CfgReg.ofSel (selField w) with
  | some reg => f reg
  | none => .illegal .badSelect

/-- Decoding (R72, R76, R77, R82). -/
def decode (w : Word) : Decoded :=
  match (opField w).toNat with
  | 0 => needSelZero w (needImmZero w (.command .nop))
  | 1 => withCfgReg w fun reg => needImmZero w (.command (.cfgclr reg))
  | 2 => withCfgReg w fun reg => .command (.cfgsh reg (immField w))
  | 3 => needImmZero w (.command (decodeNew (selField w)))
  | 4 => needSelZero w (.command (.absorb (immField w)))
  | 5 =>
    needSelZero w
      (if (immField w).toNat < 2 then .command (.absorbbit ((immField w).getLsbD 0))
       else .illegal .nonzeroImm)
  | 6 => needSelZero w (needImmZero w (.command .finalize))
  | 7 => needSelZero w (needImmZero w (.command .reset))
  | 8 => needSelZero w (needImmZero w (.command .verify))
  | 9 => needSelZero w (.command (.getbyte (immField w)))
  | _ => .illegal .reservedOp

/-- The word of a well-formed command (R71, R72). -/
def encode : Instr → Word
  | .nop => packWord 0 0 0
  | .cfgclr reg => packWord 1 reg.sel 0
  | .cfgsh reg imm => packWord 2 reg.sel imm
  | .newParity => packWord 3 0 0
  | .newLrc => packWord 3 1 0
  | .newAdd => packWord 3 2 0
  | .newAdd1c => packWord 3 3 0
  | .newDual => packWord 3 4 0
  | .newCrc => packWord 3 5 0
  | .newCrct => packWord 3 6 0
  | .newUnrecognised id => packWord 3 id 0
  | .absorb imm => packWord 4 0 imm
  | .absorbbit bit => packWord 5 0 (if bit then 1 else 0)
  | .finalize => packWord 6 0 0
  | .reset => packWord 7 0 0
  | .verify => packWord 8 0 0
  | .getbyte imm => packWord 9 0 imm

/-- The command word of an instruction written as the opcode table numbers its bits: the low `nbits` bits
of `w`, every higher bit zero. One command is one 16-bit word (R71), taken whole. -/
def tableWord (nbits w : Nat) : Word := BitVec.ofNat 16 (w % 2 ^ nbits)

/-- The command the decoder reads from a word of the opcode table. -/
def decodeTableWord (nbits w : Nat) : Option Instr :=
  match decode (tableWord nbits w) with
  | .command i => some i
  | .illegal _ => none

/-- One row of the match and mask table of R72: a word is the command when `w and mask = pattern` and its
`sel` lies in the listed range. -/
structure TableRow where
  mnemonic : String
  pattern : Word
  mask : Word
  selLo : Nat
  selHi : Nat
  deriving DecidableEq, Repr

/-- A row without a constraint beyond the mask. -/
def plainRow (mnemonic : String) (pattern mask : Word) : TableRow :=
  { mnemonic := mnemonic, pattern := pattern, mask := mask, selLo := 0, selHi := 15 }

/-- A word is the command of a row (R72). -/
def TableRow.accepts (row : TableRow) (w : Word) : Bool :=
  decide (w &&& row.mask = row.pattern) && decide (row.selLo ≤ (selField w).toNat) &&
    decide ((selField w).toNat ≤ row.selHi)

/-- The match and mask table of R72, in its order. `decode` does not use it; statements compare the two. -/
def opcodeTable : List TableRow :=
  [ plainRow "NOP" 0x0000 0xFFFF,
    { plainRow "CFGCLR" 0x1000 0xF0FF with selHi := 6 },
    { plainRow "CFGSH" 0x2000 0xF000 with selHi := 6 },
    plainRow "NEW.PARITY" 0x3000 0xFFFF,
    plainRow "NEW.LRC" 0x3100 0xFFFF,
    plainRow "NEW.ADD" 0x3200 0xFFFF,
    plainRow "NEW.ADD1C" 0x3300 0xFFFF,
    plainRow "NEW.DUAL" 0x3400 0xFFFF ] ++
  [ plainRow "NEW.CRC" 0x3500 0xFFFF,
    plainRow "NEW.CRCT" 0x3600 0xFFFF,
    { plainRow "NEW.<unrecognised>" 0x3000 0xF0FF with selLo := 7 },
    plainRow "ABSORB" 0x4000 0xFF00,
    plainRow "ABSORBBIT" 0x5000 0xFFFE,
    plainRow "FINALIZE" 0x6000 0xFFFF,
    plainRow "RESET" 0x7000 0xFFFF,
    plainRow "VERIFY" 0x8000 0xFFFF,
    plainRow "GETBYTE" 0x9000 0xFF00 ]

end Sys2Proof
end

