-- ==== Sys2Proof/Config.lean ====
section
/-! DEFINITION. What one implementation fixes (`00_scope.md` R9) and the free values of what the spec
leaves unspecified (`10_state.md` R41, U13). The parameters are plain data carried in `State`
(`State.par`), never written by a step, so that a statement holds for every legal choice of them. -/

namespace Sys2Proof

/-- The open parameters `KMAX` and `ACCW` (R9). `NINST` is the number of instances `State` holds;
`EW` is derived. -/
structure Params where
  /-- `KMAX`, the largest CRC degree the block accepts. -/
  kmax : Nat
  /-- `ACCW`, the width of the addition accumulator. -/
  accw : Nat
  deriving DecidableEq, Repr

/-- The defaults of R9: `KMAX` 64, `ACCW` 32. -/
def Params.default : Params := { kmax := 64, accw := 32 }

/-- `EW = max(KMAX, 16)`, the width of `RESULT`, `CFG.EXPECT` and the response value (R9). -/
def Params.ew (p : Params) : Nat := max p.kmax 16

/-- The constraints of R9 on the parameters. -/
abbrev Params.Ok (p : Params) : Prop :=
  1 ≤ p.kmax ∧ p.kmax ≤ 255 ∧ p.accw % 8 = 0 ∧ 16 ≤ p.accw

/-- A free value of `w` bits: the content of a state element that R41 calls unspecified after a hardware
reset. It has no body, so nothing can be proved of it but its width; `n` is the draw. -/
opaque Config.freeBits (w n : Nat) : BitVec w

/-- A free algorithm tag: `ACT.ALG` after a hardware reset (R41), of which nothing can be proved. -/
opaque Config.freeAlg (n : Nat) : Alg

end Sys2Proof
end

