-- ==== Sys2Proof/Machine/State.lean ====
section
/-! DEFINITION. The state as plain data (`10_state.md`): one `Block` per instance holds exactly what R20
lists; `State` adds what R42 calls parameters and inputs of the step function (the parameters, the input
stream, the response) and the counter of free values.

A register whose width is a parameter (`KMAX`, `ACCW`, `EW`) is a `Nat`: R12 gives every register an
unsigned integer, R13 gives it exact arithmetic with every truncation written out, and the width is itself
data of the state. `Sys2Proof/Safety.lean` states the width of each as an invariant. A register of fixed
width is a bit vector, one bit a `Bool`. -/

namespace Sys2Proof.Machine

/-- `PHASE` (R28). -/
inductive Phase where
  | idle | active | final
  deriving DecidableEq, Repr, Inhabited

/-- The active configuration `ACT` (R29, R38): written only by a successful `NEW`. -/
structure Act where
  /-- `ACT.ALG`, the algorithm of the current computation. -/
  alg : Alg
  /-- `ACT.M`, 8 bits, the dual-modular modulus. -/
  m : Byte
  /-- `ACT.K`, 8 bits, the CRC degree k. -/
  k : Byte
  /-- `ACT.G`, KMAX+1 bits, the full divisor pattern with bit k set. -/
  g : Nat
  /-- `ACT.INIT`, KMAX bits, the register seed. -/
  init : Nat
  /-- `ACT.XOROUT`, KMAX bits, final_xor. -/
  xorout : Nat
  /-- `ACT.ORDER`: false most-significant-bit-first, true least-significant-bit-first. -/
  order : Bool
  /-- `ACT.REFIN`, input_reflected. -/
  refin : Bool
  /-- `ACT.REFOUT`, output_reflected. -/
  refout : Bool
  deriving DecidableEq, Repr

/-- The staging configuration registers `CFG[0]` to `CFG[6]` (R30 to R37). -/
structure Cfg where
  /-- `CFG.WIDTH`, sel 0, 8 bits. -/
  width : Byte
  /-- `CFG.POLY`, sel 1, KMAX+1 bits. -/
  poly : Nat
  /-- `CFG.INIT`, sel 2, KMAX bits. -/
  init : Nat
  /-- `CFG.XOROUT`, sel 3, KMAX bits. -/
  xorout : Nat
  /-- `CFG.FLAGS`, sel 4, 8 bits: bit 0 `ORDER`, bit 1 `REFIN`, bit 2 `REFOUT`, bits 7:3 reserved. -/
  flags : Byte
  /-- `CFG.MODULUS`, sel 5, 8 bits. -/
  modulus : Byte
  /-- `CFG.EXPECT`, sel 6, EW bits. -/
  expect : Nat
  deriving DecidableEq, Repr

/-- The whole state of one instance of the block (R20), and nothing else. -/
structure Block where
  /-- `P`, 1 bit (R21). -/
  p : Bool
  /-- `L`, 8 bits (R22). -/
  l : Byte
  /-- `ACC`, ACCW bits (R23). -/
  acc : Nat
  /-- `A`, 8 bits (R24). -/
  a : Byte
  /-- `B`, 8 bits (R24). -/
  b : Byte
  /-- `R`, KMAX bits (R25). -/
  r : Nat
  /-- `PHASE` (R28). -/
  phase : Phase
  /-- `RESULT`, EW bits (R26). -/
  result : Nat
  /-- `ACT` (R29, R38). -/
  act : Act
  /-- `T[0..255]`, 256 entries of KMAX bits (R39). -/
  t : List Nat
  /-- `CFG[0]` to `CFG[6]` (R30). -/
  cfg : Cfg
  deriving DecidableEq, Repr

/-- The error conditions (R220). -/
inductive Condition where
  | unknownAlgorithm | invalidConfig | stateReuseError | illegalCommand
  deriving DecidableEq, Repr

/-- The `status` field of a response (R79): `OK`, or the condition a command raised. -/
inductive Status where
  | ok
  | error (c : Condition)
  deriving DecidableEq, Repr

/-- The response of one command (R79): a status and a value of EW bits. -/
structure Response where
  status : Status
  value : Nat
  deriving DecidableEq, Repr

/-- What the outside presents to a block: a command word on the command port of an instance (R71, R233),
or the platform's hardware reset of an instance, which is no command (R240). -/
inductive Input where
  | command (port : Nat) (word : Word)
  | hardReset (port : Nat)
  deriving DecidableEq, Repr

/-- The machine: the instances of the block (NINST of them), the input stream in the host's order, and the
response given last. -/
structure State where
  /-- The parameters of R9; no step writes them. -/
  par : Params
  /-- Instance 0, whose port `exec` serves. -/
  blk : Block
  /-- Instances 1 to NINST-1 (R233). -/
  others : List Block
  /-- The inputs not yet taken, oldest first (R58). -/
  inputs : List Input
  /-- The response given last (R79); none before the first command. The model's own field. -/
  resp : Option Response
  /-- How many free values have been drawn. The model's own field. -/
  drawn : Nat
  deriving DecidableEq, Repr

/-- Why the machine stops with a fault. No command of the block does (R77: every word has a defined
outcome). -/
inductive Fault where
  /-- Raised by `step` when an input names an instance the system does not have. Safe: there is no such
  port, so no hardware goes on from there. -/
  | noSuchPort (port : Nat)
  deriving DecidableEq, Repr

/-- Why a command has no meaning. -/
inductive Refusal where
  /-- Raised by an arm of `exec` whose command has no meaning yet; no arm is left. Safe. -/
  | notModelled (mnemonic : String)
  deriving DecidableEq, Repr

/-- `CFG` after a hardware reset: every register 0 (R41). -/
def Cfg.reset : Cfg :=
  { width := 0, poly := 0, init := 0, xorout := 0, flags := 0, modulus := 0, expect := 0 }

/-- `ACT` in the reset state: R41 gives no value. DESIGN CHOICE (log 1): all bits 0. -/
def Act.reset : Act :=
  { alg := .parity, m := 0, k := 0, g := 0, init := 0, xorout := 0,
    order := false, refin := false, refout := false }

/-- One instance in the reset state: `PHASE` and `CFG` as R41 says. DESIGN CHOICE (log 1): every element
R41 calls unspecified is 0. -/
def Block.reset : Block :=
  { p := false, l := 0, acc := 0, a := 0, b := 0, r := 0, phase := .idle, result := 0,
    act := Act.reset, t := List.replicate 256 0, cfg := Cfg.reset }

/-- A system of `n + 1` instances with the parameters `p`, all of them just reset, nothing presented. -/
def State.resetWith (p : Params) (n : Nat) : State :=
  { par := p, blk := Block.reset, others := List.replicate n Block.reset, inputs := [],
    resp := none, drawn := 0 }

/-- The machine right after reset with the default parameters of R9 (KMAX 64, ACCW 32, NINST 1). -/
def State.reset : State := State.resetWith Params.default 0

end Sys2Proof.Machine
end

