-- ==== Sys2Proof/Machine/Operands.lean ====
section
/-! DEFINITION. The primitives of `00_scope.md` R13 to R18, the accessors of the staging registers
(`10_state.md` R30), the operand of `CFGSH` (R75, R174) and the output widths (R43). -/

namespace Sys2Proof.Machine

/-- `trunc_n(v)`: the low n bits (R13). -/
def trunc (n v : Nat) : Nat := v % 2 ^ n

/-- `v[hi:lo]` (R13). -/
def slice (v hi lo : Nat) : Nat := trunc (hi + 1 - lo) (v >>> lo)

/-- `parity8(b)` (R14). -/
def parity8 (b : Byte) : Bool :=
  b.getLsbD 0 ^^ b.getLsbD 1 ^^ b.getLsbD 2 ^^ b.getLsbD 3 ^^ b.getLsbD 4 ^^ b.getLsbD 5 ^^
    b.getLsbD 6 ^^ b.getLsbD 7

/-- `rev_n(v)`: bit i of the result is bit n-1-i of v (R15). Bit 0 of v goes to the top, the rest is
reversed below it. -/
def revBits : Nat → Nat → Nat
  | 0, _ => 0
  | n + 1, v => v % 2 * 2 ^ n + revBits n (v / 2)

/-- `rev_8` on a byte (R15). -/
def revByte (b : Byte) : Byte := BitVec.ofNat 8 (revBits 8 b.toNat)

/-- `msb_first(b)` (R16). -/
def msbFirst (b : Byte) : List Bool :=
  [b.getLsbD 7, b.getLsbD 6, b.getLsbD 5, b.getLsbD 4, b.getLsbD 3, b.getLsbD 2, b.getLsbD 1,
    b.getLsbD 0]

/-- `lsb_first(b)` (R16). -/
def lsbFirst (b : Byte) : List Bool :=
  [b.getLsbD 0, b.getLsbD 1, b.getLsbD 2, b.getLsbD 3, b.getLsbD 4, b.getLsbD 5, b.getLsbD 6,
    b.getLsbD 7]

/-- A list of bits read as a number, first bit highest. -/
def bitsToNat (bits : List Bool) : Nat := bits.foldl (fun v c => 2 * v + c.toNat) 0

/-- `pack_msb(list)`: the byte whose bit 7 is the first element (R16). -/
def packMsb (bits : List Bool) : Byte := BitVec.ofNat 8 (bitsToNat bits)

/-- The loop of `fold8` (R17) with a bound on its iterations. -/
def foldLoop : Nat → Nat → Nat
  | 0, v => v
  | fuel + 1, v => if v < 256 then v else foldLoop fuel (v % 256 + v >>> 8)

/-- `fold8(v)` (R17). Each iteration decreases v, so v iterations are enough. -/
def fold8 (v : Nat) : Nat := foldLoop v v

/-- The 54 primes below 256 (R18). -/
def primes8 : List Nat :=
  [2, 3, 5, 7, 11, 13, 17, 19, 23, 29, 31, 37, 41, 43, 47, 53, 59, 61, 67, 71, 73, 79, 83, 89, 97] ++
  [101, 103, 107, 109, 113, 127, 131, 137, 139, 149, 151, 157, 163, 167, 173, 179, 181, 191, 193] ++
  [197, 199, 211, 223, 227, 229, 233, 239, 241, 251]

/-- `is_prime8(m)` (R18). -/
def isPrime8 (m : Byte) : Bool := primes8.contains m.toNat

/-- W(sel): the width of a staging register (R30). -/
def cfgBits (p : Params) : CfgReg → Nat
  | .width => 8
  | .poly => p.kmax + 1
  | .init => p.kmax
  | .xorout => p.kmax
  | .flags => 8
  | .modulus => 8
  | .expect => p.ew

/-- The content of `CFG[sel]` as an unsigned integer (R30, R12). -/
def Cfg.get (c : Cfg) : CfgReg → Nat
  | .width => c.width.toNat
  | .poly => c.poly
  | .init => c.init
  | .xorout => c.xorout
  | .flags => c.flags.toNat
  | .modulus => c.modulus.toNat
  | .expect => c.expect

/-- `CFG[sel] <- v`, v below 2^W(sel) (R13, R30). -/
def Cfg.put (c : Cfg) (reg : CfgReg) (v : Nat) : Cfg :=
  match reg with
  | .width => { c with width := BitVec.ofNat 8 v }
  | .poly => { c with poly := v }
  | .init => { c with init := v }
  | .xorout => { c with xorout := v }
  | .flags => { c with flags := BitVec.ofNat 8 v }
  | .modulus => { c with modulus := BitVec.ofNat 8 v }
  | .expect => { c with expect := v }

/-- The value `CFGSH` writes: `trunc_W((CFG[sel] << 8) or imm)` (R75, R174). -/
def Cfg.shiftIn (p : Params) (c : Cfg) (reg : CfgReg) (imm : Byte) : Nat :=
  trunc (cfgBits p reg) (c.get reg <<< 8 ||| imm.toNat)

/-- `P`, "the polynomial's lower k bits": `ACT.G mod 2^k` (R38, R141). -/
def Act.poly (a : Act) : Nat := trunc a.k.toNat a.g

/-- `OUTW`, the width of the ChecksumValue (R43). -/
def Act.outw (a : Act) : Nat :=
  match a.alg with
  | .parity => 1
  | .lrc | .add | .add1c => 8
  | .dual => 16
  | .crc | .crct => a.k.toNat

/-- `NB = ceil(OUTW / 8)`, the bytes of the Check Sequence (R43). -/
def Act.nb (a : Act) : Nat := (a.outw + 7) / 8

/-- `ser(i)`: byte i of the big-endian serialization of `RESULT`, for i below `NB` (R182). -/
def Block.ser (blk : Block) (i : Nat) : Nat :=
  blk.result >>> (8 * (blk.act.nb - 1 - i)) % 256

end Sys2Proof.Machine
end

