-- ==== Sys2Proof/Machine/Flags.lean ====
section
/-! DEFINITION. The block's only flag is `PHASE` (`10_state.md` R28, R40); what a command reports is its
`status` (`30_encoding.md` R79). This file gives their numbers and the conditions computed from the flag
and from the configuration: which algorithms have a bit-wise absorb (R178), which configurations `NEW`
accepts (R125, R142). -/

namespace Sys2Proof.Machine

/-- The 2-bit code of `PHASE` (R28); 3 is never reached. -/
def Phase.code : Phase → BitVec 2
  | .idle => 0
  | .active => 1
  | .final => 2

/-- The number of a condition (R220). -/
def Condition.code : Condition → BitVec 3
  | .unknownAlgorithm => 1
  | .invalidConfig => 2
  | .stateReuseError => 3
  | .illegalCommand => 4

/-- The 3-bit `status` field (R79); 5 to 7 are never produced. -/
def Status.code : Status → BitVec 3
  | .ok => 0
  | .error c => c.code

/-- The response as one number, `status * 2^EW + value` (R79). -/
def Response.number (p : Params) (r : Response) : Nat := r.status.code.toNat * 2 ^ p.ew + r.value

/-- The algorithms with a bit-wise absorb: `PARITY` and `CRC` (R171, R178). -/
def Alg.hasBitAbsorb : Alg → Bool
  | .parity | .crc => true
  | .lrc | .add | .add1c | .dual | .crct => false

/-- `NEW.DUAL` accepts the staged modulus (R125, R129). -/
def Cfg.dualValid (c : Cfg) : Bool := isPrime8 c.modulus

/-- `NEW.CRC` and `NEW.CRCT` accept the staged Polynomial: none of the seven conditions of R142 holds. -/
def Cfg.crcValid (p : Params) (c : Cfg) : Bool :=
  let k := c.width.toNat
  decide (k ≠ 0) && decide (k ≤ p.kmax) && decide (c.poly ≠ 0) && decide (c.poly < 2 ^ (k + 1)) &&
    decide (c.init < 2 ^ k) && decide (c.xorout < 2 ^ k) && decide (c.flags.toNat >>> 3 = 0)

end Sys2Proof.Machine
end

