-- ==== Sys2Proof/Machine/Ops.lean ====
section
/-! DEFINITION. The operations every meaning shares: ending a command with a response (R13 `respond`),
raising a condition (R226 `raise`), and what stands around a command: the port of an instance (R233) and
the hardware reset (R240). -/

namespace Sys2Proof.Machine

/-- The outcome of a step of this machine. -/
abbrev Result := Host.Outcome State Fault Refusal

/-- The state with another instance 0. -/
def State.withBlk (s : State) (blk : Block) : State := { s with blk := blk }

/-- The state after a response has been given. -/
def State.withResp (s : State) (r : Response) : State := { s with resp := some r }

/-- The state with another input stream. -/
def State.withInputs (s : State) (inputs : List Input) : State := { s with inputs := inputs }

/-- `respond(v)` (R13) of a command that leaves instance 0 as `blk`: status `OK`, response value v. -/
def State.answer (s : State) (blk : Block) (v : Nat) : Result :=
  .next ((s.withBlk blk).withResp { status := .ok, value := v })

/-- `raise <Condition>` (R13, R226): the one operation by which a command reports a condition. The command
ends at once, no state of the block changes, the response is (code, 0), and control goes nowhere. -/
def State.raise (s : State) (c : Condition) : Result :=
  .next (s.withResp { status := .error c, value := 0 })

/-- NINST, the number of instances (R9). -/
def State.ninst (s : State) : Nat := s.others.length + 1

/-- The instance behind a port, if there is one. -/
def State.instanceAt (s : State) : Nat → Option Block
  | 0 => some s.blk
  | j + 1 => s.others[j]?

/-- Connect the command port to instance `port`: it changes places with instance 0. Done twice it restores
the order. -/
def State.exchange (s : State) (port : Nat) : State :=
  match port with
  | 0 => s
  | j + 1 => { s with blk := s.others.getD j s.blk, others := s.others.set j s.blk }

/-- Apply a change of state to the outcome of a step that goes on. -/
def Result.mapNext (f : State → State) : Result → Result
  | .next t => .next (f t)
  | .fault r => .fault r
  | .refused r => .refused r

/-- Serve instance `port`: run `f` with that instance connected to the command port (R233). -/
def State.servePort (s : State) (port : Nat) (f : State → Result) : Result :=
  if port < s.ninst then Result.mapNext (fun t => t.exchange port) (f (s.exchange port))
  else .fault (.noSuchPort port)

/-- How many free values one hardware reset draws. -/
def resetDraws : Nat := 16 + 256

/-- One instance after a hardware reset (R240, R41): `PHASE` is `IDLE`, every `CFG` register 0, and every
other element a free value of its width (log 2), draws `n` and up. -/
def Block.afterHardReset (p : Params) (n : Nat) : Block :=
  { p := (Config.freeBits 1 n).getLsbD 0
    l := Config.freeBits 8 (n + 1)
    acc := (Config.freeBits p.accw (n + 2)).toNat
    a := Config.freeBits 8 (n + 3)
    b := Config.freeBits 8 (n + 4)
    r := (Config.freeBits p.kmax (n + 5)).toNat
    phase := .idle
    result := (Config.freeBits p.ew (n + 6)).toNat
    act :=
      { alg := Config.freeAlg n
        m := Config.freeBits 8 (n + 7)
        k := Config.freeBits 8 (n + 8)
        g := (Config.freeBits (p.kmax + 1) (n + 9)).toNat
        init := (Config.freeBits p.kmax (n + 10)).toNat
        xorout := (Config.freeBits p.kmax (n + 11)).toNat
        order := (Config.freeBits 1 (n + 12)).getLsbD 0
        refin := (Config.freeBits 1 (n + 13)).getLsbD 0
        refout := (Config.freeBits 1 (n + 14)).getLsbD 0 }
    t := (List.range 256).map fun i => (Config.freeBits p.kmax (n + 16 + i)).toNat
    cfg := Cfg.reset }

/-- The platform's hardware reset of the connected instance (R240): no command, no response. -/
def State.hardReset (s : State) : Result :=
  .next { s with blk := Block.afterHardReset s.par s.drawn, drawn := s.drawn + resetDraws }

/-- A word on the command port that is no command: `IllegalCommand` (R77, R224). -/
def State.rejectWord (s : State) (_why : IllegalEncoding) : Result := s.raise .illegalCommand

end Sys2Proof.Machine
end

