-- ==== Sys2Proof/Machine/Addition.lean ====
section
/-! DEFINITION. The addition checksums (`43_addition.md`): the functions of `ADD` and `ADD1C`, which share
the accumulator `ACC`, and `NEW.ADD`, `NEW.ADD1C`. -/

namespace Sys2Proof.Machine

/-- `init_ADD` (R111). -/
def initAdd (blk : Block) : Block := { blk with acc := 0 }

/-- `absorb_byte_ADD(b)` (R111): the sum wraps at ACCW bits. -/
def absorbByteAdd (p : Params) (d : Byte) (blk : Block) : Block :=
  { blk with acc := trunc p.accw (blk.acc + d.toNat) }

/-- `value_ADD` (R112). -/
def valueAdd (blk : Block) : Nat := trunc 8 blk.acc

/-- `init_ADD1C` (R115). -/
def initAdd1c (blk : Block) : Block := { blk with acc := 0 }

/-- `absorb_byte_ADD1C(b)` (R115): the carry out of ACCW bits is added back at bit 0. -/
def absorbByteAdd1c (p : Params) (d : Byte) (blk : Block) : Block :=
  { blk with acc := trunc p.accw (blk.acc + d.toNat) + (blk.acc + d.toNat) >>> p.accw }

/-- `value_ADD1C` (R116). -/
def valueAdd1c (blk : Block) : Nat := fold8 blk.acc

/-- `NEW.ADD` (R114). -/
def execNewAdd (s : State) : Result :=
  s.answer { s.blk with act := { s.blk.act with alg := .add }, acc := 0, phase := .active } 0

/-- `NEW.ADD1C` (R118). -/
def execNewAdd1c (s : State) : Result :=
  s.answer { s.blk with act := { s.blk.act with alg := .add1c }, acc := 0, phase := .active } 0

end Sys2Proof.Machine
end

