-- ==== Sys2Proof/Machine/Crc.lean ====
section
/-! DEFINITION. The CRC polynomial divider (`45_crc.md`): the serial divider `CRC`, the table-driven
divider `CRCT`, and `NEW.CRC`, `NEW.CRCT`. `k` is the degree and `poly` the polynomial's lower k bits. -/

namespace Sys2Proof.Machine

/-- `serial_step(R, c)` (R143). -/
def serialStep (k poly r : Nat) (c : Bool) : Nat :=
  let shifted := trunc k (r <<< 1 ||| c.toNat)
  if r.testBit (k - 1) then shifted ^^^ poly else shifted

/-- Consume a list of bits, first bit first. -/
def serialFeed (k poly r : Nat) (bits : List Bool) : Nat := bits.foldl (serialStep k poly) r

/-- Consume n zero bits: the padding of R148, the table's steps of R152, the seed's of R153. -/
def serialPad (k poly r n : Nat) : Nat := serialFeed k poly r (List.replicate n false)

/-- `feed(b)`: the bits of a byte in the order the divider consumes them (R145). -/
def feed (order refin : Bool) (d : Byte) : List Bool :=
  let d' := if refin then revByte d else d
  if order then lsbFirst d' else msbFirst d'

/-- `feedbyte(b)` (R145). -/
def feedByte (order refin : Bool) (d : Byte) : Byte := packMsb (feed order refin d)

/-- `init_CRC` (R144). -/
def initCrc (blk : Block) : Block := { blk with r := blk.act.init }

/-- `absorb_bit_CRC(c)` (R147): `ORDER` and `REFIN` do not apply. -/
def absorbBitCrc (c : Bool) (blk : Block) : Block :=
  { blk with r := serialStep blk.act.k.toNat blk.act.poly blk.r c }

/-- `absorb_byte_CRC(b)` (R146). -/
def absorbByteCrc (d : Byte) (blk : Block) : Block :=
  { blk with
    r := serialFeed blk.act.k.toNat blk.act.poly blk.r (feed blk.act.order blk.act.refin d) }

/-- The output steps of both dividers: reflect the remainder when `REFOUT` is set, then XOR (R148). -/
def crcOutput (act : Act) (rem : Nat) : Nat :=
  (if act.refout then revBits act.k.toNat rem else rem) ^^^ act.xorout

/-- `value_CRC` (R148): the k padding steps run on a copy of `R`. -/
def valueCrc (blk : Block) : Nat :=
  crcOutput blk.act (serialPad blk.act.k.toNat blk.act.poly blk.r blk.act.k.toNat)

/-- `T[i]` (R152). -/
def tableEntry (k poly i : Nat) : Nat :=
  serialPad k poly (serialFeed k poly 0 (msbFirst (BitVec.ofNat 8 i))) k

/-- The lookup table (R152). -/
def crcTable (k poly : Nat) : List Nat := (List.range 256).map (tableEntry k poly)

/-- The converted seed of the table-driven divider (R153). -/
def convertedSeed (act : Act) : Nat := serialPad act.k.toNat act.poly act.init act.k.toNat

/-- `init_CRCT` (R153). -/
def initCrct (blk : Block) : Block := { blk with r := convertedSeed blk.act }

/-- The index into `T` when a byte `u` is consumed: the register's top byte XOR u for k ≥ 8 (R154), the
whole register at the top of a byte XOR u for k < 8 (R155). -/
def tableIndex (k r : Nat) (u : Byte) : Nat :=
  if 8 ≤ k then slice r (k - 1) (k - 8) ^^^ u.toNat else r <<< (8 - k) ^^^ u.toNat

/-- `R` after the table-driven divider consumes a byte `u` (R154, R155). -/
def tableStep (k : Nat) (t : List Nat) (r : Nat) (u : Byte) : Nat :=
  let entry := t.getD (tableIndex k r u) 0
  if 8 ≤ k then trunc k (r <<< 8) ^^^ entry else entry

/-- `absorb_byte_CRCT(b)` (R154, R155). -/
def absorbByteCrct (d : Byte) (blk : Block) : Block :=
  { blk with
    r := tableStep blk.act.k.toNat blk.t blk.r (feedByte blk.act.order blk.act.refin d) }

/-- `value_CRCT` (R156): no padding steps. -/
def valueCrct (blk : Block) : Nat := crcOutput blk.act blk.r

/-- The Polynomial copied from `CFG` into `ACT` by `NEW.CRC` and `NEW.CRCT` (R38, R150). -/
def Cfg.crcAct (c : Cfg) (alg : Alg) (act : Act) : Act :=
  { act with
    alg := alg
    k := c.width
    g := c.poly ||| 1 <<< c.width.toNat
    init := c.init
    xorout := c.xorout
    order := c.flags.getLsbD 0
    refin := c.flags.getLsbD 1
    refout := c.flags.getLsbD 2 }

/-- `NEW.CRC` (R150). -/
def execNewCrc (s : State) : Result :=
  if s.blk.cfg.crcValid s.par then
    s.answer
      { s.blk with
        act := s.blk.cfg.crcAct .crc s.blk.act
        r := s.blk.cfg.init
        phase := .active } 0
  else s.raise .invalidConfig

/-- `NEW.CRCT` (R157): as `NEW.CRC`, then the table (R152), then the converted seed (R153). -/
def execNewCrct (s : State) : Result :=
  if s.blk.cfg.crcValid s.par then
    let act := s.blk.cfg.crcAct .crct s.blk.act
    s.answer
      { s.blk with
        act := act
        t := crcTable act.k.toNat act.poly
        r := convertedSeed act
        phase := .active } 0
  else s.raise .invalidConfig

end Sys2Proof.Machine
end

