-- ==== Sys2Proof/Machine/Dual.lean ====
section
/-! DEFINITION. The two-accumulator modular checksum (`44_modular_dual.md`): the functions of `DUAL` and
`NEW.DUAL`. -/

namespace Sys2Proof.Machine

/-- `init_DUAL` (R126). -/
def initDual (blk : Block) : Block := { blk with a := 1, b := 0 }

/-- `A` after absorbing a byte: the exact sum, then the remainder (R127). -/
def dualA (m a d : Byte) : Byte := BitVec.ofNat 8 ((a.toNat + d.toNat) % m.toNat)

/-- `B` after absorbing a byte, from the `A` just written (R127). -/
def dualB (m b newA : Byte) : Byte := BitVec.ofNat 8 ((b.toNat + newA.toNat) % m.toNat)

/-- `absorb_byte_DUAL(b)` (R127): `A` first, then `B` from the new `A`. -/
def absorbByteDual (d : Byte) (blk : Block) : Block :=
  let newA := dualA blk.act.m blk.a d
  { blk with a := newA, b := dualB blk.act.m blk.b newA }

/-- `value_DUAL`: `B ‖ A` (R128). -/
def valueDual (blk : Block) : Nat := (blk.b ++ blk.a).toNat

/-- `NEW.DUAL` (R129). -/
def execNewDual (s : State) : Result :=
  if s.blk.cfg.dualValid then
    s.answer
      { s.blk with
        act := { s.blk.act with alg := .dual, m := s.blk.cfg.modulus }
        a := 1
        b := 0
        phase := .active } 0
  else s.raise .invalidConfig

end Sys2Proof.Machine
end

