-- ==== Sys2Proof/Machine/Lrc.lean ====
section
/-! DEFINITION. The longitudinal redundancy check unit (`42_lrc.md`): the functions of `LRC` and
`NEW.LRC`. -/

namespace Sys2Proof.Machine

/-- `init_LRC` (R101). -/
def initLrc (blk : Block) : Block := { blk with l := 0 }

/-- `absorb_byte_LRC(b)` (R101). -/
def absorbByteLrc (d : Byte) (blk : Block) : Block := { blk with l := blk.l ^^^ d }

/-- `value_LRC` (R102). -/
def valueLrc (blk : Block) : Nat := blk.l.toNat

/-- `NEW.LRC` (R103). -/
def execNewLrc (s : State) : Result :=
  s.answer { s.blk with act := { s.blk.act with alg := .lrc }, l := 0, phase := .active } 0

end Sys2Proof.Machine
end

