-- ==== Sys2Proof/Machine/Parity.lean ====
section
/-! DEFINITION. The parity accumulator (`41_parity.md`): the functions of `PARITY` and `NEW.PARITY`. -/

namespace Sys2Proof.Machine

/-- `init_PARITY` (R91). -/
def initParity (blk : Block) : Block := { blk with p := false }

/-- `absorb_bit_PARITY(c)` (R91). -/
def absorbBitParity (c : Bool) (blk : Block) : Block := { blk with p := blk.p ^^ c }

/-- `absorb_byte_PARITY(b)` (R92). -/
def absorbByteParity (d : Byte) (blk : Block) : Block := { blk with p := blk.p ^^ parity8 d }

/-- `value_PARITY` (R93). -/
def valueParity (blk : Block) : Nat := blk.p.toNat

/-- `NEW.PARITY` (R94). -/
def execNewParity (s : State) : Result :=
  s.answer { s.blk with act := { s.blk.act with alg := .parity }, p := false, phase := .active } 0

end Sys2Proof.Machine
end

