-- ==== Sys2Proof/Machine/Pipeline.lean ====
section
/-! DEFINITION. The compute pipeline (`46_pipeline.md`): the dispatch of R171 and every generic command. -/

namespace Sys2Proof.Machine

/-- `init()`: the initial accumulators of `ACT.ALG`, from `ACT` (R171). -/
def Block.init (blk : Block) : Block :=
  match blk.act.alg with
  | .parity => initParity blk
  | .lrc => initLrc blk
  | .add => initAdd blk
  | .add1c => initAdd1c blk
  | .dual => initDual blk
  | .crc => initCrc blk
  | .crct => initCrct blk

/-- `absorb_byte(b)` of `ACT.ALG` (R171). -/
def Block.absorbByte (p : Params) (blk : Block) (d : Byte) : Block :=
  match blk.act.alg with
  | .parity => absorbByteParity d blk
  | .lrc => absorbByteLrc d blk
  | .add => absorbByteAdd p d blk
  | .add1c => absorbByteAdd1c p d blk
  | .dual => absorbByteDual d blk
  | .crc => absorbByteCrc d blk
  | .crct => absorbByteCrct d blk

/-- `absorb_bit(c)` of `ACT.ALG` (R171); none where it is unsupported. -/
def Block.absorbBit? (blk : Block) (c : Bool) : Option Block :=
  match blk.act.alg with
  | .parity => some (absorbBitParity c blk)
  | .crc => some (absorbBitCrc c blk)
  | .lrc | .add | .add1c | .dual | .crct => none

/-- `value()` of `ACT.ALG` (R171). -/
def Block.value (blk : Block) : Nat :=
  match blk.act.alg with
  | .parity => valueParity blk
  | .lrc => valueLrc blk
  | .add => valueAdd blk
  | .add1c => valueAdd1c blk
  | .dual => valueDual blk
  | .crc => valueCrc blk
  | .crct => valueCrct blk

/-- The common part of `FINALIZE` and `VERIFY` (R179, R181): the first one of a computation writes `RESULT`
and `PHASE`, a later one writes nothing. -/
def Block.finalized (blk : Block) : Block :=
  match blk.phase with
  | .active => { blk with result := blk.value, phase := .final }
  | .idle | .final => blk

/-- `NOP` (R172). -/
def execNop (s : State) : Result := s.answer s.blk 0

/-- `CFGCLR sel` (R173). -/
def execCfgclr (reg : CfgReg) (s : State) : Result :=
  s.answer { s.blk with cfg := s.blk.cfg.put reg 0 } 0

/-- `CFGSH sel, imm` (R174). -/
def execCfgsh (reg : CfgReg) (imm : Byte) (s : State) : Result :=
  s.answer { s.blk with cfg := s.blk.cfg.put reg (s.blk.cfg.shiftIn s.par reg imm) } 0

/-- `NEW` with an unrecognised identifier (R176): no state is examined. -/
def execNewUnrecognised (_id : BitVec 4) (s : State) : Result := s.raise .unknownAlgorithm

/-- `ABSORB imm` (R177). -/
def execAbsorb (imm : Byte) (s : State) : Result :=
  match s.blk.phase with
  | .idle => s.raise .illegalCommand
  | .final => s.raise .stateReuseError
  | .active => s.answer (s.blk.absorbByte s.par imm) 0

/-- `ABSORBBIT imm` (R178): the check of the algorithm comes before the check of `FINAL`. -/
def execAbsorbbit (bit : Bool) (s : State) : Result :=
  match s.blk.phase, s.blk.absorbBit? bit with
  | .idle, _ => s.raise .illegalCommand
  | .active, none | .final, none => s.raise .illegalCommand
  | .final, some _ => s.raise .stateReuseError
  | .active, some blk => s.answer blk 0

/-- `FINALIZE` (R179). -/
def execFinalize (s : State) : Result :=
  match s.blk.phase with
  | .idle => s.raise .illegalCommand
  | .active | .final => s.answer s.blk.finalized s.blk.finalized.result

/-- `RESET` (R180): the initial accumulators from `ACT`, not from `CFG`; `ACT` and `T` stay. -/
def execReset (s : State) : Result :=
  match s.blk.phase with
  | .idle => s.raise .illegalCommand
  | .active | .final => s.answer { s.blk.init with phase := .active } 0

/-- `VERIFY` (R181): finalize, then compare all EW bits with `CFG.EXPECT`. -/
def execVerify (s : State) : Result :=
  match s.blk.phase with
  | .idle => s.raise .illegalCommand
  | .active | .final =>
    s.answer s.blk.finalized (if s.blk.finalized.result = s.blk.cfg.expect then 1 else 0)

/-- `GETBYTE imm` (R183). -/
def execGetbyte (imm : Byte) (s : State) : Result :=
  match s.blk.phase with
  | .idle | .active => s.raise .illegalCommand
  | .final =>
    if s.blk.act.nb ≤ imm.toNat then s.raise .illegalCommand
    else s.answer s.blk (s.blk.ser imm.toNat)

end Sys2Proof.Machine
end

