-- ==== Sys2Proof/Machine/Dispatch.lean ====
section
/-! DEFINITION. One arm per command (`30_encoding.md` R72). -/

namespace Sys2Proof.Machine

def exec (i : Instr) (s : State) : Host.Outcome State Fault Refusal :=
  match i with
  | .nop => Sys2Proof.Machine.execNop s
  | .cfgclr reg => Sys2Proof.Machine.execCfgclr reg s
  | .cfgsh reg imm => Sys2Proof.Machine.execCfgsh reg imm s
  | .newParity => Sys2Proof.Machine.execNewParity s
  | .newLrc => Sys2Proof.Machine.execNewLrc s
  | .newAdd => Sys2Proof.Machine.execNewAdd s
  | .newAdd1c => Sys2Proof.Machine.execNewAdd1c s
  | .newDual => Sys2Proof.Machine.execNewDual s
  | .newCrc => Sys2Proof.Machine.execNewCrc s
  | .newCrct => Sys2Proof.Machine.execNewCrct s
  | .newUnrecognised id => Sys2Proof.Machine.execNewUnrecognised id s
  | .absorb imm => Sys2Proof.Machine.execAbsorb imm s
  | .absorbbit bit => Sys2Proof.Machine.execAbsorbbit bit s
  | .finalize => Sys2Proof.Machine.execFinalize s
  | .reset => Sys2Proof.Machine.execReset s
  | .verify => Sys2Proof.Machine.execVerify s
  | .getbyte imm => Sys2Proof.Machine.execGetbyte imm s

end Sys2Proof.Machine
end

