-- ==== Sys2Proof/Machine/Step.lean ====
section
/-! DEFINITION. One step: the block takes the next input of the host's stream (`20_memory.md` R58,
`10_state.md` R27). -/

namespace Sys2Proof.Machine

/-- Run a command word on instance 0: decode it and execute the command, or reject the word (R77). -/
def runWord (w : Word) (s : State) : Host.Outcome State Fault Refusal :=
  match decode w with
  | .command i => exec i s
  | .illegal why => s.rejectWord why

/-- Take one input on the instance its port belongs to. -/
def takeInput (x : Input) (s : State) : Host.Outcome State Fault Refusal :=
  match x with
  | .command port w => s.servePort port (runWord w)
  | .hardReset port => s.servePort port State.hardReset

/-- One step: the oldest input, wholly, before the next (R58); with no input the block is idle and keeps all
its state (R235). -/
def step (s : State) : Host.Outcome State Fault Refusal :=
  match s.inputs with
  | [] => .next s
  | x :: rest => takeInput x (s.withInputs rest)

/-- `s` with a command word presented on port 0 before everything else, so that the next step runs it. The
word's bits are numbered as the opcode table numbers them. -/
def State.withFetchWord (s : State) (nbits w : Nat) : State :=
  s.withInputs (.command 0 (tableWord nbits w) :: s.inputs)

end Sys2Proof.Machine
end

