-- ==== Sys2Proof/Machine/Pseudo.lean ====
section
/-! DEFINITION. The pseudo-instructions of R81 as lists of real commands, and how a host issues such a list
(R81, R186): in order, and not beyond the first command that answers with an error. None of them has an
encoding of its own. -/

namespace Sys2Proof.Machine

/-- `bitlength(v)`. -/
def bitLength (v : Nat) : Nat := if v = 0 then 0 else Nat.log2 v + 1

/-- `n = max(1, ceil(bitlength(v) / 8))` (R81). -/
def byteCount (v : Nat) : Nat := max 1 ((bitLength v + 7) / 8)

/-- `b[i] = (v >> 8i) mod 256` (R81). -/
def byteOf (v i : Nat) : Byte := BitVec.ofNat 8 (v >>> (8 * i))

/-- The bytes `b[n-1], ..., b[0]` of a value, most significant first (R81). -/
def bytesMsb (v : Nat) : List Byte := (List.range (byteCount v)).reverse.map (byteOf v)

/-- `LOADCFG reg, v` (R81); it requires v < 2^W(reg). -/
def loadCfg (reg : CfgReg) (v : Nat) : List Instr := .cfgclr reg :: (bytesMsb v).map (.cfgsh reg)

/-- `ABSORBSEQ b0, ..., bn-1` (R81). -/
def absorbSeq (data : List Byte) : List Instr := data.map .absorb

/-- `ABSORBSTR "text"`: the ASCII codes of the characters, in order (R81). -/
def absorbStr (text : String) : List Instr :=
  absorbSeq (text.toList.map fun c => BitVec.ofNat 8 c.toNat)

/-- `ABSORBBITS "0110..."`, left to right (R81). -/
def absorbBits (bits : List Bool) : List Instr := bits.map .absorbbit

/-- `COMPUTE alg, data` (R81). `id` is any algorithm identifier, the unrecognised ones included: the host
learns from the `NEW` that it is one of those. -/
def computeCmds (id : BitVec 4) (data : List Byte) : List Instr :=
  decodeNew id :: (absorbSeq data ++ [.finalize])

/-- `VERIFYDATA alg, data, e` (R81), for any algorithm identifier. -/
def verifyDataCmds (id : BitVec 4) (data : List Byte) (e : Nat) : List Instr :=
  loadCfg .expect e ++ decodeNew id :: (absorbSeq data ++ [.verify])

/-- `CODEWORD` for a Check Sequence of `nb` bytes (R81). -/
def codewordCmds (nb : Nat) : List Instr :=
  .finalize :: (List.range nb).map fun i => .getbyte (BitVec.ofNat 8 i)

/-- The name of a register in assembler text (R80). -/
def regName : CfgReg → String
  | .width => "WIDTH"
  | .poly => "POLY"
  | .init => "INIT"
  | .xorout => "XOROUT"
  | .flags => "FLAGS"
  | .modulus => "MODULUS"
  | .expect => "EXPECT"

/-- A command in the notation of R80, numbers in decimal. -/
def asmText (i : Instr) : String :=
  match i with
  | .cfgclr reg => i.mnemonic ++ " " ++ regName reg
  | .cfgsh reg imm => i.mnemonic ++ " " ++ regName reg ++ ", " ++ toString imm.toNat
  | .newUnrecognised id => "NEW " ++ toString id.toNat
  | .absorb imm => i.mnemonic ++ " " ++ toString imm.toNat
  | .absorbbit bit => i.mnemonic ++ " " ++ toString bit.toNat
  | .getbyte imm => i.mnemonic ++ " " ++ toString imm.toNat
  | .nop | .newParity | .newLrc | .newAdd | .newAdd1c | .newDual | .newCrc | .newCrct | .finalize
  | .reset | .verify => i.mnemonic

/-- The last response was an error. -/
def State.failed (s : State) : Bool :=
  match s.resp with
  | some r => decide (r.status ≠ .ok)
  | none => false

/-- Execute a list of commands in order, whatever they answer. -/
def execAll : List Instr → State → Host.Outcome State Fault Refusal
  | [], s => .next s
  | i :: rest, s =>
    match exec i s with
    | .next t => execAll rest t
    | .fault r => .fault r
    | .refused r => .refused r

/-- Issue an expansion the way R81 says the host does: stop at the first error, which is then the result of
the whole. -/
def perform : List Instr → State → Host.Outcome State Fault Refusal
  | [], s => .next s
  | i :: rest, s =>
    match exec i s with
    | .next t => if t.failed then .next t else perform rest t
    | .fault r => .fault r
    | .refused r => .refused r

/-- The responses to a list of commands, in order. -/
def responses : List Instr → State → List (Option Response)
  | [], _ => []
  | i :: rest, s =>
    match exec i s with
    | .next t => t.resp :: responses rest t
    | .fault _ => []
    | .refused _ => []

/-- The host presenting commands on port 0, as command words (R58, R71). -/
def present (cmds : List Instr) : List Input := cmds.map fun i => .command 0 (encode i)

end Sys2Proof.Machine
end

