-- ==== Sys2Proof/Safety.lean ====
section
/-! DEFINITION. The terms in which statements about the machine are made: the invariant of every state a run
can reach, a whole Data Word absorbed at once, the lifecycle table of R184, and division of polynomials over
GF(2). -/

namespace Sys2Proof.Machine

/-- Every register holds a value of its width (R20, R30, R38, R39), the widths being those of R9. -/
abbrev Block.Fits (p : Params) (blk : Block) : Prop :=
  blk.acc < 2 ^ p.accw ∧ blk.r < 2 ^ p.kmax ∧ blk.result < 2 ^ p.ew ∧
  blk.act.g < 2 ^ (p.kmax + 1) ∧ blk.act.init < 2 ^ p.kmax ∧ blk.act.xorout < 2 ^ p.kmax ∧
  (∀ reg ∈ [CfgReg.width, .poly, .init, .xorout, .flags, .modulus, .expect],
    blk.cfg.get reg < 2 ^ cfgBits p reg) ∧
  blk.t.length = 256 ∧ ∀ entry ∈ blk.t, entry < 2 ^ p.kmax

/-- The Polynomial of a CRC computation is one `NEW` accepts (R38, R142): a degree in 1 to KMAX, a divisor
with its leading 1 at bit k, a seed and a final XOR of k bits. -/
abbrev Act.PolyOk (p : Params) (act : Act) : Prop :=
  1 ≤ act.k.toNat ∧ act.k.toNat ≤ p.kmax ∧ 2 ^ act.k.toNat ≤ act.g ∧
  act.g < 2 ^ (act.k.toNat + 1) ∧ act.init < 2 ^ act.k.toNat ∧ act.xorout < 2 ^ act.k.toNat

/-- Dual-modular accumulators stay below a prime modulus (R24, R130). -/
abbrev Block.DualOk (blk : Block) : Prop :=
  blk.phase ≠ .idle → blk.act.alg = .dual →
    isPrime8 blk.act.m = true ∧ blk.a.toNat < blk.act.m.toNat ∧ blk.b.toNat < blk.act.m.toNat

/-- A CRC computation has a valid Polynomial, and bits k and above of `R` are 0 (R25, R38). -/
abbrev Block.CrcOk (p : Params) (blk : Block) : Prop :=
  blk.phase ≠ .idle → blk.act.alg = .crc ∨ blk.act.alg = .crct →
    blk.act.PolyOk p ∧ blk.r < 2 ^ blk.act.k.toNat

/-- Under `CRCT` the table is the table of the Polynomial in use (R39, R62). -/
abbrev Block.TableOk (blk : Block) : Prop :=
  blk.phase ≠ .idle → blk.act.alg = .crct → blk.t = crcTable blk.act.k.toNat blk.act.poly

/-- In `FINAL`, `RESULT` is the ChecksumValue of the accumulators, of width `OUTW` (R26, R43, R179). -/
abbrev Block.FinalOk (blk : Block) : Prop :=
  blk.phase = .final → blk.result = blk.value ∧ blk.result < 2 ^ blk.act.outw

/-- What holds of one instance in every state a run can reach. -/
abbrev Block.Sound (p : Params) (blk : Block) : Prop :=
  blk.Fits p ∧ blk.DualOk ∧ blk.CrcOk p ∧ blk.TableOk ∧ blk.FinalOk

/-- A response has a value of EW bits, and value 0 with an error (R79). -/
abbrev Response.Sound (p : Params) (r : Response) : Prop :=
  r.value < 2 ^ p.ew ∧ (r.status ≠ .ok → r.value = 0)

/-- The invariant of the machine: legal parameters, every instance sound, the last response sound. -/
abbrev State.Inv (s : State) : Prop :=
  s.par.Ok ∧ s.blk.Sound s.par ∧ (∀ blk ∈ s.others, blk.Sound s.par) ∧
  ∀ r ∈ s.resp.toList, r.Sound s.par

/-- Absorb a whole Data Word of bytes, in order (R186). -/
def Block.absorbAll (p : Params) (blk : Block) (data : List Byte) : Block :=
  data.foldl (fun b d => b.absorbByte p d) blk

/-- `compute(ACT, data)`: `value()` after `init()` and the absorption of every byte (R186, R200). -/
def Block.checksum (p : Params) (blk : Block) (data : List Byte) : Nat :=
  (blk.init.absorbAll p data).value

/-- The exact sum S of the bytes of a Data Word (R110). -/
def byteSum (data : List Byte) : Nat := (data.map BitVec.toNat).sum

/-- `n*d_1 + (n-1)*d_2 + ... + 1*d_n` (R131). -/
def weightedSum : List Byte → Nat
  | [] => 0
  | d :: rest => (rest.length + 1) * d.toNat + weightedSum rest

/-- How many bits of a byte are 1. -/
def byteWeight (d : Byte) : Nat := (List.range 8).countP d.getLsbD

/-- A byte with bit i inverted. -/
def flipBit (d : Byte) (i : Nat) : Byte := d ^^^ BitVec.twoPow 8 i

/-- A cell of R184: the status, the next `PHASE`, and whether the cell says "same" (no state change). -/
structure LifecycleCell where
  status : Status
  phase : Phase
  same : Bool
  deriving DecidableEq, Repr

/-- The cell of a command that is answered with an error. -/
def LifecycleCell.refused (c : Condition) (phase : Phase) : LifecycleCell := ⟨.error c, phase, true⟩

/-- The row of a `NEW.<alg>`, valid or not, in every `PHASE` (R184). -/
def LifecycleCell.create (valid : Bool) (phase : Phase) : LifecycleCell :=
  if valid then ⟨.ok, .active, false⟩ else .refused .invalidConfig phase

/-- The lifecycle table of R184 for well-formed commands: which cell a command falls into is decided by
`PHASE`, `ACT` and, for `NEW`, the staged configuration. -/
def lifecycle (p : Params) (blk : Block) : Instr → LifecycleCell
  | .nop => ⟨.ok, blk.phase, true⟩
  | .cfgclr _ | .cfgsh _ _ => ⟨.ok, blk.phase, false⟩
  | .newParity | .newLrc | .newAdd | .newAdd1c => .create true blk.phase
  | .newDual => .create blk.cfg.dualValid blk.phase
  | .newCrc | .newCrct => .create (blk.cfg.crcValid p) blk.phase
  | .newUnrecognised _ => .refused .unknownAlgorithm blk.phase
  | .absorb _ =>
    match blk.phase with
    | .idle => .refused .illegalCommand .idle
    | .active => ⟨.ok, .active, false⟩
    | .final => .refused .stateReuseError .final
  | .absorbbit _ =>
    match blk.phase, Alg.hasBitAbsorb blk.act.alg with
    | .active, true => ⟨.ok, .active, false⟩
    | .final, true => .refused .stateReuseError .final
    | phase, _ => .refused .illegalCommand phase
  | .finalize | .verify =>
    match blk.phase with
    | .idle => .refused .illegalCommand .idle
    | .active => ⟨.ok, .final, false⟩
    | .final => ⟨.ok, .final, true⟩
  | .reset =>
    match blk.phase with
    | .idle => .refused .illegalCommand .idle
    | .active | .final => ⟨.ok, .active, false⟩
  | .getbyte imm =>
    match blk.phase with
    | .final =>
      if imm.toNat < blk.act.nb then ⟨.ok, .final, true⟩ else .refused .illegalCommand .final
    | phase => .refused .illegalCommand phase

/-- The illegal encodings of R76 and R77 by their fields: a reserved `op`, a `sel` of 7 or more in `CFGCLR`
and `CFGSH`, a nonzero must-be-zero field. -/
abbrev IllegalFields (op sel imm : Nat) : Prop :=
  10 ≤ op ∨ ((op = 1 ∨ op = 2) ∧ 7 ≤ sel) ∨ (op ∈ [0, 4, 5, 6, 7, 8, 9] ∧ sel ≠ 0) ∨
    (op ∈ [0, 1, 3, 6, 7, 8] ∧ imm ≠ 0) ∨ (op = 5 ∧ 2 ≤ imm)

/-- The words R76 and R77 call illegal encodings, the fields read off the number of the word,
`op * 4096 + sel * 256 + imm` (R71). -/
abbrev IllegalWord (w : Word) : Prop :=
  IllegalFields (w.toNat / 4096) (w.toNat / 256 % 16) (w.toNat % 256)

/-- Whatever the state, the word answers `IllegalCommand` and changes nothing (R77, R224). -/
abbrev RejectsWord (w : Word) : Prop :=
  ∀ s : State, runWord w s = .next { s with resp := some ⟨.error .illegalCommand, 0⟩ }

/-- None of the seven conditions of R142 holds of the staged Polynomial. -/
abbrev Cfg.StagedPolyOk (p : Params) (c : Cfg) : Prop :=
  c.width.toNat ≠ 0 ∧ c.width.toNat ≤ p.kmax ∧ c.poly ≠ 0 ∧ c.poly < 2 ^ (c.width.toNat + 1) ∧
    c.init < 2 ^ c.width.toNat ∧ c.xorout < 2 ^ c.width.toNat ∧ c.flags.toNat < 8

/-- The staged configuration an algorithm reads is one its `NEW` accepts (R142, R129); `PARITY`, `LRC`, `ADD`
and `ADD1C` read none. -/
def Cfg.StagedOk (p : Params) (c : Cfg) : Alg → Prop
  | .parity | .lrc | .add | .add1c => True
  | .dual => Nat.Prime c.modulus.toNat
  | .crc | .crct => c.StagedPolyOk p

/-- The bits of a byte in the order the divider consumes them (the table of R145): bit 7 first when
`ORDER xor REFIN` is 0, bit 0 first when it is 1. -/
def consumedBits (act : Act) (d : Byte) : List Bool :=
  (if act.order ^^ act.refin then [0, 1, 2, 3, 4, 5, 6, 7] else [7, 6, 5, 4, 3, 2, 1, 0]).map
    d.getLsbD

/-- The commands that touch neither the accumulators nor `ACT` nor `PHASE` in `ACTIVE` (R201): `NOP`, `CFGCLR`,
`CFGSH`, and commands that fail there. -/
def leavesComputation : Instr → Bool
  | .nop | .cfgclr _ | .cfgsh _ _ | .newUnrecognised _ | .getbyte _ => true
  | .newParity | .newLrc | .newAdd | .newAdd1c | .newDual | .newCrc | .newCrct | .absorb _
  | .absorbbit _ | .finalize | .reset | .verify => false

/-- The absorbing commands. -/
def isAbsorb : Instr → Bool
  | .absorb _ | .absorbbit _ => true
  | .nop | .cfgclr _ | .cfgsh _ _ | .newUnrecognised _ | .getbyte _ | .newParity | .newLrc | .newAdd
  | .newAdd1c | .newDual | .newCrc | .newCrct | .finalize | .reset | .verify => false

/-- Product of polynomials over GF(2), bit i being the coefficient of x^i: carry-less multiplication. `n`
bits of the first factor are used. -/
def gf2MulBits (g : Nat) : Nat → Nat → Nat
  | 0, _ => 0
  | n + 1, q => gf2MulBits g n q ^^^ (if q.testBit n then g <<< n else 0)

/-- Product of polynomials over GF(2). -/
def gf2Mul (q g : Nat) : Nat := gf2MulBits g (q.log2 + 1) q

/-- `rem = v mod G` for a divisor G of degree k (R149): a value of k bits that differs from v by a multiple
of G. -/
def IsGf2Rem (k g v rem : Nat) : Prop := rem < 2 ^ k ∧ ∃ q, v = gf2Mul q g ^^^ rem

end Sys2Proof.Machine
end

