-- ==== Sys2Proof/Certificates/Slice0/Obligations.lean ====
section
/-! DEFINITION. The statements about the machine. Each docstring names the rule of spec/ it formalises, or
the log entry a clause rests on. -/

open Sys2Proof Sys2Proof.Machine

/-! ### Encoding and decoding -/

/-- R71, R72: decoding the word of a well-formed command gives the command back, with every operand. -/
def Obligations.EncodeThenDecodeGivesTheCommandBack : Prop :=
  ∀ i : Instr, i.WellFormed → decode (encode i) = .command i

/-- R82, R72: a word that decodes to a command is the word of that command, and the command is well formed.
-/
def Obligations.DecodedWordReencodesToItself : Prop :=
  ∀ (w : Word) (i : Instr), decode w = .command i → encode i = w ∧ i.WellFormed

/-- R72: a word is a command exactly when a row of the match and mask table accepts it, and then it is the
command of that row. -/
def Obligations.CommandWordsAreExactlyTheTableRows : Prop :=
  (∀ (w : Word) (i : Instr), decode w = .command i →
    ∃ row ∈ opcodeTable, row.mnemonic = i.mnemonic ∧ row.accepts w = true) ∧
  ∀ (w : Word), ∀ row ∈ opcodeTable, row.accepts w = true →
    ∃ i, decode w = .command i ∧ i.mnemonic = row.mnemonic

/-- R76 (and R77, R224): the illegal encodings are exactly the words of `IllegalWord`, and executing one
answers `IllegalCommand`, status 4, and changes nothing. -/
def Obligations.IllegalWordsAreRefusedAndChangeNothing : Prop :=
  (∀ w : Word, (∃ why, decode w = .illegal why) ↔ IllegalWord w) ∧
  (∀ (s : State) (w : Word) (rest : List Input), IllegalWord w → s.inputs = .command 0 w :: rest →
    step s = .next { s with inputs := rest, resp := some ⟨.error .illegalCommand, 0⟩ }) ∧
  Condition.illegalCommand.code = 4

/-- `95_test_vectors.md` 2.9: one word of each command, written out from R71 and R72. -/
def Obligations.SpecWordsDecodeAsListed : Prop :=
  decode 0x0000 = .command .nop ∧ decode 0x1600 = .command (.cfgclr .expect) ∧
  decode 0x25FB = .command (.cfgsh .modulus 0xFB) ∧ decode 0x3000 = .command .newParity ∧
  decode 0x3100 = .command .newLrc ∧ decode 0x3200 = .command .newAdd ∧
  decode 0x3300 = .command .newAdd1c ∧ decode 0x3400 = .command .newDual ∧
  decode 0x3500 = .command .newCrc ∧ decode 0x3600 = .command .newCrct ∧
  decode 0x3900 = .command (.newUnrecognised 9) ∧ decode 0x4073 = .command (.absorb 0x73) ∧
  decode 0x5001 = .command (.absorbbit true) ∧ decode 0x6000 = .command .finalize ∧
  decode 0x7000 = .command .reset ∧ decode 0x8000 = .command .verify ∧
  decode 0x9007 = .command (.getbyte 7)

/-! ### The step, the instances, the hardware reset -/

/-- R27, R58 and R82, in the form log 4 gives them: the stream `State.inputs` is the model's form of the
commands the host presents, and `withFetchWord` is the model's placing of a word in front of it. A step runs
the decoded command: it takes the oldest input off the stream and executes the command of its word, nothing
else. The second clause says the same of a word placed by `withFetchWord`. -/
def Obligations.StepExecutesTheDecodedCommand : Prop :=
  (∀ (s : State) (w : Word) (i : Instr) (rest : List Input),
    s.inputs = .command 0 w :: rest → decode w = .command i →
      step s = exec i { s with inputs := rest }) ∧
  ∀ (s : State) (nbits w : Nat) (i : Instr), decodeTableWord nbits w = some i →
    step (s.withFetchWord nbits w) = exec i s

/-- R58, with R235 and R251 for the empty stream (log 6): the commands a host presents are executed one at a
time in the order presented, each completely before the next; with nothing presented the machine keeps all
its state. -/
def Obligations.PresentedCommandsRunInOrder : Prop :=
  (∀ (cmds : List Instr) (s : State), (∀ i ∈ cmds, i.WellFormed) → s.inputs = [] →
    Host.Core.run Sys2Proof.core cmds.length { s with inputs := present cmds } = execAll cmds s) ∧
  ∀ s : State, s.inputs = [] → step s = .next s

/-- R209: a command given to one instance changes no state of another, and its response and its effect are
those of a system that holds that instance alone. Ports are the model's numbering (log 5). -/
def Obligations.InstancesAreIndependent : Prop :=
  ∀ (s : State) (port : Nat) (w : Word) (rest : List Input) (blk : Block),
    s.inputs = .command port w :: rest → s.instanceAt port = some blk →
      ∃ t v : State, step s = .next t ∧
        runWord w { s with blk := blk, others := [], inputs := [] } = .next v ∧
        t.instanceAt port = some v.blk ∧ t.resp = v.resp ∧
        ∀ q, q ≠ port → t.instanceAt q = s.instanceAt q

/-- R240: a hardware reset, whatever was in flight, makes `PHASE` `IDLE` and every `CFG` register 0, gives
no response and touches no other instance; and it is the only way `PHASE` becomes `IDLE`. -/
def Obligations.HardwareResetClearsPhaseAndConfiguration : Prop :=
  (∀ (s : State) (port : Nat) (rest : List Input) (blk : Block),
    s.inputs = .hardReset port :: rest → s.instanceAt port = some blk →
      ∃ (t : State) (blk' : Block), step s = .next t ∧ t.instanceAt port = some blk' ∧
        blk'.phase = .idle ∧ (∀ reg, blk'.cfg.get reg = 0) ∧ t.resp = s.resp ∧ t.inputs = rest ∧
        t.par = s.par ∧ ∀ q, q ≠ port → t.instanceAt q = s.instanceAt q) ∧
  ∀ (s t : State) (q : Nat) (before after : Block), step s = .next t →
    s.instanceAt q = some before → t.instanceAt q = some after →
    before.phase ≠ .idle → after.phase = .idle → s.inputs.head? = some (.hardReset q)

/-- R240 and R41, with the consequence R41 marks as derived: after hardware reset `PHASE` is `IDLE` and
`CFG` is 0, so `NEW.CRC`, `NEW.CRCT` and `NEW.DUAL` raise `InvalidConfig`, and the algorithms without
configuration succeed. (What R41 calls unspecified is not stated: log 1.) -/
def Obligations.ResetStateHasNoConfiguration : Prop :=
  State.reset.blk.phase = .idle ∧ (∀ reg, State.reset.blk.cfg.get reg = 0) ∧
  (∀ i ∈ [Instr.newCrc, .newCrct, .newDual],
    exec i State.reset = .next { State.reset with resp := some ⟨.error .invalidConfig, 0⟩ }) ∧
  ∀ i ∈ [Instr.newParity, .newLrc, .newAdd, .newAdd1c],
    ∃ t, exec i State.reset = .next t ∧ t.blk.phase = .active ∧ t.resp = some ⟨.ok, 0⟩

/-- The invariant holds after reset, for all legal parameters and any number of instances. It rests on the
model's values for what R41 leaves unspecified (log 1). -/
def Obligations.InvariantHoldsAfterReset : Prop :=
  ∀ (p : Params) (n : Nat), p.Ok → (State.resetWith p n).Inv

/-- Every step keeps the invariant: register widths (R20), the dual-modular bound (R130), the shape of the
active Polynomial (R38), `R` below 2^k (R25), the table of the Polynomial in use (R62), and `RESULT` in
`FINAL` being the value of the accumulators (R26). -/
def Obligations.EveryStepKeepsTheInvariant : Prop :=
  ∀ s t : State, s.Inv → step s = .next t → t.Inv

/-! ### Responses and errors -/

/-- R79 and R44: every command ends with a next state and one response; a response value other than 0 comes
from `FINALIZE`, `VERIFY` or `GETBYTE` alone, that of `VERIFY` is 0 or 1; nothing outside instance 0 and the
response changes. -/
def Obligations.EveryCommandGivesOneResponse : Prop :=
  ∀ (i : Instr) (s : State), ∃ (blk : Block) (r : Response),
    exec i s = .next { s with blk := blk, resp := some r } ∧ (r.status ≠ .ok → r.value = 0) ∧
    (r.value ≠ 0 → i = .finalize ∨ i = .verify ∨ ∃ n, i = .getbyte n) ∧
    (i = .verify → r.value ≤ 1)

/-- R226: a command, or a word that is none, which raises a condition answers (the code of the condition, 0)
and changes no state whatsoever. R220 and R79: the codes are `OK` 0, `UnknownAlgorithm` 1, `InvalidConfig`
2, `StateReuseError` 3, `IllegalCommand` 4, and as one number every response is `status * 2^EW + value`. -/
def Obligations.FailedCommandChangesNothing : Prop :=
  (∀ (i : Instr) (s t : State) (r : Response), exec i s = .next t → t.resp = some r →
    r.status ≠ .ok → r.value = 0 ∧ t = { s with resp := some r }) ∧
  (∀ (w : Word) (s t : State) (r : Response), runWord w s = .next t → t.resp = some r →
    r.status ≠ .ok → r.value = 0 ∧ t = { s with resp := some r }) ∧
  [Status.ok, .error .unknownAlgorithm, .error .invalidConfig, .error .stateReuseError,
    .error .illegalCommand].map Status.code = [0, 1, 2, 3, 4] ∧
  (∀ c : Condition, (Status.error c).code = c.code) ∧
  ∀ (p : Params) (r : Response),
    r.number p = r.status.code.toNat * 2 ^ max p.kmax 16 + r.value

/-- The lifecycle table of R184, which the spec derives from R172 to R183: every command in every `PHASE`
answers the status of its cell of the lifecycle table, leaves `PHASE` as the cell says, and changes no state
where the cell says "same"; where it says what is written, nothing else is; an illegal encoding answers
`IllegalCommand` and changes nothing. -/
def Obligations.LifecycleTableHolds : Prop :=
  (∀ (i : Instr) (s : State), ∃ (t : State) (r : Response), exec i s = .next t ∧ t.resp = some r ∧
    r.status = (lifecycle s.par s.blk i).status ∧ t.blk.phase = (lifecycle s.par s.blk i).phase ∧
    ((lifecycle s.par s.blk i).same = true → t.blk = s.blk) ∧
    ((∃ reg, i = .cfgclr reg) ∨ (∃ reg imm, i = .cfgsh reg imm) →
      t.blk = { s.blk with cfg := t.blk.cfg }) ∧
    (isAbsorb i = true → t.blk.result = s.blk.result ∧ t.blk.act = s.blk.act ∧
      t.blk.t = s.blk.t ∧ t.blk.cfg = s.blk.cfg) ∧
    (i = .reset → t.blk.result = s.blk.result ∧ t.blk.act = s.blk.act ∧
      t.blk.t = s.blk.t ∧ t.blk.cfg = s.blk.cfg) ∧
    (i = .finalize ∨ i = .verify →
      t.blk = { s.blk with result := t.blk.result, phase := t.blk.phase }) ∧
    (t.blk.phase = .idle → s.blk.phase = .idle)) ∧
  ∀ (w : Word) (why : IllegalEncoding) (s : State), decode w = .illegal why →
    runWord w s = .next { s with resp := some ⟨.error .illegalCommand, 0⟩ }

/-! ### `NOP` and the staging registers -/

/-- R172: `NOP` answers (`OK`, 0) in every `PHASE` and changes nothing; a word with its `op` and a nonzero
`sel` or `imm` is an `IllegalCommand`. -/
def Obligations.NopAnswersOkAndChangesNothing : Prop :=
  encode .nop = 0x0000 ∧ (∀ s : State, exec .nop s = .next { s with resp := some ⟨.ok, 0⟩ }) ∧
  ∀ w : Word, w.toNat / 4096 = 0 → w ≠ 0x0000 → RejectsWord w

/-- R173: `CFGCLR sel` makes one staging register 0 and changes nothing else, in every `PHASE`; with `sel`
of 7 or more or a nonzero `imm` it is an `IllegalCommand`. -/
def Obligations.CfgclrClearsOneRegister : Prop :=
  (∀ reg : CfgReg, (encode (.cfgclr reg)).toNat = 0x1000 + reg.sel.toNat * 256) ∧
  (∀ (reg : CfgReg) (s : State), ∃ c : Cfg,
    exec (.cfgclr reg) s =
      .next { s with blk := { s.blk with cfg := c }, resp := some ⟨.ok, 0⟩ } ∧
    c.get reg = 0 ∧ ∀ reg', reg' ≠ reg → c.get reg' = s.blk.cfg.get reg') ∧
  ∀ w : Word, w.toNat / 4096 = 1 → 7 ≤ w.toNat / 256 % 16 ∨ w.toNat % 256 ≠ 0 → RejectsWord w

/-- R174: `CFGSH sel, imm` shifts one byte into a staging register at the low end, the width W being that of
R30, and changes nothing else; with `sel` of 7 or more it is an `IllegalCommand`. -/
def Obligations.CfgshShiftsOneByteIn : Prop :=
  (∀ (reg : CfgReg) (imm : Byte),
    (encode (.cfgsh reg imm)).toNat = 0x2000 + reg.sel.toNat * 256 + imm.toNat) ∧
  (∀ (reg : CfgReg) (imm : Byte) (s : State), ∃ c : Cfg,
    exec (.cfgsh reg imm) s =
      .next { s with blk := { s.blk with cfg := c }, resp := some ⟨.ok, 0⟩ } ∧
    c.get reg = (s.blk.cfg.get reg * 256 + imm.toNat) % 2 ^
      (match reg with
        | .width | .flags | .modulus => 8
        | .poly => s.par.kmax + 1
        | .init | .xorout => s.par.kmax
        | .expect => max s.par.kmax 16) ∧
    ∀ reg', reg' ≠ reg → c.get reg' = s.blk.cfg.get reg') ∧
  ∀ w : Word, w.toNat / 4096 = 2 → 7 ≤ w.toNat / 256 % 16 → RejectsWord w

/-- R81 with R174, R246: `LOADCFG reg, v` leaves v in the register, whatever it held, for every v of its
width, and changes nothing else. -/
def Obligations.LoadcfgLoadsTheValue : Prop :=
  ∀ (reg : CfgReg) (v : Nat) (s : State), v < 2 ^ cfgBits s.par reg → ∃ c : Cfg,
    perform (loadCfg reg v) s =
      .next { s with blk := { s.blk with cfg := c }, resp := some ⟨.ok, 0⟩ } ∧
    c.get reg = v ∧ ∀ reg', reg' ≠ reg → c.get reg' = s.blk.cfg.get reg'

/-- R206, which the spec derives from R38 and R44: only a successful `NEW` changes `ACT` or `T`; `CFGCLR`
and `CFGSH` change `CFG` only, and nothing else changes `CFG`. -/
def Obligations.OnlyNewChangesTheActiveConfiguration : Prop :=
  ∀ (i : Instr) (s t : State), exec i s = .next t →
    (t.blk.act ≠ s.blk.act ∨ t.blk.t ≠ s.blk.t →
      (∃ alg, i = Instr.newOf alg) ∧ t.resp = some ⟨.ok, 0⟩) ∧
    ((∃ reg, i = .cfgclr reg) ∨ (∃ reg imm, i = .cfgsh reg imm) →
      t.blk = { s.blk with cfg := t.blk.cfg }) ∧
    (t.blk.cfg ≠ s.blk.cfg → (∃ reg, i = .cfgclr reg) ∨ ∃ reg imm, i = .cfgsh reg imm)

/-! ### Construction -/

/-- R94, R103, R114, R118: the algorithms without configuration are created in every `PHASE`, with their
initial accumulators; every other element keeps its content. -/
def Obligations.NewWithoutConfigurationCreates : Prop :=
  [Instr.newParity, .newLrc, .newAdd, .newAdd1c].map encode = [0x3000, 0x3100, 0x3200, 0x3300] ∧
  ∀ s : State,
    exec .newParity s = .next { s with
      blk := { s.blk with act := { s.blk.act with alg := .parity }, p := false, phase := .active },
      resp := some ⟨.ok, 0⟩ } ∧
    exec .newLrc s = .next { s with
      blk := { s.blk with act := { s.blk.act with alg := .lrc }, l := 0, phase := .active },
      resp := some ⟨.ok, 0⟩ } ∧
    exec .newAdd s = .next { s with
      blk := { s.blk with act := { s.blk.act with alg := .add }, acc := 0, phase := .active },
      resp := some ⟨.ok, 0⟩ } ∧
    exec .newAdd1c s = .next { s with
      blk := { s.blk with act := { s.blk.act with alg := .add1c }, acc := 0, phase := .active },
      resp := some ⟨.ok, 0⟩ }

/-- R129, R125: `NEW.DUAL` accepts exactly the prime moduli, latches the modulus with A = 1 and B = 0, and
otherwise answers `InvalidConfig` and changes nothing. -/
def Obligations.NewDualAcceptsExactlyThePrimes : Prop :=
  encode .newDual = 0x3400 ∧ ∀ s : State,
    (Nat.Prime s.blk.cfg.modulus.toNat → exec .newDual s = .next { s with
      blk := { s.blk with
        act := { s.blk.act with alg := .dual, m := s.blk.cfg.modulus }, a := 1, b := 0,
        phase := .active },
      resp := some ⟨.ok, 0⟩ }) ∧
    (¬ Nat.Prime s.blk.cfg.modulus.toNat →
      exec .newDual s = .next { s with resp := some ⟨.error .invalidConfig, 0⟩ })

/-- R150, R142: `NEW.CRC` validates the staged Polynomial, latches it with bit k of the divisor forced to 1,
and seeds `R`; when one of the seven conditions holds it answers `InvalidConfig` and changes nothing. -/
def Obligations.NewCrcLatchesTheStagedPolynomial : Prop :=
  encode .newCrc = 0x3500 ∧ ∀ s : State,
    (s.blk.cfg.StagedPolyOk s.par → exec .newCrc s = .next { s with
      blk := { s.blk with
        act := { s.blk.act with
          alg := .crc, k := s.blk.cfg.width,
          g := s.blk.cfg.poly ||| 2 ^ s.blk.cfg.width.toNat, init := s.blk.cfg.init,
          xorout := s.blk.cfg.xorout, order := s.blk.cfg.flags.getLsbD 0,
          refin := s.blk.cfg.flags.getLsbD 1, refout := s.blk.cfg.flags.getLsbD 2 },
        r := s.blk.cfg.init, phase := .active },
      resp := some ⟨.ok, 0⟩ }) ∧
    (¬ s.blk.cfg.StagedPolyOk s.par →
      exec .newCrc s = .next { s with resp := some ⟨.error .invalidConfig, 0⟩ })

/-- R157, with the closed forms the spec derives in R152 and R153: `NEW.CRCT` latches the Polynomial as
`NEW.CRC` does, builds the 256 entries `T[i] = (i * x^k) mod G` and converts the seed to `(INIT * x^k) mod
G`; on `InvalidConfig` nothing changes, the previous table included. -/
def Obligations.NewCrctBuildsTableAndSeed : Prop :=
  encode .newCrct = 0x3600 ∧ ∀ s : State,
    (s.blk.cfg.StagedPolyOk s.par → ∃ (table : List Nat) (seed : Nat),
      exec .newCrct s = .next { s with
        blk := { s.blk with
          act := { s.blk.act with
            alg := .crct, k := s.blk.cfg.width,
            g := s.blk.cfg.poly ||| 2 ^ s.blk.cfg.width.toNat, init := s.blk.cfg.init,
            xorout := s.blk.cfg.xorout, order := s.blk.cfg.flags.getLsbD 0,
            refin := s.blk.cfg.flags.getLsbD 1, refout := s.blk.cfg.flags.getLsbD 2 },
          t := table, r := seed, phase := .active },
        resp := some ⟨.ok, 0⟩ } ∧
      table.length = 256 ∧
      (∀ i, i < 256 → IsGf2Rem s.blk.cfg.width.toNat
        (s.blk.cfg.poly ||| 2 ^ s.blk.cfg.width.toNat) (i <<< s.blk.cfg.width.toNat)
        (table.getD i 0)) ∧
      IsGf2Rem s.blk.cfg.width.toNat (s.blk.cfg.poly ||| 2 ^ s.blk.cfg.width.toNat)
        (s.blk.cfg.init <<< s.blk.cfg.width.toNat) seed) ∧
    (¬ s.blk.cfg.StagedPolyOk s.par →
      exec .newCrct s = .next { s with resp := some ⟨.error .invalidConfig, 0⟩ })

/-- R176: `NEW` with an unrecognised identifier answers `UnknownAlgorithm`, status 1, in every `PHASE` and
changes nothing. -/
def Obligations.NewUnrecognisedAnswersUnknownAlgorithm : Prop :=
  (∀ (id : BitVec 4) (s : State),
    exec (.newUnrecognised id) s = .next { s with resp := some ⟨.error .unknownAlgorithm, 0⟩ }) ∧
  (∀ id : BitVec 4, (encode (.newUnrecognised id)).toNat = 0x3000 + id.toNat * 256) ∧
  Condition.unknownAlgorithm.code = 1

/-! ### Absorbing -/

/-- R92, R101 with R177: under `PARITY` a byte inverts `P` when it has an odd number of 1 bits; under `LRC`
it is XORed into `L`. Nothing else changes. -/
def Obligations.AbsorbUpdatesParityAndLrc : Prop :=
  ∀ (d : Byte) (s : State), s.blk.phase = .active →
    (s.blk.act.alg = .parity → exec (.absorb d) s = .next { s with
      blk := { s.blk with p := s.blk.p ^^ decide (byteWeight d % 2 = 1) },
      resp := some ⟨.ok, 0⟩ }) ∧
    (s.blk.act.alg = .lrc → exec (.absorb d) s = .next { s with
      blk := { s.blk with l := s.blk.l ^^^ d }, resp := some ⟨.ok, 0⟩ })

/-- R111, R115 with R177: under `ADD` the sum wraps at ACCW bits; under `ADD1C` the carry out of ACCW bits
is added back at bit 0. Nothing else changes. -/
def Obligations.AbsorbAddsIntoTheAccumulator : Prop :=
  ∀ (d : Byte) (s : State), s.blk.phase = .active →
    (s.blk.act.alg = .add → exec (.absorb d) s = .next { s with
      blk := { s.blk with acc := (s.blk.acc + d.toNat) % 2 ^ s.par.accw },
      resp := some ⟨.ok, 0⟩ }) ∧
    (s.blk.act.alg = .add1c → exec (.absorb d) s = .next { s with
      blk := { s.blk with
        acc := (s.blk.acc + d.toNat) % 2 ^ s.par.accw + (s.blk.acc + d.toNat) / 2 ^ s.par.accw },
      resp := some ⟨.ok, 0⟩ })

/-- R127 with R177: under `DUAL`, `A` takes the byte first, then `B` takes the new `A`, both reduced modulo
M at every byte. Nothing else changes. -/
def Obligations.AbsorbUpdatesTheDualAccumulators : Prop :=
  ∀ (d : Byte) (s : State), s.blk.phase = .active → s.blk.act.alg = .dual →
    0 < s.blk.act.m.toNat → ∃ a b : Byte,
      exec (.absorb d) s = .next { s with
        blk := { s.blk with a := a, b := b }, resp := some ⟨.ok, 0⟩ } ∧
      a.toNat = (s.blk.a.toNat + d.toNat) % s.blk.act.m.toNat ∧
      b.toNat = (s.blk.b.toNat + a.toNat) % s.blk.act.m.toNat

/-- R145 and R147 (and R92 for `PARITY`): `ABSORB b` is exactly the eight `ABSORBBIT` commands of the bits
of b in the order the divider consumes them, bit 7 first when `ORDER xor REFIN` is 0 and bit 0 first when it
is 1; under `PARITY` in either order. -/
def Obligations.AbsorbIsEightAbsorbbits : Prop :=
  ∀ (d : Byte) (s : State), s.blk.phase = .active →
    (s.blk.act.alg = .crc →
      exec (.absorb d) s = execAll (absorbBits (consumedBits s.blk.act d)) s) ∧
    (s.blk.act.alg = .parity → ∀ bits ∈ [msbFirst d, lsbFirst d],
      exec (.absorb d) s = execAll (absorbBits bits) s)

/-- R91, R143, R147 with R178: under `PARITY` a bit is XORed into `P`; under `CRC` the register shifts left,
takes the bit in at the bottom and is XORed with the polynomial's lower k bits when a 1 left the top.
Nothing else changes. -/
def Obligations.AbsorbbitConsumesOneBit : Prop :=
  ∀ (c : Bool) (s : State), s.blk.phase = .active →
    (s.blk.act.alg = .parity → exec (.absorbbit c) s = .next { s with
      blk := { s.blk with p := s.blk.p ^^ c }, resp := some ⟨.ok, 0⟩ }) ∧
    (s.blk.act.alg = .crc → exec (.absorbbit c) s = .next { s with
      blk := { s.blk with
        r := (2 * s.blk.r + c.toNat) % 2 ^ s.blk.act.k.toNat ^^^
          (if s.blk.r.testBit (s.blk.act.k.toNat - 1) then s.blk.act.g % 2 ^ s.blk.act.k.toNat
           else 0) },
      resp := some ⟨.ok, 0⟩ })

/-- R154, and R155 (the case k < 8, which the spec derives), with R145, R177: the table-driven divider
consumes a byte with one table entry, indexed by the register's top byte XOR the byte for k ≥ 8 and by the
whole register at the top of a byte for k < 8. Nothing else changes. -/
def Obligations.AbsorbStepsTheTableDivider : Prop :=
  ∀ (d : Byte) (s : State), s.blk.phase = .active → s.blk.act.alg = .crct → ∃ u : Byte,
    (∀ j, j < 8 →
      u.getLsbD j = d.getLsbD (if s.blk.act.order ^^ s.blk.act.refin then 7 - j else j)) ∧
    (8 ≤ s.blk.act.k.toNat → exec (.absorb d) s = .next { s with
      blk := { s.blk with
        r := s.blk.r * 256 % 2 ^ s.blk.act.k.toNat ^^^
          s.blk.t.getD (s.blk.r / 2 ^ (s.blk.act.k.toNat - 8) % 256 ^^^ u.toNat) 0 },
      resp := some ⟨.ok, 0⟩ }) ∧
    (s.blk.act.k.toNat < 8 → exec (.absorb d) s = .next { s with
      blk := { s.blk with
        r := s.blk.t.getD (s.blk.r * 2 ^ (8 - s.blk.act.k.toNat) ^^^ u.toNat) 0 },
      resp := some ⟨.ok, 0⟩ })

/-- R149 and R155, one byte, closed forms the spec derives: in a state that meets the invariant, `ABSORB`
under `CRC` takes R to `(R * x^8 + u) mod G` and under `CRCT` to `(R * x^8 + u * x^k) mod G`, u being the
byte in the order its bits are consumed. -/
def Obligations.AbsorbDividesByTheGenerator : Prop :=
  ∀ (d : Byte) (s : State), s.Inv → s.blk.phase = .active →
    (s.blk.act.alg = .crc → ∃ r, exec (.absorb d) s = .next { s with
        blk := { s.blk with r := r }, resp := some ⟨.ok, 0⟩ } ∧
      IsGf2Rem s.blk.act.k.toNat s.blk.act.g
        (s.blk.r <<< 8 ^^^ bitsToNat (consumedBits s.blk.act d)) r) ∧
    (s.blk.act.alg = .crct → ∃ r, exec (.absorb d) s = .next { s with
        blk := { s.blk with r := r }, resp := some ⟨.ok, 0⟩ } ∧
      IsGf2Rem s.blk.act.k.toNat s.blk.act.g
        (s.blk.r <<< 8 ^^^ bitsToNat (consumedBits s.blk.act d) <<< s.blk.act.k.toNat) r)

/-- R177, R178, R223, R225: an absorb with no ChecksumState is an `IllegalCommand`; a bit under an algorithm
without bit-wise absorb is one in every `PHASE`, `FINAL` included; otherwise an absorb in `FINAL` is a
`StateReuseError`. Nothing changes. -/
def Obligations.RefusedAbsorbsChangeNothing : Prop :=
  ∀ (d : Byte) (c : Bool) (s : State),
    (s.blk.phase = .idle → ∀ i ∈ [Instr.absorb d, .absorbbit c],
      exec i s = .next { s with resp := some ⟨.error .illegalCommand, 0⟩ }) ∧
    (s.blk.act.alg ≠ .parity → s.blk.act.alg ≠ .crc →
      exec (.absorbbit c) s = .next { s with resp := some ⟨.error .illegalCommand, 0⟩ }) ∧
    (s.blk.phase = .final →
      exec (.absorb d) s = .next { s with resp := some ⟨.error .stateReuseError, 0⟩ } ∧
      (s.blk.act.alg = .parity ∨ s.blk.act.alg = .crc →
        exec (.absorbbit c) s = .next { s with resp := some ⟨.error .stateReuseError, 0⟩ }))

/-! ### Finalizing, verifying, serializing, resetting -/

/-- R179 with the value rules R93, R102, R112, R116, R128, R148, R156: in `ACTIVE`, `FINALIZE` answers the
ChecksumValue of the active algorithm, stores it in `RESULT`, makes `PHASE` `FINAL` and writes no
accumulator; in `IDLE` it is an `IllegalCommand`. -/
def Obligations.FinalizeAnswersTheChecksumValue : Prop :=
  (∀ s : State, s.Inv → s.blk.phase = .active → ∃ v : Nat,
    exec .finalize s = .next { s with
      blk := { s.blk with result := v, phase := .final }, resp := some ⟨.ok, v⟩ } ∧
    (s.blk.act.alg = .parity → v = s.blk.p.toNat) ∧
    (s.blk.act.alg = .lrc → v = s.blk.l.toNat) ∧
    (s.blk.act.alg = .add → v = s.blk.acc % 256) ∧
    (s.blk.act.alg = .add1c → v = if s.blk.acc = 0 then 0 else (s.blk.acc - 1) % 255 + 1) ∧
    (s.blk.act.alg = .dual → v = s.blk.b.toNat * 256 + s.blk.a.toNat) ∧
    (s.blk.act.alg = .crc ∨ s.blk.act.alg = .crct → v < 2 ^ s.blk.act.k.toNat ∧ ∃ rem,
      (s.blk.act.alg = .crc → IsGf2Rem s.blk.act.k.toNat s.blk.act.g
        (s.blk.r <<< s.blk.act.k.toNat) rem) ∧
      (s.blk.act.alg = .crct → rem = s.blk.r) ∧
      ∀ i, i < s.blk.act.k.toNat → v.testBit i =
        (rem.testBit (if s.blk.act.refout then s.blk.act.k.toNat - 1 - i else i) ^^
          s.blk.act.xorout.testBit i))) ∧
  ∀ s : State, s.blk.phase = .idle →
    exec .finalize s = .next { s with resp := some ⟨.error .illegalCommand, 0⟩ }

/-- R202, which the spec derives from R179, R181, R183: in `FINAL`, `FINALIZE` answers `RESULT`, and any
number of `FINALIZE`, `VERIFY` and `GETBYTE` commands changes no state. -/
def Obligations.FinalizationIsIdempotent : Prop :=
  (∀ s : State, s.blk.phase = .final →
    exec .finalize s = .next { s with resp := some ⟨.ok, s.blk.result⟩ }) ∧
  ∀ (cmds : List Instr) (s : State), s.blk.phase = .final →
    (∀ i ∈ cmds, i = .finalize ∨ i = .verify ∨ ∃ n, i = .getbyte n) →
    ∃ r, execAll cmds s = .next { s with resp := r }

/-- R181: `VERIFY` leaves the state `FINALIZE` leaves and answers 1 exactly when the whole of `RESULT`
equals the whole of `CFG.EXPECT` as it stands now; in `IDLE`, or with a nonzero `sel` or `imm`, it is an
`IllegalCommand`. -/
def Obligations.VerifyComparesAllBits : Prop :=
  encode .verify = 0x8000 ∧ (∀ s : State,
    (s.blk.phase ≠ .idle → ∃ t : State, exec .finalize s = .next t ∧
      exec .verify s = .next { t with
        resp := some ⟨.ok, if t.blk.result = s.blk.cfg.expect then 1 else 0⟩ }) ∧
    (s.blk.phase = .idle →
      exec .verify s = .next { s with resp := some ⟨.error .illegalCommand, 0⟩ })) ∧
  ∀ w : Word, w.toNat / 4096 = 8 → w ≠ 0x8000 → RejectsWord w

/-- R183, R182, R43: in `FINAL`, `GETBYTE i` answers byte i of the big-endian Check Sequence of NB bytes and
changes nothing; an index of NB or more, a computation not finalized, or a nonzero `sel`, is an
`IllegalCommand`. -/
def Obligations.GetbyteAnswersOneCheckSequenceByte : Prop :=
  (∀ imm : Byte, (encode (.getbyte imm)).toNat = 0x9000 + imm.toNat) ∧
  (∀ w : Word, w.toNat / 4096 = 9 → w.toNat / 256 % 16 ≠ 0 → RejectsWord w) ∧
  ∀ (imm : Byte) (s : State) (nb : Nat),
    nb = (match s.blk.act.alg with
      | .parity | .lrc | .add | .add1c => 1
      | .dual => 2
      | .crc | .crct => (s.blk.act.k.toNat + 7) / 8) →
    (s.blk.phase = .final → imm.toNat < nb → exec (.getbyte imm) s = .next { s with
      resp := some ⟨.ok, s.blk.result / 256 ^ (nb - 1 - imm.toNat) % 256⟩ }) ∧
    (s.blk.phase ≠ .final ∨ nb ≤ imm.toNat → exec (.getbyte imm) s = .next { s with
      resp := some ⟨.error .illegalCommand, 0⟩ })

/-- R182 and R52, by the commands of `CODEWORD` (R81): in a final state that meets the invariant, the bytes
`GETBYTE 0` to `GETBYTE NB-1` answer, read most significant first, are the whole ChecksumValue. -/
def Obligations.CheckSequenceSpellsTheResult : Prop :=
  ∀ s : State, s.Inv → s.blk.phase = .final → ∃ bytes : List Byte,
    bytes.length = s.blk.act.nb ∧
    responses (codewordCmds s.blk.act.nb) s =
      some ⟨.ok, s.blk.result⟩ :: bytes.map (fun d => some ⟨.ok, d.toNat⟩) ∧
    bytes.foldl (fun v d => v * 256 + d.toNat) 0 = s.blk.result

/-- R180 with the `init` rules R91, R101, R111, R115, R126, R144 and R153: `RESET` re-initialises the
accumulators of the active algorithm from `ACT`, not from `CFG`, makes `PHASE` `ACTIVE`, and changes nothing
else; in `IDLE`, or with a nonzero `sel` or `imm`, it is an `IllegalCommand`. The seed under `CRCT` is given
in the closed form the spec derives in R153. -/
def Obligations.ResetReinitialisesTheAccumulators : Prop :=
  encode .reset = 0x7000 ∧ (∀ w : Word, w.toNat / 4096 = 7 → w ≠ 0x7000 → RejectsWord w) ∧
  ∀ s : State, s.Inv →
    (s.blk.phase = .idle →
      exec .reset s = .next { s with resp := some ⟨.error .illegalCommand, 0⟩ }) ∧
    (s.blk.phase ≠ .idle → ∃ blk : Block,
      exec .reset s = .next { s with blk := blk, resp := some ⟨.ok, 0⟩ } ∧
      (s.blk.act.alg = .parity → blk = { s.blk with p := false, phase := .active }) ∧
      (s.blk.act.alg = .lrc → blk = { s.blk with l := 0, phase := .active }) ∧
      (s.blk.act.alg = .add ∨ s.blk.act.alg = .add1c →
        blk = { s.blk with acc := 0, phase := .active }) ∧
      (s.blk.act.alg = .dual → blk = { s.blk with a := 1, b := 0, phase := .active }) ∧
      (s.blk.act.alg = .crc → blk = { s.blk with r := s.blk.act.init, phase := .active }) ∧
      (s.blk.act.alg = .crct → ∃ seed, blk = { s.blk with r := seed, phase := .active } ∧
        IsGf2Rem s.blk.act.k.toNat s.blk.act.g (s.blk.act.init <<< s.blk.act.k.toNat) seed))

/-- R205, which the spec derives from R180: after any commands but a `NEW`, `RESET` restores exactly the
state just after the `NEW` that created the ChecksumState; only `RESULT` and what was staged in `CFG` since
may differ. -/
def Obligations.ResetRestoresTheFreshState : Prop :=
  ∀ (alg : Alg) (cmds : List Instr) (s t t' : State), exec (Instr.newOf alg) s = .next t →
    t.resp = some ⟨.ok, 0⟩ → (∀ i ∈ cmds, ∀ other, i ≠ Instr.newOf other) →
    execAll cmds t = .next t' → ∃ u : State, exec .reset t' = .next u ∧
      u.blk = { t.blk with result := t'.blk.result, cfg := t'.blk.cfg } ∧
      u.resp = some ⟨.ok, 0⟩

/-! ### Laws of the algorithms -/

/-- The end-around-carry fold of R17 in the closed form the spec derives from it. -/
def Obligations.FoldIsResidueModulo255 : Prop :=
  ∀ v : Nat, fold8 v = if v = 0 then 0 else (v - 1) % 255 + 1

/-- The width law of `43_addition.md` R113, which the spec derives from R111 and R112: for every Data Word
of every length the `ADD` value is the exact sum modulo 256, whatever ACCW. -/
def Obligations.AddValueIsSumModulo256 : Prop :=
  ∀ (p : Params) (blk : Block) (data : List Byte), p.Ok → blk.act.alg = .add →
    blk.checksum p data = byteSum data % 256

/-- The width law of `43_addition.md` R117, which the spec derives from R115, R116 and R17: for every Data
Word of every length the `ADD1C` value is the fold of the exact sum: 0 for the sum 0 and `((S - 1) mod 255)
+ 1` otherwise, whatever ACCW. -/
def Obligations.Add1cValueIsFoldedSum : Prop :=
  ∀ (p : Params) (blk : Block) (data : List Byte), p.Ok → blk.act.alg = .add1c →
    blk.checksum p data = fold8 (byteSum data) ∧
    blk.checksum p data = if byteSum data = 0 then 0 else (byteSum data - 1) % 255 + 1

/-- The closed form of the dual-modular accumulators, R131, which the spec derives from R126 and R127. -/
def Obligations.DualAccumulatorsInClosedForm : Prop :=
  ∀ (p : Params) (blk : Block) (data : List Byte), blk.act.alg = .dual →
    isPrime8 blk.act.m = true →
    (blk.init.absorbAll p data).a.toNat = (1 + byteSum data) % blk.act.m.toNat ∧
    (blk.init.absorbAll p data).b.toNat =
      (data.length + weightedSum data) % blk.act.m.toNat

/-- R104, a consequence of R101 and R102: bit i of the `LRC` value is the parity of bit i over all bytes,
and the parity of the `LRC` value is the `PARITY` value of the same Data Word. -/
def Obligations.LrcLanesAreIndependentParities : Prop :=
  ∀ (p : Params) (blk blk' : Block) (data : List Byte), blk.act.alg = .lrc →
    blk'.act.alg = .parity →
    (∀ i, i < 8 → (blk.checksum p data).testBit i =
      decide (data.countP (fun d => d.getLsbD i) % 2 = 1)) ∧
    (parity8 (BitVec.ofNat 8 (blk.checksum p data))).toNat = blk'.checksum p data

/-- R95, and R93, whose sentence on the value the spec derives from R91 and R92: the `PARITY` value is the
parity of the number of 1 bits of the Data Word, so an error pattern XORed into it changes the value exactly
when it has odd weight. -/
def Obligations.ParityDetectsExactlyOddWeight : Prop :=
  ∀ (p : Params) (blk : Block) (data err : List Byte), blk.act.alg = .parity →
    blk.checksum p data = (data.map byteWeight).sum % 2 ∧
    (data.length = err.length →
      (blk.checksum p (List.zipWith (· ^^^ ·) data err) ≠ blk.checksum p data ↔
        (err.map byteWeight).sum % 2 = 1))

/-- R207, which the spec derives from R92, R101, R113, R117: under `PARITY`, `LRC`, `ADD` and `ADD1C` the
value does not depend on the order of the bytes. -/
def Obligations.ByteOrderDoesNotMatter : Prop :=
  ∀ (p : Params) (blk : Block) (data data' : List Byte), p.Ok → data.Perm data' →
    blk.act.alg ∈ [Alg.parity, .lrc, .add, .add1c] →
    blk.checksum p data = blk.checksum p data'

/-- The exact form of R132, which the spec derives from R131: under `DUAL`, exchanging two adjacent bytes
leaves `A` alone and is detected exactly when the bytes are not congruent modulo M. -/
def Obligations.DualDetectsExchangedNeighbours : Prop :=
  ∀ (p : Params) (blk : Block) (before after : List Byte) (x y : Byte),
    blk.act.alg = .dual → isPrime8 blk.act.m = true →
    (blk.init.absorbAll p (before ++ x :: y :: after)).a =
      (blk.init.absorbAll p (before ++ y :: x :: after)).a ∧
    (blk.checksum p (before ++ x :: y :: after) = blk.checksum p (before ++ y :: x :: after) ↔
      x.toNat % blk.act.m.toNat = y.toNat % blk.act.m.toNat)

/-- R120, R121, which the spec derives from R113 and R117: every single-bit flip changes the `ADD` value and
the `ADD1C` value. -/
def Obligations.AdditionDetectsEverySingleBitFlip : Prop :=
  ∀ (p : Params) (blk : Block) (before after : List Byte) (d : Byte) (i : Nat), p.Ok → i < 8 →
    blk.act.alg = .add ∨ blk.act.alg = .add1c →
    blk.checksum p (before ++ flipBit d i :: after) ≠ blk.checksum p (before ++ d :: after)

/-- R120, R121, which the spec derives from R113 and R117: of all two-bit flips, `ADD` misses the
compensating pairs (one bit position, opposite directions) and the pairs at bit 7 of two bytes, and `ADD1C`
the compensating pairs alone; every other two-bit flip, in two bytes or in one, is detected. -/
def Obligations.AdditionTwoBitFlips : Prop :=
  (∀ (p : Params) (blk : Block) (before mid after : List Byte) (d e : Byte) (i j : Nat), p.Ok →
    i < 8 → j < 8 →
    let intact := before ++ d :: mid ++ e :: after
    let flipped := before ++ flipBit d i :: mid ++ flipBit e j :: after
    (blk.act.alg = .add → (blk.checksum p flipped = blk.checksum p intact ↔
      i = j ∧ (d.getLsbD i ≠ e.getLsbD j ∨ i = 7))) ∧
    (blk.act.alg = .add1c → (blk.checksum p flipped = blk.checksum p intact ↔
      i = j ∧ d.getLsbD i ≠ e.getLsbD j))) ∧
  ∀ (p : Params) (blk : Block) (before after : List Byte) (d : Byte) (i j : Nat), p.Ok →
    i < 8 → j < 8 → i ≠ j → blk.act.alg = .add ∨ blk.act.alg = .add1c →
    blk.checksum p (before ++ flipBit (flipBit d i) j :: after) ≠
      blk.checksum p (before ++ d :: after)

/-- R149, which the spec derives from R143, R144, R148: after the bits of a Data Word the serial divider's
register is `(INIT * x^t + M_t) mod G`, and after the k padding bits it is `(INIT * x^(n+k) + D * x^k) mod
G`. -/
def Obligations.SerialRegisterIsTheRemainder : Prop :=
  ∀ (k g init : Nat) (bits : List Bool), 1 ≤ k → 2 ^ k ≤ g → g < 2 ^ (k + 1) → init < 2 ^ k →
    IsGf2Rem k g (init <<< bits.length ^^^ bitsToNat bits)
      (serialFeed k (g % 2 ^ k) init bits) ∧
    IsGf2Rem k g (init <<< (bits.length + k) ^^^ bitsToNat bits <<< k)
      (serialPad k (g % 2 ^ k) (serialFeed k (g % 2 ^ k) init bits) k)

/-- R149 and R155, closed forms the spec derives, where `mod G` stands for one value: in a state that meets
the invariant, whatever value is the remainder is the one the machine computes, `ABSORB` under `CRC` and
under `CRCT` as the new `R`, and `FINALIZE` under `CRC` as the value it reflects and XORs (R148). -/
def Obligations.MachineComputesTheOnlyRemainder : Prop :=
  ∀ s : State, s.Inv → s.blk.phase = .active →
    (∀ (d : Byte) (r : Nat),
      (s.blk.act.alg = .crc ∧ IsGf2Rem s.blk.act.k.toNat s.blk.act.g
          (s.blk.r <<< 8 ^^^ bitsToNat (consumedBits s.blk.act d)) r) ∨
        (s.blk.act.alg = .crct ∧ IsGf2Rem s.blk.act.k.toNat s.blk.act.g
          (s.blk.r <<< 8 ^^^ bitsToNat (consumedBits s.blk.act d) <<< s.blk.act.k.toNat) r) →
      exec (.absorb d) s = .next { s with
        blk := { s.blk with r := r }, resp := some ⟨.ok, 0⟩ }) ∧
    ∀ rem : Nat, s.blk.act.alg = .crc →
      IsGf2Rem s.blk.act.k.toNat s.blk.act.g (s.blk.r <<< s.blk.act.k.toNat) rem →
      ∃ v : Nat, exec .finalize s = .next { s with
          blk := { s.blk with result := v, phase := .final }, resp := some ⟨.ok, v⟩ } ∧
        ∀ i, v.testBit i = (decide (i < s.blk.act.k.toNat) &&
          (rem.testBit (if s.blk.act.refout then s.blk.act.k.toNat - 1 - i else i) ^^
            s.blk.act.xorout.testBit i))

/-- R158, which the spec derives from R149, R152 to R155: for every valid staged configuration and every
sequence of bytes, `COMPUTE` with the serial and with the table-driven divider answers the same
ChecksumValue. -/
def Obligations.TableDividerEqualsSerialDivider : Prop :=
  ∀ (s : State) (data : List Byte), s.blk.cfg.StagedPolyOk s.par → ∃ (t u : State) (v : Nat),
    perform (computeCmds Alg.crc.sel data) s = .next t ∧ t.resp = some ⟨.ok, v⟩ ∧
    perform (computeCmds Alg.crct.sel data) s = .next u ∧ u.resp = some ⟨.ok, v⟩

/-- R159, with its precondition that the divisor's constant term is 1: replacing a run of at most k bits of
the Data Word by any other run of the same length changes the answered ChecksumValue. -/
def Obligations.CrcDetectsEveryShortBurst : Prop :=
  ∀ (s : State) (before run run' after : List Bool), s.Inv → s.blk.phase = .active →
    s.blk.act.alg = .crc → s.blk.act.g.testBit 0 = true → run.length = run'.length →
    run.length ≤ s.blk.act.k.toNat → run ≠ run' → ∃ t u : State,
      execAll (absorbBits (before ++ run ++ after) ++ [.finalize]) s = .next t ∧
      execAll (absorbBits (before ++ run' ++ after) ++ [.finalize]) s = .next u ∧
      t.resp ≠ u.resp

/-- R162: the known answer of the source document, x^3 + x + 1 over the 14 bits 11010011101100: the history
of the register over the data and the padding steps, and the ChecksumValue 100 that `ABSORBBIT` of the 14
bits and `FINALIZE` answer, `R` staying 101. -/
def Obligations.CrcKnownAnswer : Prop :=
  let bits := [true, true, false, true, false, false, true, true, true, false, true, true, false, false]
  (List.range 15).map (fun n => serialFeed 3 0b011 0 (bits.take n)) =
    [0b000, 0b001, 0b011, 0b110, 0b110, 0b111, 0b101, 0b000, 0b001, 0b011, 0b110, 0b110, 0b110,
      0b111, 0b101] ∧
  (List.range 4).map (fun n => serialPad 3 0b011 0b101 n) = [0b101, 0b001, 0b010, 0b100] ∧
  ∀ s : State, s.blk.phase = .active → s.blk.act.alg = .crc → s.blk.act.k = 3 →
    s.blk.act.g = 0b1011 → s.blk.act.refout = false → s.blk.act.xorout = 0 → s.blk.r = 0 →
    ∃ t : State, execAll (absorbBits bits ++ [.finalize]) s = .next t ∧
      t.resp = some ⟨.ok, 0b100⟩ ∧ t.blk.r = 0b101 ∧ t.blk.phase = .final

/-! ### Whole computations -/

/-- R200, which the spec derives from R175 to R181: the ChecksumValue depends on `ACT` (and the table, which
is a function of it) and the Data Word only, not on the history of the accumulators, `PHASE`, `RESULT`,
`CFG` or the instance. -/
def Obligations.ChecksumDependsOnConfigurationAndDataOnly : Prop :=
  ∀ (p : Params) (blk blk' : Block) (data : List Byte), blk.act = blk'.act →
    (blk.act.alg = .crct → blk.t = blk'.t) → blk.checksum p data = blk'.checksum p data

/-- R186, which the spec derives from R175 to R181: `COMPUTE alg, data` ends with (`OK`, V) and `PHASE`
`FINAL` when the staged configuration is valid, V being the value after `init` and the absorption of every
byte; if the `NEW` fails, its failure is the result: `InvalidConfig`, or `UnknownAlgorithm` for an
unrecognised identifier, and no byte is absorbed. -/
def Obligations.ComputeAnswersTheChecksum : Prop :=
  (∀ (alg : Alg) (data : List Byte) (s : State),
    (s.blk.cfg.StagedOk s.par alg → ∃ t u : State, exec (Instr.newOf alg) s = .next t ∧
      t.blk.act.alg = alg ∧ perform (computeCmds alg.sel data) s = .next u ∧ u.blk.phase = .final ∧
      u.resp = some ⟨.ok, t.blk.checksum s.par data⟩) ∧
    (¬ s.blk.cfg.StagedOk s.par alg → perform (computeCmds alg.sel data) s =
      .next { s with resp := some ⟨.error .invalidConfig, 0⟩ })) ∧
  ∀ (id : BitVec 4) (data : List Byte) (s : State), 7 ≤ id.toNat →
    perform (computeCmds id data) s =
      .next { s with resp := some ⟨.error .unknownAlgorithm, 0⟩ }

/-- R203 and R186, which the spec derives from R181 and from R175 to R181: `VERIFYDATA alg, data, e` answers
1 exactly when e is what `COMPUTE alg, data` answers, for every e of EW bits; if the `NEW` fails, its
failure is the result (R81) and only `CFG.EXPECT`, loaded before the `NEW`, has changed. -/
def Obligations.VerificationRoundTrip : Prop :=
  ∀ (data : List Byte) (e : Nat) (s : State), e < 2 ^ s.par.ew →
    (∀ alg : Alg, s.blk.cfg.StagedOk s.par alg → ∃ (t u : State) (v : Nat),
      perform (computeCmds alg.sel data) s = .next t ∧ t.resp = some ⟨.ok, v⟩ ∧
      perform (verifyDataCmds alg.sel data e) s = .next u ∧ u.blk.phase = .final ∧
      u.resp = some ⟨.ok, if v = e then 1 else 0⟩) ∧
    ∃ c : Cfg, c.get .expect = e ∧ (∀ reg, reg ≠ .expect → c.get reg = s.blk.cfg.get reg) ∧
      (∀ alg : Alg, ¬ s.blk.cfg.StagedOk s.par alg → perform (verifyDataCmds alg.sel data e) s =
        .next { s with
          blk := { s.blk with cfg := c }, resp := some ⟨.error .invalidConfig, 0⟩ }) ∧
      ∀ id : BitVec 4, 7 ≤ id.toNat → perform (verifyDataCmds id data e) s =
        .next { s with
          blk := { s.blk with cfg := c }, resp := some ⟨.error .unknownAlgorithm, 0⟩ }

/-- R201, which the spec derives from R177 and R44: in a computation in flight, commands that do not absorb
and either change `CFG` only, change nothing or fail may stand anywhere between the absorbs: the block ends
as without them, but for `CFG`. -/
def Obligations.ChunkBoundariesDoNotMatter : Prop :=
  ∀ (cmds : List Instr) (s : State), s.blk.phase = .active →
    (∀ i ∈ cmds, leavesComputation i = true ∨ isAbsorb i = true) → ∃ t u : State,
      execAll cmds s = .next t ∧ execAll (cmds.filter isAbsorb) s = .next u ∧
      t.blk = { u.blk with cfg := t.blk.cfg }

/-- R241, which the spec derives from R41 and R44: two blocks just after hardware reset, which agree on
`PHASE` and `CFG` and on nothing else, answer every sequence of commands alike: no element whose reset value
is unspecified can be observed. -/
def Obligations.UnspecifiedStateIsUnobservable : Prop :=
  ∀ (cmds : List Instr) (s s' : State), s.par = s'.par → s.blk.phase = .idle →
    s'.blk.phase = .idle → s.blk.cfg = s'.blk.cfg → responses cmds s = responses cmds s'
end

