-- ==== Sys2Proof/Laws/State.lean ====
section
/-! SUPPORT. One lemma per field per update of `State`, all true by `rfl`, and the fields the accumulator
functions leave alone. -/

namespace Sys2Proof.Machine

variable (s : State) (blk : Block) (r : Response) (inputs : List Input) (port : Nat)

@[simp] theorem State.withBlk_par : (s.withBlk blk).par = s.par := rfl
@[simp] theorem State.withBlk_blk : (s.withBlk blk).blk = blk := rfl
@[simp] theorem State.withBlk_others : (s.withBlk blk).others = s.others := rfl
@[simp] theorem State.withBlk_inputs : (s.withBlk blk).inputs = s.inputs := rfl
@[simp] theorem State.withBlk_resp : (s.withBlk blk).resp = s.resp := rfl
@[simp] theorem State.withBlk_drawn : (s.withBlk blk).drawn = s.drawn := rfl

@[simp] theorem State.withResp_par : (s.withResp r).par = s.par := rfl
@[simp] theorem State.withResp_blk : (s.withResp r).blk = s.blk := rfl
@[simp] theorem State.withResp_others : (s.withResp r).others = s.others := rfl
@[simp] theorem State.withResp_inputs : (s.withResp r).inputs = s.inputs := rfl
@[simp] theorem State.withResp_resp : (s.withResp r).resp = some r := rfl
@[simp] theorem State.withResp_drawn : (s.withResp r).drawn = s.drawn := rfl

@[simp] theorem State.withInputs_par : (s.withInputs inputs).par = s.par := rfl
@[simp] theorem State.withInputs_blk : (s.withInputs inputs).blk = s.blk := rfl
@[simp] theorem State.withInputs_others : (s.withInputs inputs).others = s.others := rfl
@[simp] theorem State.withInputs_inputs : (s.withInputs inputs).inputs = inputs := rfl
@[simp] theorem State.withInputs_resp : (s.withInputs inputs).resp = s.resp := rfl
@[simp] theorem State.withInputs_drawn : (s.withInputs inputs).drawn = s.drawn := rfl

@[simp] theorem State.exchange_zero : s.exchange 0 = s := rfl
@[simp] theorem State.exchange_par : (s.exchange port).par = s.par := by cases port <;> rfl
@[simp] theorem State.exchange_inputs : (s.exchange port).inputs = s.inputs := by cases port <;> rfl
@[simp] theorem State.exchange_resp : (s.exchange port).resp = s.resp := by cases port <;> rfl
@[simp] theorem State.exchange_drawn : (s.exchange port).drawn = s.drawn := by cases port <;> rfl

@[simp] theorem State.exchange_others_length :
    (s.exchange port).others.length = s.others.length := by
  cases port <;> simp [State.exchange]

@[simp] theorem State.exchange_ninst : (s.exchange port).ninst = s.ninst := by
  simp [State.ninst]

end Sys2Proof.Machine
end

