-- ==== Sys2Proof/Laws/Ops.lean ====
section
/-! SUPPORT. What the shared operations can do, said once: a command answers or raises; the port of an
instance touches that instance alone; the staging registers are independent of each other. -/

namespace Sys2Proof.Machine

/-- `respond`: everything it does (R13). -/
theorem State.answer_eq (s : State) (blk : Block) (v : Nat) :
    s.answer blk v = .next { s with blk := blk, resp := some { status := .ok, value := v } } := rfl

/-- `raise`: everything it does (R226). -/
theorem State.raise_eq (s : State) (c : Condition) :
    s.raise c = .next { s with resp := some { status := .error c, value := 0 } } := rfl

@[simp] theorem State.answer_next_iff (s t : State) (blk : Block) (v : Nat) :
    s.answer blk v = .next t ↔
      t = { s with blk := blk, resp := some { status := .ok, value := v } } := by
  rw [State.answer_eq]; constructor
  · intro h; injection h with h; exact h.symm
  · rintro rfl; rfl

@[simp] theorem State.raise_next_iff (s t : State) (c : Condition) :
    s.raise c = .next t ↔ t = { s with resp := some { status := .error c, value := 0 } } := by
  rw [State.raise_eq]; constructor
  · intro h; injection h with h; exact h.symm
  · rintro rfl; rfl

/-- Connecting a port twice restores the order of the instances. -/
theorem State.exchange_exchange (s : State) (port : Nat) : (s.exchange port).exchange port = s := by
  cases port with
  | zero => rfl
  | succ j =>
    obtain ⟨par, blk, others, inputs, resp, drawn⟩ := s
    simp only [State.exchange]
    by_cases h : j < others.length
    · simp [h]
    · simp [List.getElem?_eq_none (Nat.le_of_not_lt h), List.set_eq_of_length_le (Nat.le_of_not_lt h)]

/-- The connected instance is the one behind the port. -/
theorem State.exchange_blk {s : State} {port : Nat} {blk : Block} (h : s.instanceAt port = some blk) :
    (s.exchange port).blk = blk := by
  cases port with
  | zero => simpa [State.instanceAt] using h
  | succ j =>
    simp only [State.instanceAt] at h
    simp [State.exchange, h]

/-- Every port below NINST has an instance, and no other. -/
theorem State.instanceAt_isSome_iff (s : State) (port : Nat) :
    (s.instanceAt port).isSome ↔ port < s.ninst := by
  cases port with
  | zero => simp [State.instanceAt, State.ninst]
  | succ j => simp [State.instanceAt, State.ninst]

@[simp] theorem Result.mapNext_next (f : State → State) (t : State) :
    Result.mapNext f (.next t) = .next (f t) := rfl

/-- Serving an existing port. -/
theorem State.servePort_of_lt {s : State} {port : Nat} (f : State → Result) (h : port < s.ninst) :
    s.servePort port f = Result.mapNext (fun t => t.exchange port) (f (s.exchange port)) := if_pos h

/-- Port 0 always exists, and serving it is running `f`. -/
theorem State.servePort_zero (s : State) (f : State → Result) : s.servePort 0 f = f s := by
  rw [State.servePort_of_lt f (Nat.succ_pos _)]
  simp only [State.exchange_zero]
  cases f s <;> rfl

/-- A change of one register's content leaves every other register's content (R44). -/
theorem Cfg.get_put_of_ne (c : Cfg) {reg reg' : CfgReg} (v : Nat) (h : reg' ≠ reg) :
    (c.put reg v).get reg' = c.get reg' := by
  cases reg <;> cases reg' <;> first | rfl | exact absurd rfl h

/-- A register reads back the value put into it, if it has the register's width (R30). -/
theorem Cfg.get_put (p : Params) (c : Cfg) (reg : CfgReg) {v : Nat} (h : v < 2 ^ cfgBits p reg) :
    (c.put reg v).get reg = v := by
  cases reg <;> simp_all [Cfg.put, Cfg.get, cfgBits]

/-- Two `Cfg` with equal registers are equal. -/
theorem Cfg.ext_get {c c' : Cfg} (h : ∀ reg, c.get reg = c'.get reg) : c = c' := by
  obtain ⟨width, poly, init, xorout, flags, modulus, expect⟩ := c
  obtain ⟨width', poly', init', xorout', flags', modulus', expect'⟩ := c'
  have hw := h .width; have hp := h .poly; have hi := h .init; have hx := h .xorout
  have hf := h .flags; have hm := h .modulus; have he := h .expect
  simp only [Cfg.get] at hw hp hi hx hf hm he
  simp [BitVec.eq_of_toNat_eq hw, BitVec.eq_of_toNat_eq hf, BitVec.eq_of_toNat_eq hm, hp, hi, hx, he]

/-- `trunc` keeps n bits (R13). -/
theorem trunc_lt (n v : Nat) : trunc n v < 2 ^ n := Nat.mod_lt _ (Nat.two_pow_pos n)

theorem trunc_of_lt {n v : Nat} (h : v < 2 ^ n) : trunc n v = v := Nat.mod_eq_of_lt h

end Sys2Proof.Machine
end

