-- ==== Sys2Proof/Laws/Crc.lean ====
section
/-! SUPPORT. The serial divider as a map: it keeps k bits, it is linear over XOR, and feeding is a fold. -/

namespace Sys2Proof.Machine

theorem serialStep_lt {k poly : Nat} (hp : poly < 2 ^ k) (r : Nat) (c : Bool) :
    serialStep k poly r c < 2 ^ k := by
  unfold serialStep
  split
  · exact Nat.xor_lt_two_pow (trunc_lt _ _) hp
  · exact trunc_lt _ _

@[simp] theorem serialFeed_nil (k poly r : Nat) : serialFeed k poly r [] = r := rfl

@[simp] theorem serialFeed_cons (k poly r : Nat) (c : Bool) (bits : List Bool) :
    serialFeed k poly r (c :: bits) = serialFeed k poly (serialStep k poly r c) bits := rfl

theorem serialFeed_append (k poly r : Nat) (bits bits' : List Bool) :
    serialFeed k poly r (bits ++ bits') = serialFeed k poly (serialFeed k poly r bits) bits' :=
  List.foldl_append

theorem serialFeed_lt {k poly r : Nat} (hp : poly < 2 ^ k) (hr : r < 2 ^ k) (bits : List Bool) :
    serialFeed k poly r bits < 2 ^ k := by
  induction bits generalizing r with
  | nil => exact hr
  | cons c rest ih => exact ih (serialStep_lt hp r c)

theorem serialPad_lt {k poly r : Nat} (hp : poly < 2 ^ k) (hr : r < 2 ^ k) (n : Nat) :
    serialPad k poly r n < 2 ^ k := serialFeed_lt hp hr _

/-- The divider is linear: the step of an XOR is the XOR of the steps. -/
theorem serialStep_xor (k poly r r' : Nat) (c c' : Bool) :
    serialStep k poly (r ^^^ r') (c ^^ c') = serialStep k poly r c ^^^ serialStep k poly r' c' := by
  have key : trunc k ((r ^^^ r') <<< 1 ||| (c ^^ c').toNat) =
      trunc k (r <<< 1 ||| c.toNat) ^^^ trunc k (r' <<< 1 ||| c'.toNat) := by
    apply Nat.eq_of_testBit_eq
    intro i
    simp only [trunc, Nat.testBit_mod_two_pow, Nat.testBit_xor, Nat.testBit_or, Nat.testBit_shiftLeft]
    rcases i with _ | i
    · cases c <;> cases c' <;> simp
    · have hb : ∀ b : Bool, b.toNat.testBit (i + 1) = false := by
        intro b; cases b <;> simp [Nat.testBit_succ]
      simp only [hb]
      by_cases h : i + 1 < k <;> simp [h]
  unfold serialStep
  simp only [key, Nat.testBit_xor]
  cases r.testBit (k - 1) <;> cases r'.testBit (k - 1) <;>
    simp [Nat.xor_assoc, Nat.xor_comm, Nat.xor_left_comm]

/-- Feeding is linear in the register and the bits together. -/
theorem serialFeed_xor (k poly r r' : Nat) (bits bits' : List Bool)
    (h : bits.length = bits'.length) :
    serialFeed k poly (r ^^^ r') (List.zipWith (· ^^ ·) bits bits') =
      serialFeed k poly r bits ^^^ serialFeed k poly r' bits' := by
  induction bits generalizing r r' bits' with
  | nil => cases bits' with
    | nil => rfl
    | cons _ _ => simp at h
  | cons c rest ih => cases bits' with
    | nil => simp at h
    | cons c' rest' =>
      simp only [List.zipWith_cons_cons, serialFeed_cons, serialStep_xor]
      exact ih _ _ _ (by simpa using h)

/-- The polynomial's lower k bits have k bits (R141). -/
theorem Act.poly_lt (act : Act) : act.poly < 2 ^ act.k.toNat := trunc_lt _ _

/-- The table has 256 entries (R39). -/
@[simp] theorem crcTable_length (k poly : Nat) : (crcTable k poly).length = 256 := by simp [crcTable]

/-- Reading the table is computing the entry (R39: "a model may recompute"). -/
theorem crcTable_getD {k poly i : Nat} (h : i < 256) :
    (crcTable k poly).getD i 0 = tableEntry k poly i := by simp [crcTable, List.getD, h]

theorem tableEntry_lt {k poly : Nat} (hp : poly < 2 ^ k) (i : Nat) : tableEntry k poly i < 2 ^ k :=
  serialPad_lt hp (serialFeed_lt hp (Nat.two_pow_pos k) _) _

theorem mem_crcTable_lt {k poly entry : Nat} (hp : poly < 2 ^ k) (h : entry ∈ crcTable k poly) :
    entry < 2 ^ k := by
  obtain ⟨i, -, rfl⟩ := List.mem_map.1 h
  exact tableEntry_lt hp i

end Sys2Proof.Machine
end

