-- ==== Sys2Proof/Laws/Exec.lean ====
section
/-! SUPPORT. What a command can do, said once. -/

namespace Sys2Proof.Machine

/-- The two ways a command ends: it raises a condition and changes nothing, or it answers `OK` and may
change instance 0. -/
def Ends (s : State) (o : Host.Outcome State Fault Refusal) : Prop :=
  (∃ c, o = s.raise c) ∨ ∃ blk v, o = s.answer blk v

theorem ends_raise (s : State) (c : Condition) : Ends s (s.raise c) := .inl ⟨c, rfl⟩
theorem ends_answer (s : State) (blk : Block) (v : Nat) : Ends s (s.answer blk v) := .inr ⟨blk, v, rfl⟩

/-- Every command ends in one of the two ways, in every state. -/
theorem exec_ends (i : Instr) (s : State) : Ends s (exec i s) := by
  cases i with
  | nop => exact ends_answer ..
  | cfgclr reg => exact ends_answer ..
  | cfgsh reg imm => exact ends_answer ..
  | newParity => exact ends_answer ..
  | newLrc => exact ends_answer ..
  | newAdd => exact ends_answer ..
  | newAdd1c => exact ends_answer ..
  | newDual =>
    simp only [exec, execNewDual]
    split
    · exact ends_answer ..
    · exact ends_raise ..
  | newCrc =>
    simp only [exec, execNewCrc]
    split
    · exact ends_answer ..
    · exact ends_raise ..
  | newCrct =>
    simp only [exec, execNewCrct]
    split
    · exact ends_answer ..
    · exact ends_raise ..
  | newUnrecognised id => exact ends_raise ..
  | absorb imm =>
    simp only [exec, execAbsorb]
    split
    · exact ends_raise ..
    · exact ends_raise ..
    · exact ends_answer ..
  | absorbbit bit =>
    simp only [exec, execAbsorbbit]
    split
    · exact ends_raise ..
    · exact ends_raise ..
    · exact ends_raise ..
    · exact ends_raise ..
    · exact ends_answer ..
  | finalize =>
    simp only [exec, execFinalize]
    split
    · exact ends_raise ..
    all_goals exact ends_answer ..
  | reset =>
    simp only [exec, execReset]
    split
    · exact ends_raise ..
    all_goals exact ends_answer ..
  | verify =>
    simp only [exec, execVerify]
    split
    · exact ends_raise ..
    all_goals exact ends_answer ..
  | getbyte imm =>
    simp only [exec, execGetbyte]
    split
    · exact ends_raise ..
    · exact ends_raise ..
    · split
      · exact ends_raise ..
      · exact ends_answer ..

/-- A command always gives a next state; it keeps everything but instance 0 and the response. -/
theorem exec_frame (i : Instr) (s : State) :
    ∃ blk r, exec i s = .next { s with blk := blk, resp := some r } := by
  obtain ⟨c, h⟩ | ⟨blk, v, h⟩ := exec_ends i s
  · exact ⟨s.blk, _, h⟩
  · exact ⟨blk, _, h⟩

/-- A word on the command port: the decoded command, or `IllegalCommand` (R77). -/
theorem runWord_command {w : Word} {i : Instr} (h : decode w = .command i) (s : State) :
    runWord w s = exec i s := by simp only [runWord, h]

theorem runWord_illegal {w : Word} {why : IllegalEncoding} (h : decode w = .illegal why) (s : State) :
    runWord w s = s.raise .illegalCommand := by simp only [runWord, h]; rfl

/-- Every word ends like a command (R77: every word has one defined outcome). -/
theorem runWord_ends (w : Word) (s : State) : Ends s (runWord w s) := by
  unfold runWord
  split
  · exact exec_ends _ _
  · exact ends_raise ..

end Sys2Proof.Machine
end

