-- ==== Sys2Proof/Laws/Gf2.lean ====
section
/-! SUPPORT. Multiplication and remainders of polynomials over GF(2): the product is linear and no shorter than
its divisor, so a remainder is unique and `IsGf2Rem` determines it (R149 writes `mod G`). -/

namespace Sys2Proof.Machine

@[simp] theorem gf2MulBits_zero (g q : Nat) : gf2MulBits g 0 q = 0 := rfl

theorem gf2MulBits_succ (g n q : Nat) :
    gf2MulBits g (n + 1) q = gf2MulBits g n q ^^^ (if q.testBit n then g <<< n else 0) := rfl

@[simp] theorem gf2Mul_zero (g : Nat) : gf2Mul 0 g = 0 := by simp [gf2Mul, gf2MulBits_succ]

/-- The product is linear in the first factor. -/
theorem gf2MulBits_xor (g n q q' : Nat) :
    gf2MulBits g n (q ^^^ q') = gf2MulBits g n q ^^^ gf2MulBits g n q' := by
  induction n with
  | zero => simp
  | succ n ih =>
    simp only [gf2MulBits_succ, ih, Nat.testBit_xor]
    cases q.testBit n <;> cases q'.testBit n <;>
      simp [Nat.xor_assoc, Nat.xor_comm, Nat.xor_left_comm]

/-- Bits above the first factor contribute nothing. -/
theorem gf2MulBits_of_le {g n m q : Nat} (hq : q < 2 ^ n) (h : n ≤ m) :
    gf2MulBits g m q = gf2MulBits g n q := by
  induction m, h using Nat.le_induction with
  | base => rfl
  | succ m hm ih =>
    have hbit : q.testBit m = false :=
      Nat.testBit_lt_two_pow (lt_of_lt_of_le hq (Nat.pow_le_pow_right (by decide) hm))
    simp [gf2MulBits_succ, hbit, ih]

/-- The product, with any sufficient number of bits. -/
theorem gf2Mul_eq {g n q : Nat} (hq : q < 2 ^ n) : gf2Mul q g = gf2MulBits g n q := by
  have hlog : q < 2 ^ (q.log2 + 1) := Nat.lt_log2_self
  rcases Nat.le_total n (q.log2 + 1) with h | h
  · exact gf2MulBits_of_le hq h
  · exact (gf2MulBits_of_le hlog h).symm

theorem gf2Mul_xor (g q q' : Nat) : gf2Mul (q ^^^ q') g = gf2Mul q g ^^^ gf2Mul q' g := by
  have hq : q < 2 ^ (q + q') := lt_of_le_of_lt (Nat.le_add_right _ _) Nat.lt_two_pow_self
  have hq' : q' < 2 ^ (q + q') := lt_of_le_of_lt (Nat.le_add_left _ _) Nat.lt_two_pow_self
  rw [gf2Mul_eq hq, gf2Mul_eq hq', gf2Mul_eq (Nat.xor_lt_two_pow hq hq'), gf2MulBits_xor]

theorem gf2MulBits_lt {g k : Nat} (hg : g < 2 ^ (k + 1)) (n q : Nat) :
    gf2MulBits g n q < 2 ^ (n + k) := by
  induction n with
  | zero => exact Nat.two_pow_pos _
  | succ n ih =>
    have hlow : gf2MulBits g n q < 2 ^ (n + 1 + k) :=
      ih.trans (Nat.pow_lt_pow_right (by decide) (by omega))
    refine Nat.xor_lt_two_pow hlow ?_
    split
    · rw [Nat.shiftLeft_eq, show n + 1 + k = (k + 1) + n by omega, Nat.pow_add 2 (k + 1) n]
      exact Nat.mul_lt_mul_of_pos_right hg (Nat.two_pow_pos n)
    · exact Nat.two_pow_pos _

/-- A nonzero multiple of a divisor of degree k has degree k at least. -/
theorem le_gf2Mul {g k q : Nat} (hlo : 2 ^ k ≤ g) (hhi : g < 2 ^ (k + 1)) (hq : q ≠ 0) :
    2 ^ k ≤ gf2Mul q g := by
  have htop : g.testBit k = true := Nat.testBit_of_two_pow_le_and_two_pow_add_one_gt hlo hhi
  have hlow : (gf2MulBits g q.log2 q).testBit (q.log2 + k) = false :=
    Nat.testBit_lt_two_pow (gf2MulBits_lt hhi _ _)
  have hbit : q.testBit q.log2 = true := Nat.testBit_log2 hq
  have hset : (gf2Mul q g).testBit (q.log2 + k) = true := by
    simp [gf2Mul, gf2MulBits_succ, hbit, hlow, htop]
  exact (Nat.pow_le_pow_right (by decide) (Nat.le_add_left _ _)).trans
    (Nat.ge_two_pow_of_testBit hset)

/-- The remainder modulo a divisor of degree k is unique. -/
theorem IsGf2Rem.unique {k g v r r' : Nat} (hlo : 2 ^ k ≤ g) (hhi : g < 2 ^ (k + 1))
    (h : IsGf2Rem k g v r) (h' : IsGf2Rem k g v r') : r = r' := by
  obtain ⟨hr, q, rfl⟩ := h
  obtain ⟨hr', q', heq⟩ := h'
  have hdiff : gf2Mul (q ^^^ q') g = r ^^^ r' := by
    rw [gf2Mul_xor, ← Nat.xor_eq_zero_iff]
    rw [← Nat.xor_eq_zero_iff] at heq
    simpa [Nat.xor_assoc, Nat.xor_comm, Nat.xor_left_comm] using heq
  have hzero : q ^^^ q' = 0 := by
    by_contra hne
    exact absurd (hdiff ▸ le_gf2Mul hlo hhi hne) (Nat.not_le.2 (Nat.xor_lt_two_pow hr hr'))
  rw [hzero, gf2Mul_zero] at hdiff
  exact Nat.xor_eq_zero_iff.1 hdiff.symm

end Sys2Proof.Machine
end

