-- ==== Sys2Proof/Laws/Operands.lean ====
section
/-! SUPPORT. The small facts of the bit primitives (`00_scope.md` R14 to R17). -/

namespace Sys2Proof.Machine

theorem revBits_lt (n v : Nat) : revBits n v < 2 ^ n := by
  induction n generalizing v with
  | zero => simp [revBits]
  | succ n ih =>
    have h2 : v % 2 < 2 := Nat.mod_lt _ (by decide)
    have hr := ih (v / 2)
    have h : v % 2 * 2 ^ n ≤ 1 * 2 ^ n := Nat.mul_le_mul_right _ (by omega)
    simp only [revBits, pow_succ]
    omega

/-- R15: bit i of `rev_n(v)` is bit n-1-i of v. -/
theorem revBits_testBit (n v i : Nat) :
    (revBits n v).testBit i = (decide (i < n) && v.testBit (n - 1 - i)) := by
  induction n generalizing v i with
  | zero => simp [revBits]
  | succ n ih =>
    rw [revBits, Nat.mul_comm]
    rcases Nat.lt_trichotomy i n with h | h | h
    · rw [Nat.testBit_two_pow_mul_add _ (revBits_lt n _), if_pos h, ih]
      simp only [h, decide_true, Bool.true_and, Nat.lt_succ_of_lt h]
      rw [show n + 1 - 1 - i = (n - 1 - i) + 1 by omega, Nat.testBit_succ]
    · subst h
      rw [Nat.testBit_two_pow_mul_add _ (revBits_lt i _), if_neg (Nat.lt_irrefl i)]
      simp
    · rw [Nat.testBit_two_pow_mul_add _ (revBits_lt n _), if_neg (by omega)]
      obtain ⟨j, rfl⟩ : ∃ j, i = n + (j + 1) := ⟨i - n - 1, by omega⟩
      have hj : (v % 2).testBit (j + 1) = false := by
        rw [Nat.testBit_succ]
        have : v % 2 / 2 = 0 := by omega
        simp [this]
      simp [hj]

theorem isPrime8_two_le {m : Byte} (h : isPrime8 m = true) : 2 ≤ m.toNat := by
  revert m; decide

end Sys2Proof.Machine
end

