-- ==== Sys2Proof/Laws/PerInstr.lean ====
section
/-! SUPPORT. Facts stated once per command. `EncodingRow`: the word of a command is accepted by the row of the
opcode table that bears its mnemonic (R72). -/

namespace Sys2Proof.Laws

/-- The word of a well-formed command matches the table's row of its mnemonic. -/
def EncodingRow.Statement (i : Instr) : Prop :=
  i.WellFormed → ∃ row ∈ opcodeTable, row.mnemonic = i.mnemonic ∧ row.accepts (encode i) = true

theorem EncodingRow.nop : EncodingRow.Statement .nop :=
  fun _ => ⟨plainRow "NOP" 0x0000 0xFFFF, by simp [opcodeTable], rfl, by decide⟩

theorem EncodingRow.cfgclr (reg : CfgReg) : EncodingRow.Statement (.cfgclr reg) :=
  fun _ => ⟨{ plainRow "CFGCLR" 0x1000 0xF0FF with selHi := 6 }, by simp [opcodeTable], rfl, by
    cases reg <;> decide⟩

theorem EncodingRow.cfgsh (reg : CfgReg) (imm : Byte) : EncodingRow.Statement (.cfgsh reg imm) :=
  fun _ => ⟨{ plainRow "CFGSH" 0x2000 0xF000 with selHi := 6 }, by simp [opcodeTable], rfl, by
    cases reg <;> revert imm <;> decide +kernel⟩

theorem EncodingRow.newParity : EncodingRow.Statement .newParity :=
  fun _ => ⟨plainRow "NEW.PARITY" 0x3000 0xFFFF, by simp [opcodeTable], rfl, by decide⟩

theorem EncodingRow.newLrc : EncodingRow.Statement .newLrc :=
  fun _ => ⟨plainRow "NEW.LRC" 0x3100 0xFFFF, by simp [opcodeTable], rfl, by decide⟩

theorem EncodingRow.newAdd : EncodingRow.Statement .newAdd :=
  fun _ => ⟨plainRow "NEW.ADD" 0x3200 0xFFFF, by simp [opcodeTable], rfl, by decide⟩

theorem EncodingRow.newAdd1c : EncodingRow.Statement .newAdd1c :=
  fun _ => ⟨plainRow "NEW.ADD1C" 0x3300 0xFFFF, by simp [opcodeTable], rfl, by decide⟩

theorem EncodingRow.newDual : EncodingRow.Statement .newDual :=
  fun _ => ⟨plainRow "NEW.DUAL" 0x3400 0xFFFF, by simp [opcodeTable], rfl, by decide⟩

theorem EncodingRow.newCrc : EncodingRow.Statement .newCrc :=
  fun _ => ⟨plainRow "NEW.CRC" 0x3500 0xFFFF, by simp [opcodeTable], rfl, by decide⟩

theorem EncodingRow.newCrct : EncodingRow.Statement .newCrct :=
  fun _ => ⟨plainRow "NEW.CRCT" 0x3600 0xFFFF, by simp [opcodeTable], rfl, by decide⟩

theorem EncodingRow.newUnrecognised (id : BitVec 4) :
    EncodingRow.Statement (.newUnrecognised id) := by
  intro h
  refine ⟨{ plainRow "NEW.<unrecognised>" 0x3000 0xF0FF with selLo := 7 }, by simp [opcodeTable],
    rfl, ?_⟩
  revert id
  decide +kernel

theorem EncodingRow.absorb (imm : Byte) : EncodingRow.Statement (.absorb imm) :=
  fun _ => ⟨plainRow "ABSORB" 0x4000 0xFF00, by simp [opcodeTable], rfl, by
    revert imm; decide +kernel⟩

theorem EncodingRow.absorbbit (bit : Bool) : EncodingRow.Statement (.absorbbit bit) :=
  fun _ => ⟨plainRow "ABSORBBIT" 0x5000 0xFFFE, by simp [opcodeTable], rfl, by
    revert bit; decide⟩

theorem EncodingRow.finalize : EncodingRow.Statement .finalize :=
  fun _ => ⟨plainRow "FINALIZE" 0x6000 0xFFFF, by simp [opcodeTable], rfl, by decide⟩

theorem EncodingRow.reset : EncodingRow.Statement .reset :=
  fun _ => ⟨plainRow "RESET" 0x7000 0xFFFF, by simp [opcodeTable], rfl, by decide⟩

theorem EncodingRow.verify : EncodingRow.Statement .verify :=
  fun _ => ⟨plainRow "VERIFY" 0x8000 0xFFFF, by simp [opcodeTable], rfl, by decide⟩

theorem EncodingRow.getbyte (imm : Byte) : EncodingRow.Statement (.getbyte imm) :=
  fun _ => ⟨plainRow "GETBYTE" 0x9000 0xFF00, by simp [opcodeTable], rfl, by
    revert imm; decide +kernel⟩

end Sys2Proof.Laws
end

