-- ==== Sys2Proof/Laws/Pipeline.lean ====
section
/-! SUPPORT. What the dispatched functions of R171 leave alone (R44): they write accumulators of the active
algorithm, never `PHASE`, `ACT`, `T`, `CFG` or `RESULT`. -/

namespace Sys2Proof.Machine

/-- Two blocks that agree on everything but the accumulators. -/
def Block.SameButAccumulators (x y : Block) : Prop :=
  x.phase = y.phase ∧ x.result = y.result ∧ x.act = y.act ∧ x.t = y.t ∧ x.cfg = y.cfg

theorem Block.init_frame (blk : Block) : blk.init.SameButAccumulators blk := by
  unfold Block.init
  cases h : blk.act.alg <;> exact ⟨rfl, rfl, rfl, rfl, rfl⟩

theorem Block.absorbByte_frame (p : Params) (blk : Block) (d : Byte) :
    (blk.absorbByte p d).SameButAccumulators blk := by
  unfold Block.absorbByte
  cases h : blk.act.alg <;> exact ⟨rfl, rfl, rfl, rfl, rfl⟩

theorem Block.absorbBit?_frame {blk blk' : Block} {c : Bool} (h : blk.absorbBit? c = some blk') :
    blk'.SameButAccumulators blk := by
  unfold Block.absorbBit? at h
  cases ha : blk.act.alg <;> simp only [ha] at h <;> cases h <;> exact ⟨rfl, rfl, rfl, rfl, rfl⟩

/-- Which algorithms have a bit-wise absorb (R171, R178). -/
theorem Block.absorbBit?_isSome (blk : Block) (c : Bool) :
    (blk.absorbBit? c).isSome = Alg.hasBitAbsorb blk.act.alg := by
  unfold Block.absorbBit?
  cases blk.act.alg <;> rfl

@[simp] theorem Block.init_phase (blk : Block) : blk.init.phase = blk.phase := blk.init_frame.1
@[simp] theorem Block.init_result (blk : Block) : blk.init.result = blk.result := blk.init_frame.2.1
@[simp] theorem Block.init_act (blk : Block) : blk.init.act = blk.act := blk.init_frame.2.2.1
@[simp] theorem Block.init_t (blk : Block) : blk.init.t = blk.t := blk.init_frame.2.2.2.1
@[simp] theorem Block.init_cfg (blk : Block) : blk.init.cfg = blk.cfg := blk.init_frame.2.2.2.2

section
variable (p : Params) (blk : Block) (d : Byte)

@[simp] theorem Block.absorbByte_phase : (blk.absorbByte p d).phase = blk.phase :=
  (blk.absorbByte_frame p d).1
@[simp] theorem Block.absorbByte_result : (blk.absorbByte p d).result = blk.result :=
  (blk.absorbByte_frame p d).2.1
@[simp] theorem Block.absorbByte_act : (blk.absorbByte p d).act = blk.act :=
  (blk.absorbByte_frame p d).2.2.1
@[simp] theorem Block.absorbByte_t : (blk.absorbByte p d).t = blk.t :=
  (blk.absorbByte_frame p d).2.2.2.1
@[simp] theorem Block.absorbByte_cfg : (blk.absorbByte p d).cfg = blk.cfg :=
  (blk.absorbByte_frame p d).2.2.2.2
end

/-- `value()` looks at the accumulators and `ACT` only (R171). -/
theorem Block.value_congr {x y : Block} (hact : x.act = y.act) (hp : x.p = y.p) (hl : x.l = y.l)
    (hacc : x.acc = y.acc) (ha : x.a = y.a) (hb : x.b = y.b) (hr : x.r = y.r) :
    x.value = y.value := by
  unfold Block.value
  rw [hact]
  cases y.act.alg <;>
    simp only [valueParity, valueLrc, valueAdd, valueAdd1c, valueDual, valueCrc, valueCrct, *]

@[simp] theorem Block.finalized_of_final {blk : Block} (h : blk.phase = .final) :
    blk.finalized = blk := by simp [Block.finalized, h]

@[simp] theorem Block.finalized_of_active {blk : Block} (h : blk.phase = .active) :
    blk.finalized = { blk with result := blk.value, phase := .final } := by
  simp [Block.finalized, h]

end Sys2Proof.Machine
end

