-- ==== Sys2Proof/Laws/Pseudo.lean ====
section
/-! SUPPORT. Which `NEW` an identifier selects (R73), and how a host runs a list of commands (R81): what one
command does to the rest of the list, and a list after another. -/

namespace Sys2Proof.Machine

/-- The identifier of an algorithm selects its `NEW` (R73). -/
@[simp] theorem decodeNew_sel (alg : Alg) : decodeNew alg.sel = Instr.newOf alg := by
  cases alg <;> rfl

/-- Identifiers 7 to 15 are unrecognised (R73). -/
theorem decodeNew_of_le {id : BitVec 4} (h : 7 ≤ id.toNat) :
    decodeNew id = .newUnrecognised id := by
  revert id; decide

@[simp] theorem perform_nil (s : State) : perform [] s = .next s := rfl

/-- The host goes on after a command that answers `OK`. -/
theorem perform_cons_ok {i : Instr} {rest : List Instr} {s t : State} (h : exec i s = .next t)
    (ht : t.failed = false) : perform (i :: rest) s = perform rest t := by simp [perform, h, ht]

/-- The host stops at the first error, which is the result of the whole. -/
theorem perform_cons_failed {i : Instr} {rest : List Instr} {s t : State} (h : exec i s = .next t)
    (ht : t.failed = true) : perform (i :: rest) s = .next t := by simp [perform, h, ht]

/-- Expansions one after another. -/
theorem perform_append {cmds rest : List Instr} {s t : State} (h : perform cmds s = .next t)
    (ht : t.failed = false) : perform (cmds ++ rest) s = perform rest t := by
  induction cmds generalizing s with
  | nil => cases h; rfl
  | cons i tail ih =>
    cases hi : exec i s with
    | next u =>
      cases hu : u.failed with
      | true =>
        rw [perform_cons_failed hi hu] at h
        cases h
        exact absurd hu (by simp [ht])
      | false =>
        rw [perform_cons_ok hi hu] at h
        rw [List.cons_append, perform_cons_ok hi hu]
        exact ih h
    | fault r => simp [perform, hi] at h
    | refused r => simp [perform, hi] at h

@[simp] theorem execAll_nil (s : State) : execAll [] s = .next s := rfl

theorem execAll_cons {i : Instr} {rest : List Instr} {s t : State} (h : exec i s = .next t) :
    execAll (i :: rest) s = execAll rest t := by simp [execAll, h]

end Sys2Proof.Machine
end

