-- ==== Sys2Proof/Tests/Slice0.lean ====
section
/-! SUPPORT. Tests of one step each, expected results from `95_test_vectors.md` and the rules' own examples,
never from the model; and, for every statement with hypotheses, a concrete state and operands that meet all
of them together. -/

namespace Sys2Proof.Tests

open Sys2Proof.Machine

/-! ### Small states -/

/-- An instance with an active configuration and a phase, everything else as after reset. -/
def blkWith (act : Act) (phase : Phase) : Block := { Block.reset with act := act, phase := phase }

/-- A machine of that one instance. -/
def stWith (blk : Block) : State := { State.reset with blk := blk }

/-- The configuration of an algorithm without options. -/
def actOf (alg : Alg) : Act := { Act.reset with alg := alg }

/-- The configuration of `DUAL` with modulus 251. -/
def actDual : Act := { Act.reset with alg := .dual, m := 251 }

/-- The Polynomial x^3 + x + 1. -/
def actCrc3 (alg : Alg) : Act := { Act.reset with alg := alg, k := 3, g := 0b1011 }

/-- The Polynomial x^8 + x^2 + x + 1 with a seed. -/
def actCrc8 (alg : Alg) (seed : Nat) : Act :=
  { Act.reset with alg := alg, k := 8, g := 0x107, init := seed }

/-- The state with a configuration staged. -/
def staged (cfg : Cfg) : State := stWith { Block.reset with cfg := cfg }

/-- The staged configuration of CRC-8 with polynomial 0x07. -/
def cfgCrc8 : Cfg := { Cfg.reset with width := 8, poly := 0x07, init := 0xFF }

/-- A table-driven computation in flight, degree 3. -/
def blkCrct3 : Block := { blkWith (actCrc3 .crct) .active with t := crcTable 3 0b011 }

/-- A table-driven computation in flight, degree 8. -/
def blkCrct8 : Block := { blkWith (actCrc8 .crct 0) .active with t := crcTable 8 0x07 }

/-- A finished `DUAL` computation with the value 0x8621. -/
def blkDualFinal : Block :=
  { blkWith actDual .final with a := 33, b := 134, result := 0x8621 }

/-- The state after a step that goes on. -/
def nextOf : Host.Outcome State Fault Refusal → Option State
  | .next t => some t
  | .fault _ => none
  | .refused _ => none

/-- The response of a command. -/
def respOf (i : Instr) (s : State) : Option Response := (nextOf (exec i s)).bind State.resp

/-- A function of instance 0 after a command. -/
def after {α : Type} (f : Block → α) (i : Instr) (s : State) : Option α :=
  (nextOf (exec i s)).map fun t => f t.blk

/-! ### Well-formedness smoke test: the one check refuses an ill-formed term -/

theorem test_wf_refuses_recognised_id : ¬ (Instr.newUnrecognised 6).WellFormed := by decide
theorem test_wf_accepts_first_unrecognised : (Instr.newUnrecognised 7).WellFormed := by decide

/-! ### Decoding: words written out bit by bit from R71 and R72 -/

theorem test_decode_nop : decode 0b0000000000000000 = .command .nop := by decide
theorem test_decode_cfgclr : decode 0b0001011000000000 = .command (.cfgclr .expect) := by decide
theorem test_decode_cfgsh : decode 0b0010010111111011 = .command (.cfgsh .modulus 251) := by decide
theorem test_decode_newParity : decode 0b0011000000000000 = .command .newParity := by decide
theorem test_decode_newLrc : decode 0b0011000100000000 = .command .newLrc := by decide
theorem test_decode_newAdd : decode 0b0011001000000000 = .command .newAdd := by decide
theorem test_decode_newAdd1c : decode 0b0011001100000000 = .command .newAdd1c := by decide
theorem test_decode_newDual : decode 0b0011010000000000 = .command .newDual := by decide
theorem test_decode_newCrc : decode 0b0011010100000000 = .command .newCrc := by decide
theorem test_decode_newCrct : decode 0b0011011000000000 = .command .newCrct := by decide
theorem test_decode_newUnrecognised :
    decode 0b0011100100000000 = .command (.newUnrecognised 9) := by decide
theorem test_decode_absorb : decode 0b0100000001110011 = .command (.absorb 0x73) := by decide
theorem test_decode_absorbbit : decode 0b0101000000000001 = .command (.absorbbit true) := by decide
theorem test_decode_finalize : decode 0b0110000000000000 = .command .finalize := by decide
theorem test_decode_reset : decode 0b0111000000000000 = .command .reset := by decide
theorem test_decode_verify : decode 0b1000000000000000 = .command .verify := by decide
theorem test_decode_getbyte : decode 0b1001000000000111 = .command (.getbyte 7) := by decide

/-- The illegal words of `95_test_vectors.md` 2.9. -/
theorem test_decode_illegal :
    decode 0x0001 = .illegal .nonzeroImm ∧ decode 0x0100 = .illegal .nonzeroSel ∧
    decode 0x1700 = .illegal .badSelect ∧ decode 0x1001 = .illegal .nonzeroImm ∧
    decode 0x2F12 = .illegal .badSelect ∧ decode 0x3901 = .illegal .nonzeroImm ∧
    decode 0x4173 = .illegal .nonzeroSel ∧ decode 0x5002 = .illegal .nonzeroImm ∧
    decode 0x9100 = .illegal .nonzeroSel ∧ decode 0xA000 = .illegal .reservedOp ∧
    decode 0xFFFF = .illegal .reservedOp := by decide

/-- The register selects and the algorithm identifiers are numbered as R74 and R73 number them. -/
theorem test_select_numbers :
    [CfgReg.width, .poly, .init, .xorout, .flags, .modulus, .expect].map CfgReg.sel =
      [0, 1, 2, 3, 4, 5, 6] := by decide

theorem test_algorithm_identifiers :
    [Alg.parity, .lrc, .add, .add1c, .dual, .crc, .crct].map Alg.id = [0, 1, 2, 3, 4, 5, 6] := by
  decide

/-! ### The primitives (`95_test_vectors.md` 2.1) -/

theorem test_parity8 : [0x00, 0x01, 0x03, 0x73, 0x80, 0xFF].map parity8 =
    [false, true, false, true, true, false] := by decide
theorem test_revBits : revBits 3 0b100 = 0b001 ∧ revBits 1 1 = 1 ∧ revBits 16 0x1021 = 0x8408 ∧
    revBits 5 0b10110 = 0b01101 ∧ revByte 0x73 = 0xCE := by decide +kernel
theorem test_fold8 : [0, 0xFF, 0x100, 0x1FE, 0x1FF, 0x216, 0xFE01, 0xFFFF, 0x10000].map fold8 =
    [0, 0xFF, 0x01, 0xFF, 0x01, 0x18, 0xFF, 0xFF, 0x01] := by decide +kernel
theorem test_bit_orders : msbFirst 0x73 = [false, true, true, true, false, false, true, true] ∧
    lsbFirst 0x73 = [true, true, false, false, true, true, true, false] := by decide

/-! ### One step of each command -/

theorem test_nop : respOf .nop State.reset = some ⟨.ok, 0⟩ := by decide

/-- R173: `CFGCLR POLY` makes `CFG.POLY` 0. -/
theorem test_cfgclr_poly : after (fun b => (b.cfg.poly, b.cfg.width)) (.cfgclr .poly)
    (staged cfgCrc8) = some (0, 8) := by decide

/-- R174: 0x04C1, `CFGSH POLY, 0x1D` gives 0x04C11D. -/
theorem test_cfgsh_poly : after (fun b => b.cfg.poly) (.cfgsh .poly 0x1D)
    (staged { Cfg.reset with poly := 0x04C1 }) = some 0x04C11D := by decide

/-- 2.7: the ninth shift into the 64-bit `CFG.INIT` pushes the first byte out. -/
theorem test_cfgsh_truncates : after (fun b => b.cfg.init) (.cfgsh .init 0x09)
    (staged { Cfg.reset with init := 0x0102030405060708 }) = some 0x0203040506070809 := by
  decide +kernel

theorem test_newParity : after (fun b => (b.p, b.phase)) .newParity
    (stWith { blkDualFinal with p := true }) = some (false, .active) := by decide

theorem test_newLrc : after (fun b => (b.l, b.act.alg)) .newLrc
    (stWith { blkDualFinal with l := 7 }) = some (0, .lrc) := by decide

theorem test_newAdd : after (fun b => (b.acc, b.act.alg)) .newAdd
    (stWith { blkDualFinal with acc := 7 }) = some (0, .add) := by decide

theorem test_newAdd1c : after (fun b => (b.acc, b.act.alg)) .newAdd1c
    (stWith { blkDualFinal with acc := 7 }) = some (0, .add1c) := by decide

theorem test_newDual_251 : after (fun b => (b.a, b.b, b.act.m)) .newDual
    (staged { Cfg.reset with modulus := 251 }) = some (1, 0, 251) := by decide

/-- 2.3: 253 = 11 × 23 is refused. -/
theorem test_newDual_composite : respOf .newDual (staged { Cfg.reset with modulus := 253 }) =
    some ⟨.error .invalidConfig, 0⟩ := by decide

/-- 3.4 line 6. -/
theorem test_newCrc : after (fun b => (b.act.g, b.r, b.act.k)) .newCrc (staged cfgCrc8) =
    some (0x107, 0xFF, 8) := by decide +kernel

/-- 2.7: a pattern wider than the declared degree. -/
theorem test_newCrc_wide_pattern : respOf .newCrc (staged { cfgCrc8 with poly := 0x200 }) =
    some ⟨.error .invalidConfig, 0⟩ := by decide +kernel

/-- 3.4 line 16: T[1], T[0xFF] and the converted seed. -/
theorem test_newCrct : after (fun b => (b.t.getD 1 0, b.t.getD 0xFF 0, b.r)) .newCrct
    (staged cfgCrc8) = some (0x07, 0xF3, 0xF3) := by decide +kernel

/-- 2.7: a reserved `FLAGS` bit. -/
theorem test_newCrct_reserved_flag : respOf .newCrct (staged { cfgCrc8 with flags := 0x08 }) =
    some ⟨.error .invalidConfig, 0⟩ := by decide +kernel

theorem test_newUnrecognised : respOf (.newUnrecognised 9) State.reset =
    some ⟨.error .unknownAlgorithm, 0⟩ := by decide

/-- 2.2: the accumulator wraps (ADD) and takes its carry back (ADD1C), ACCW 32. -/
theorem test_absorb_addition_wraps :
    after (fun b => b.acc) (.absorb 0xFF)
      (stWith { blkWith (actOf .add) .active with acc := 0xFFFFFF80 }) = some 0x7F ∧
    after (fun b => b.acc) (.absorb 0xFF)
      (stWith { blkWith (actOf .add1c) .active with acc := 0xFFFFFF80 }) = some 0x80 := by
  decide +kernel

/-- 2.6: both absorb steps of the table divider, k 8 and k 3, and R127's example. -/
theorem test_absorb_dividers_and_dual :
    after (fun b => b.r) (.absorb 0x01) (stWith blkCrct8) = some 0x07 ∧
    after (fun b => b.r) (.absorb 0xEC) (stWith { blkCrct3 with r := 0b100 }) = some 0b100 ∧
    after (fun b => (b.a, b.b)) (.absorb 97)
      (stWith { blkWith actDual .active with a := 232, b := 97 }) = some (78, 175) := by
  decide +kernel

/-- R143: R = 110, bit 1, k = 3, P = 011 gives 110. -/
theorem test_absorbbit_crc : after (fun b => b.r) (.absorbbit true)
    (stWith { blkWith (actCrc3 .crc) .active with r := 0b110 }) = some 0b110 := by decide +kernel

/-- R225: under `LRC` in `FINAL` it is `IllegalCommand`, not `StateReuseError`. -/
theorem test_absorbbit_lrc_final : respOf (.absorbbit true) (stWith (blkWith (actOf .lrc) .final)) =
    some ⟨.error .illegalCommand, 0⟩ := by decide

/-- R179: `ADD1C` with ACC 534 answers 0x18. -/
theorem test_finalize_add1c : respOf .finalize
    (stWith { blkWith (actOf .add1c) .active with acc := 534 }) = some ⟨.ok, 0x18⟩ := by
  decide +kernel

/-- R162: the register 101 finalizes to 100, and `R` stays 101. -/
theorem test_finalize_crc : after (fun b => (b.result, b.r)) .finalize
    (stWith { blkWith (actCrc3 .crc) .active with r := 0b101 }) = some (0b100, 0b101) := by
  decide +kernel

/-- R180: `RESET` in `FINAL` uses `ACT`. -/
theorem test_reset_dual : after (fun b => (b.a, b.b, b.phase, b.act.m)) .reset
    (stWith blkDualFinal) = some (1, 0, .active, 251) := by decide

theorem test_reset_idle : respOf .reset State.reset = some ⟨.error .illegalCommand, 0⟩ := by decide

/-- 2.8: 0x0126 does not match 0x26, all EW bits are compared; 0x26 does. -/
theorem test_verify_compares_all_bits :
    respOf .verify (stWith { blkWith (actOf .lrc) .active with
      l := 0x26, cfg := { Cfg.reset with expect := 0x0126 } }) = some ⟨.ok, 0⟩ ∧
    respOf .verify (stWith { blkWith (actOf .lrc) .active with
      l := 0x26, cfg := { Cfg.reset with expect := 0x26 } }) = some ⟨.ok, 1⟩ := by decide +kernel

/-- 2.8: `DUAL` serializes B first, then A; index 2 is past the end. -/
theorem test_getbyte_dual :
    respOf (.getbyte 0) (stWith blkDualFinal) = some ⟨.ok, 0x86⟩ ∧
    respOf (.getbyte 1) (stWith blkDualFinal) = some ⟨.ok, 0x21⟩ ∧
    respOf (.getbyte 2) (stWith blkDualFinal) = some ⟨.error .illegalCommand, 0⟩ := by
  decide +kernel

/-- R79: the response as one number. -/
theorem test_response_number :
    Response.number Params.default ⟨.error .illegalCommand, 0⟩ = 4 * 2 ^ 64 := by decide +kernel

/-- R79, R220: the five status codes. -/
theorem test_status_codes : [Status.ok, .error .unknownAlgorithm, .error .invalidConfig,
    .error .stateReuseError, .error .illegalCommand].map Status.code = [0, 1, 2, 3, 4] := by decide

/-! ### The step -/

/-- The host's probe: the first instruction after reset. -/
theorem test_step_runs_fetched_word :
    (nextOf (step (State.reset.withFetchWord 16 0x3100))).map (fun t => (t.blk.phase, t.inputs)) =
      some (.active, []) := by decide

/-- R209: a command on port 1 leaves instance 0 alone. -/
theorem test_step_other_port :
    (nextOf (step { State.resetWith Params.default 1 with inputs := [.command 1 0x3100] })).map
      (fun t => (t.blk.phase, t.others.map Block.phase)) = some (.idle, [.active]) := by decide

/-- R240: hardware reset of a computation in flight. -/
theorem test_step_hard_reset :
    (nextOf (step { stWith { blkDualFinal with cfg := cfgCrc8 } with inputs := [.hardReset 0] })).map
      (fun t => (t.blk.phase, t.blk.cfg)) = some (.idle, Cfg.reset) := by decide

/-- There is no port 1 in a system of one instance. -/
theorem test_step_no_such_port :
    nextOf (step { State.reset with inputs := [.command 1 0x0000] }) = none := by decide

/-- R80: a character in single quotes stands for its ASCII code, 's' = 115. -/
theorem test_asm_text : (absorbStr "s").map asmText = ["ABSORB 115"] := by decide +kernel

/-- R81: `LOADCFG POLY, 0x04C11DB7` is one clear and four shifts, most significant byte first. -/
theorem test_loadcfg_expansion : (loadCfg .poly 0x04C11DB7).map encode =
    [0x1100, 0x2104, 0x21C1, 0x211D, 0x21B7] := by decide +kernel

/-- R81: `COMPUTE` with an unrecognised identifier is its `NEW` 9 (0x3900), which ends it. -/
theorem test_compute_unrecognised : (computeCmds 9 [0x73]).map encode = [0x3900, 0x4073, 0x6000] ∧
    (nextOf (perform (computeCmds 9 [0x73]) State.reset)).bind State.resp =
      some ⟨.error .unknownAlgorithm, 0⟩ := by decide

/-! ### States that meet the invariant -/

/-- The invariant of a machine of one instance, part by part. -/
theorem inv_stWith {blk : Block} (hfits : blk.Fits Params.default) (hdual : blk.DualOk)
    (hcrc : blk.CrcOk Params.default) (htable : blk.TableOk) (hfinal : blk.FinalOk) :
    (stWith blk).Inv :=
  ⟨(by decide : Params.default.Ok), ⟨hfits, hdual, hcrc, htable, hfinal⟩, nofun, nofun⟩

theorem inv_reset : State.reset.Inv :=
  inv_stWith (blk := Block.reset) (by decide +kernel) (by decide) (by decide) (by decide) (by decide)

theorem inv_dual : (stWith (blkWith actDual .active)).Inv :=
  inv_stWith (by decide +kernel) (by decide +kernel) (by decide) (by decide) (by decide)

theorem inv_dualFinal : (stWith blkDualFinal).Inv :=
  inv_stWith (by decide +kernel) (by decide +kernel) (by decide) (by decide) (by decide +kernel)

theorem inv_crc3 : (stWith (blkWith (actCrc3 .crc) .active)).Inv :=
  inv_stWith (by decide +kernel) (by decide) (by decide +kernel) (by decide) (by decide)

theorem inv_crct3 : (stWith blkCrct3).Inv :=
  inv_stWith (by decide +kernel) (by decide) (by decide +kernel) (by decide +kernel) (by decide)

theorem inv_plain : ∀ alg ∈ [Alg.parity, .lrc, .add, .add1c],
    (stWith (blkWith (actOf alg) .active)).Inv := by
  intro alg h
  refine inv_stWith ?_ ?_ ?_ ?_ ?_ <;> revert alg <;> decide +kernel

/-! ### Witnesses: for every statement with hypotheses, data that meet all of them -/

theorem witness_EncodeThenDecodeGivesTheCommandBack :
    (Instr.newUnrecognised 7).WellFormed ∧ (Instr.newUnrecognised 15).WellFormed ∧
      (Instr.getbyte 255).WellFormed := by decide

theorem witness_DecodedWordReencodesToItself :
    decode 0x90FF = .command (.getbyte 255) ∧ decode 0x3F00 = .command (.newUnrecognised 15) := by
  decide

theorem witness_CommandWordsAreExactlyTheTableRows :
    (∃ row ∈ opcodeTable, row.accepts 0x16FF = false ∧ row.accepts 0x1600 = true) ∧
      decode 0x1600 = .command (.cfgclr .expect) :=
  ⟨⟨{ plainRow "CFGCLR" 0x1000 0xF0FF with selHi := 6 }, by simp [opcodeTable], by decide,
    by decide⟩, by decide⟩

/-- One boundary word for each cause of R77. -/
theorem witness_IllegalWordsAreRefusedAndChangeNothing :
    IllegalWord 0xA000 ∧ IllegalWord 0x1700 ∧ IllegalWord 0x2700 ∧ IllegalWord 0x0100 ∧
      IllegalWord 0x9F00 ∧ IllegalWord 0x3001 ∧ IllegalWord 0x5002 ∧ ¬ IllegalWord 0x5001 ∧
      ¬ IllegalWord 0x9000 ∧ ¬ IllegalWord 0x3F00 ∧
      ({ State.reset with inputs := [.command 0 0xA000] } : State).inputs =
        .command 0 0xA000 :: [] := by
  refine ⟨?_, ?_, ?_, ?_, ?_, ?_, ?_, ?_, ?_, ?_, rfl⟩ <;> decide +kernel

theorem witness_StepExecutesTheDecodedCommand :
    ({ State.reset with inputs := [.command 0 0x3100] } : State).inputs = .command 0 0x3100 :: [] ∧
      decode 0x3100 = .command .newLrc ∧ decodeTableWord 16 0x3100 = some .newLrc := by decide

theorem witness_PresentedCommandsRunInOrder :
    (∀ i ∈ [Instr.newLrc, .absorb 0x55, .finalize], i.WellFormed) ∧ State.reset.inputs = [] := by
  decide

/-- Port 0 and the last port of two instances. -/
theorem witness_InstancesAreIndependent :
    (State.resetWith Params.default 1).instanceAt 0 = some Block.reset ∧
      (State.resetWith Params.default 1).instanceAt 1 = some Block.reset := by decide +kernel

/-- A computation in flight, reset: both clauses. -/
theorem witness_HardwareResetClearsPhaseAndConfiguration :
    ∃ (s t : State) (after : Block), s.inputs = .hardReset 0 :: [] ∧
      s.instanceAt 0 = some blkDualFinal ∧ step s = .next t ∧ t.instanceAt 0 = some after ∧
      blkDualFinal.phase ≠ .idle ∧ after.phase = .idle :=
  ⟨{ stWith blkDualFinal with inputs := [.hardReset 0] }, _, _, rfl, rfl, rfl, rfl, by decide, rfl⟩

theorem witness_InvariantHoldsAfterReset :
    Params.default.Ok ∧ (Params.mk 1 16).Ok ∧ (Params.mk 255 64).Ok := by decide

/-- A computation in flight that meets the invariant, and its step. -/
theorem witness_EveryStepKeepsTheInvariant :
    ∃ t, State.Inv { stWith blkCrct3 with inputs := [.command 0 0x40EC] } ∧
      step { stWith blkCrct3 with inputs := [.command 0 0x40EC] } = .next t :=
  ⟨_, inv_crct3, rfl⟩

/-- A command that fails, and a word that is no command. -/
theorem witness_FailedCommandChangesNothing :
    (∃ t r, exec .newDual State.reset = .next t ∧ t.resp = some r ∧ r.status ≠ .ok) ∧
      ∃ t r, runWord 0xA000 State.reset = .next t ∧ t.resp = some r ∧ r.status ≠ .ok :=
  ⟨⟨_, _, rfl, rfl, by decide⟩, ⟨_, _, rfl, rfl, by decide⟩⟩

/-- An illegal word for the second clause. -/
theorem witness_LifecycleTableHolds : decode 0xA000 = .illegal .reservedOp := by decide

theorem witness_NopAnswersOkAndChangesNothing :
    ((0x0001 : Word).toNat / 4096 = 0 ∧ (0x0001 : Word) ≠ 0x0000) ∧
      (0x0FFF : Word).toNat / 4096 = 0 ∧ (0x0FFF : Word) ≠ 0x0000 := by decide

theorem witness_CfgclrClearsOneRegister :
    ((0x1001 : Word).toNat / 4096 = 1 ∧ (0x1001 : Word).toNat % 256 ≠ 0) ∧
      (0x1700 : Word).toNat / 4096 = 1 ∧ 7 ≤ (0x1700 : Word).toNat / 256 % 16 := by decide

theorem witness_CfgshShiftsOneByteIn :
    (0x2700 : Word).toNat / 4096 = 2 ∧ 7 ≤ (0x2700 : Word).toNat / 256 % 16 ∧
      CfgReg.width ≠ .expect := by decide

theorem witness_LoadcfgLoadsTheValue :
    0x1FFFFFFFFFFFFFFFF < 2 ^ cfgBits State.reset.par .poly ∧
      255 < 2 ^ cfgBits State.reset.par .width := by decide +kernel

theorem witness_OnlyNewChangesTheActiveConfiguration :
    (∃ t, exec .newLrc State.reset = .next t ∧ t.blk.act ≠ State.reset.blk.act) ∧
      ∃ t, exec (.cfgsh .width 8) State.reset = .next t ∧ t.blk.cfg ≠ State.reset.blk.cfg :=
  ⟨⟨_, rfl, by decide⟩, ⟨_, rfl, by decide⟩⟩

/-- The smallest and the largest prime, and two refused moduli. -/
theorem witness_NewDualAcceptsExactlyThePrimes :
    Nat.Prime (staged { Cfg.reset with modulus := 2 }).blk.cfg.modulus.toNat ∧
      Nat.Prime (staged { Cfg.reset with modulus := 251 }).blk.cfg.modulus.toNat ∧
      ¬ Nat.Prime (staged { Cfg.reset with modulus := 255 }).blk.cfg.modulus.toNat ∧
      ¬ Nat.Prime (staged { Cfg.reset with modulus := 1 }).blk.cfg.modulus.toNat := by
  refine ⟨?_, ?_, ?_, ?_⟩ <;> simp [staged, stWith] <;> norm_num

/-- Degree 1 and degree KMAX, and a configuration that is refused. -/
theorem witness_NewCrcLatchesTheStagedPolynomial :
    (staged { Cfg.reset with width := 1, poly := 0b10 }).blk.cfg.StagedPolyOk Params.default ∧
      (staged { Cfg.reset with width := 64, poly := 2 ^ 65 - 1 }).blk.cfg.StagedPolyOk
        Params.default ∧
      ¬ (staged { Cfg.reset with width := 65, poly := 1 }).blk.cfg.StagedPolyOk
        Params.default := by decide +kernel

theorem witness_NewCrctBuildsTableAndSeed :
    (staged cfgCrc8).blk.cfg.StagedPolyOk (staged cfgCrc8).par ∧
      ¬ State.reset.blk.cfg.StagedPolyOk State.reset.par := by decide +kernel

theorem witness_AbsorbUpdatesParityAndLrc :
    ∃ s u : State, s.blk.phase = .active ∧ s.blk.act.alg = .parity ∧ u.blk.phase = .active ∧
      u.blk.act.alg = .lrc :=
  ⟨stWith (blkWith (actOf .parity) .active), stWith (blkWith (actOf .lrc) .active), rfl, rfl, rfl,
    rfl⟩

theorem witness_AbsorbAddsIntoTheAccumulator :
    ∃ s u : State, s.blk.phase = .active ∧ s.blk.act.alg = .add ∧ u.blk.phase = .active ∧
      u.blk.act.alg = .add1c :=
  ⟨stWith (blkWith (actOf .add) .active), stWith (blkWith (actOf .add1c) .active), rfl, rfl, rfl,
    rfl⟩

theorem witness_AbsorbUpdatesTheDualAccumulators :
    ∃ s : State, s.blk.phase = .active ∧ s.blk.act.alg = .dual ∧ 0 < s.blk.act.m.toNat :=
  ⟨stWith (blkWith actDual .active), rfl, rfl, by decide⟩

theorem witness_AbsorbIsEightAbsorbbits :
    ∃ s u : State, s.blk.phase = .active ∧ s.blk.act.alg = .crc ∧ u.blk.phase = .active ∧
      u.blk.act.alg = .parity ∧ msbFirst 0x73 ∈ [msbFirst 0x73, lsbFirst 0x73] :=
  ⟨stWith (blkWith (actCrc8 .crc 0) .active), stWith (blkWith (actOf .parity) .active), rfl, rfl,
    rfl, rfl, by decide⟩

theorem witness_AbsorbbitConsumesOneBit :
    ∃ s u : State, s.blk.phase = .active ∧ s.blk.act.alg = .crc ∧ u.blk.phase = .active ∧
      u.blk.act.alg = .parity :=
  ⟨stWith (blkWith (actCrc3 .crc) .active), stWith (blkWith (actOf .parity) .active), rfl, rfl,
    rfl, rfl⟩

/-- Degree 8 and degree 7 fall on the two sides of the case split. -/
theorem witness_AbsorbStepsTheTableDivider :
    ∃ s u : State, s.blk.phase = .active ∧ s.blk.act.alg = .crct ∧ 8 ≤ s.blk.act.k.toNat ∧
      u.blk.phase = .active ∧ u.blk.act.alg = .crct ∧ u.blk.act.k.toNat < 8 :=
  ⟨stWith blkCrct8, stWith { blkCrct8 with act := { blkCrct8.act with k := 7 } }, rfl, rfl,
    by decide, rfl, rfl, by decide⟩

theorem witness_AbsorbDividesByTheGenerator :
    (State.Inv (stWith (blkWith (actCrc3 .crc) .active)) ∧
      (blkWith (actCrc3 .crc) .active).phase = .active ∧
      (blkWith (actCrc3 .crc) .active).act.alg = .crc) ∧
    State.Inv (stWith blkCrct3) ∧ blkCrct3.phase = .active ∧ blkCrct3.act.alg = .crct :=
  ⟨⟨inv_crc3, rfl, rfl⟩, inv_crct3, rfl, rfl⟩

/-- One state for each clause. -/
theorem witness_RefusedAbsorbsChangeNothing :
    State.reset.blk.phase = .idle ∧
      ((blkWith (actOf .lrc) .final).act.alg ≠ .parity ∧
        (blkWith (actOf .lrc) .final).act.alg ≠ .crc) ∧
      (blkWith (actOf .parity) .final).phase = .final ∧
      (blkWith (actOf .parity) .final).act.alg = .parity := by decide

/-- A state that meets the invariant for every algorithm, and one in `IDLE`. -/
theorem witness_FinalizeAnswersTheChecksumValue :
    (∀ alg ∈ [Alg.parity, .lrc, .add, .add1c],
      State.Inv (stWith (blkWith (actOf alg) .active)) ∧
        (blkWith (actOf alg) .active).phase = .active) ∧
      State.Inv (stWith (blkWith actDual .active)) ∧
      State.Inv (stWith (blkWith (actCrc3 .crc) .active)) ∧ State.Inv (stWith blkCrct3) ∧
      State.reset.blk.phase = .idle :=
  ⟨fun alg h => ⟨inv_plain alg h, rfl⟩, inv_dual, inv_crc3, inv_crct3, rfl⟩

theorem witness_FinalizationIsIdempotent :
    (stWith blkDualFinal).blk.phase = .final ∧
      ∀ i ∈ [Instr.finalize, .verify, .getbyte 0],
        i = .finalize ∨ i = .verify ∨ ∃ n, i = .getbyte n :=
  ⟨rfl, by simp⟩

theorem witness_VerifyComparesAllBits :
    (stWith blkDualFinal).blk.phase ≠ .idle ∧ State.reset.blk.phase = .idle ∧
      (0x8100 : Word).toNat / 4096 = 8 ∧ (0x8100 : Word) ≠ 0x8000 := by decide

/-- NB = 2: the last index, the first index past it, and a phase that is not `FINAL`. -/
theorem witness_GetbyteAnswersOneCheckSequenceByte :
    (stWith blkDualFinal).blk.phase = .final ∧ (stWith blkDualFinal).blk.act.alg = .dual ∧
      (1 : Byte).toNat < 2 ∧ 2 ≤ (2 : Byte).toNat ∧ State.reset.blk.phase ≠ .final ∧
      (0x9100 : Word).toNat / 4096 = 9 ∧ (0x9100 : Word).toNat / 256 % 16 ≠ 0 := by decide

theorem witness_CheckSequenceSpellsTheResult :
    State.Inv (stWith blkDualFinal) ∧ (stWith blkDualFinal).blk.phase = .final :=
  ⟨inv_dualFinal, rfl⟩

theorem witness_ResetReinitialisesTheAccumulators :
    State.Inv State.reset ∧ State.reset.blk.phase = .idle ∧ State.Inv (stWith blkDualFinal) ∧
      State.Inv (stWith (blkWith (actCrc3 .crc) .active)) ∧ State.Inv (stWith blkCrct3) ∧
      (∀ alg ∈ [Alg.parity, .lrc, .add, .add1c],
        State.Inv (stWith (blkWith (actOf alg) .active))) ∧
      (0x7001 : Word).toNat / 4096 = 7 ∧ (0x7001 : Word) ≠ 0x7000 :=
  ⟨inv_reset, rfl, inv_dualFinal, inv_crc3, inv_crct3, inv_plain, by decide, by decide⟩

theorem witness_ResetRestoresTheFreshState :
    ∃ t t', exec (Instr.newOf .lrc) State.reset = .next t ∧ t.resp = some ⟨.ok, 0⟩ ∧
      (∀ i ∈ [Instr.absorb 0x55, .cfgsh .width 8, .finalize], ∀ other, i ≠ Instr.newOf other) ∧
      execAll [Instr.absorb 0x55, .cfgsh .width 8, .finalize] t = .next t' :=
  ⟨_, _, rfl, rfl, by
    intro i hi other
    cases other <;> revert i <;> decide, rfl⟩

/-- The narrowest accumulator, the default, and an algorithm for each of the laws. -/
theorem witness_AddValueIsSumModulo256 :
    Params.default.Ok ∧ (Params.mk 64 16).Ok ∧ (blkWith (actOf .add) .active).act.alg = .add := by
  decide

theorem witness_Add1cValueIsFoldedSum :
    (Params.mk 64 16).Ok ∧ (blkWith (actOf .add1c) .active).act.alg = .add1c := by decide

theorem witness_DualAccumulatorsInClosedForm :
    (blkWith actDual .active).act.alg = .dual ∧
      isPrime8 (blkWith actDual .active).act.m = true := by decide

theorem witness_LrcLanesAreIndependentParities :
    (blkWith (actOf .lrc) .active).act.alg = .lrc ∧
      (blkWith (actOf .parity) .active).act.alg = .parity ∧ 7 < 8 := by decide

theorem witness_ParityDetectsExactlyOddWeight :
    (blkWith (actOf .parity) .active).act.alg = .parity ∧
      [0x73, 0x74].length = ([0x01, 0x00] : List Byte).length := by decide

theorem witness_ByteOrderDoesNotMatter :
    Params.default.Ok ∧ ([0x61, 0x63] : List Byte).Perm [0x63, 0x61] ∧
      (blkWith (actOf .add1c) .active).act.alg ∈ [Alg.parity, .lrc, .add, .add1c] :=
  ⟨by decide, List.Perm.swap .., by decide⟩

theorem witness_DualDetectsExchangedNeighbours :
    (blkWith actDual .active).act.alg = .dual ∧
      isPrime8 (blkWith actDual .active).act.m = true := by decide

theorem witness_AdditionDetectsEverySingleBitFlip :
    Params.default.Ok ∧ 7 < 8 ∧ ((blkWith (actOf .add) .active).act.alg = .add ∨
      (blkWith (actOf .add) .active).act.alg = .add1c) := by decide

/-- A compensating pair at bit 1, a same-direction pair at bit 7, and two positions of one byte. -/
theorem witness_AdditionTwoBitFlips :
    Params.default.Ok ∧ (0x73 : Byte).getLsbD 1 ≠ (0x61 : Byte).getLsbD 1 ∧
      (0x73 : Byte).getLsbD 7 = (0x74 : Byte).getLsbD 7 ∧ 0 < 8 ∧ 7 < 8 ∧ 0 ≠ 7 ∧
      (blkWith (actOf .add) .active).act.alg = .add ∧
      (blkWith (actOf .add1c) .active).act.alg = .add1c := by decide

theorem witness_SerialRegisterIsTheRemainder :
    1 ≤ 3 ∧ 2 ^ 3 ≤ 0b1011 ∧ 0b1011 < 2 ^ (3 + 1) ∧ 0b111 < 2 ^ 3 := by decide

/-- x^3 mod (x^3 + x + 1) is x + 1: the byte 0x08 under `CRC`, the byte 0x01 under `CRCT`; and the remainder
100 of R162, which the register 101 leaves. -/
theorem witness_MachineComputesTheOnlyRemainder :
    (State.Inv (stWith (blkWith (actCrc3 .crc) .active)) ∧
      IsGf2Rem 3 0b1011 (0 <<< 8 ^^^ bitsToNat (consumedBits (actCrc3 .crc) 0x08)) 0b011) ∧
    (State.Inv (stWith blkCrct3) ∧
      IsGf2Rem 3 0b1011 (0 <<< 8 ^^^ bitsToNat (consumedBits (actCrc3 .crct) 0x01) <<< 3) 0b011) ∧
    State.Inv (stWith { blkWith (actCrc3 .crc) .active with r := 0b101 }) ∧
      IsGf2Rem 3 0b1011 (0b101 <<< 3) 0b100 :=
  ⟨⟨inv_crc3, by decide, 1, by decide +kernel⟩, ⟨inv_crct3, by decide, 1, by decide +kernel⟩,
    inv_stWith (by decide +kernel) (by decide) (by decide +kernel) (by decide) (by decide),
    by decide, 4, by decide +kernel⟩

theorem witness_TableDividerEqualsSerialDivider :
    (staged cfgCrc8).blk.cfg.StagedPolyOk (staged cfgCrc8).par := by decide +kernel

/-- A burst of the full k bits. -/
theorem witness_CrcDetectsEveryShortBurst :
    State.Inv (stWith (blkWith (actCrc3 .crc) .active)) ∧
      (blkWith (actCrc3 .crc) .active).phase = .active ∧
      (blkWith (actCrc3 .crc) .active).act.alg = .crc ∧
      (blkWith (actCrc3 .crc) .active).act.g.testBit 0 = true ∧
      [true, false, true].length = [false, false, false].length ∧
      [true, false, true].length ≤ (blkWith (actCrc3 .crc) .active).act.k.toNat ∧
      [true, false, true] ≠ [false, false, false] :=
  ⟨inv_crc3, rfl, rfl, by decide, rfl, by decide, by decide⟩

/-- The state R162 starts from. -/
theorem witness_CrcKnownAnswer :
    ∃ s : State, s.blk.phase = .active ∧ s.blk.act.alg = .crc ∧ s.blk.act.k = 3 ∧
      s.blk.act.g = 0b1011 ∧ s.blk.act.refout = false ∧ s.blk.act.xorout = 0 ∧ s.blk.r = 0 :=
  ⟨stWith (blkWith (actCrc3 .crc) .active), rfl, rfl, rfl, rfl, rfl, rfl, rfl⟩

theorem witness_ChecksumDependsOnConfigurationAndDataOnly :
    blkCrct3.act = { blkCrct3 with r := 5, phase := .final, p := true }.act ∧
      (blkCrct3.act.alg = .crct →
        blkCrct3.t = { blkCrct3 with r := 5, phase := .final, p := true }.t) := ⟨rfl, fun _ => rfl⟩

theorem witness_ComputeAnswersTheChecksum :
    (staged cfgCrc8).blk.cfg.StagedOk (staged cfgCrc8).par .crc ∧
      State.reset.blk.cfg.StagedOk State.reset.par .lrc ∧
      ¬ State.reset.blk.cfg.StagedOk State.reset.par .crct ∧ 7 ≤ (7 : BitVec 4).toNat ∧
      7 ≤ (15 : BitVec 4).toNat := by
  refine ⟨?_, trivial, ?_, by decide, by decide⟩ <;> simp only [Cfg.StagedOk] <;> decide +kernel

theorem witness_VerificationRoundTrip :
    State.reset.blk.cfg.StagedOk State.reset.par .lrc ∧ 2 ^ 64 - 1 < 2 ^ State.reset.par.ew ∧
      ¬ State.reset.blk.cfg.StagedOk State.reset.par .crc ∧ 7 ≤ (7 : BitVec 4).toNat := by
  refine ⟨trivial, by decide +kernel, ?_, by decide⟩
  simp only [Cfg.StagedOk]
  decide +kernel

theorem witness_ChunkBoundariesDoNotMatter :
    (blkWith (actOf .lrc) .active).phase = .active ∧
      ∀ i ∈ [Instr.absorb 0x73, .nop, .cfgsh .expect 0, .newUnrecognised 9, .absorb 0x74],
        leavesComputation i = true ∨ isAbsorb i = true := by decide

/-- Two just-reset instances that differ in everything unspecified. -/
theorem witness_UnspecifiedStateIsUnobservable :
    ∃ s s' : State, s.par = s'.par ∧ s.blk.phase = .idle ∧ s'.blk.phase = .idle ∧
      s.blk.cfg = s'.blk.cfg ∧ s.blk.act ≠ s'.blk.act ∧ s.blk.result ≠ s'.blk.result :=
  ⟨State.reset, stWith { blkDualFinal with phase := .idle }, rfl, rfl, rfl, rfl, by decide,
    by decide⟩

end Sys2Proof.Tests
end

section
/-! PROOFS. The end-around-carry fold `fold8` (`00_scope.md` R17) in closed form. The sum of the low byte and
the rest of a number is congruent to the number modulo 255, is 0 for 0 alone, and is smaller than a number
from 256 up; so the loop ends at the representative of its argument modulo 255 in 1 .. 255 (0 only for 0). -/

namespace Sys2Proof.Machine

/-- The representative of v modulo 255 in 1 .. 255, with 0 for 0 itself. -/
def residue255 (v : Nat) : Nat := if v = 0 then 0 else (v - 1) % 255 + 1

theorem residue255_of_lt {v : Nat} (hv : v < 256) : residue255 v = v := by
  unfold residue255
  split <;> omega

/-- An iteration of `fold8` keeps the residue: 256 * (v / 256) and v / 256 are congruent modulo 255. -/
theorem residue255_foldStep (v : Nat) : residue255 (v % 256 + v >>> 8) = residue255 v := by
  have hshift : v >>> 8 = v / 256 := Nat.shiftRight_eq_div_pow v 8
  unfold residue255
  rw [hshift]
  split <;> split <;> omega

theorem foldStep_lt {v : Nat} (hv : 256 ≤ v) : v % 256 + v >>> 8 < v := by
  have hshift : v >>> 8 = v / 256 := Nat.shiftRight_eq_div_pow v 8
  omega

/-- The bound on the iterations is never the reason the loop ends when it is at least v. -/
theorem foldLoop_eq_residue255 {fuel v : Nat} (hfuel : v ≤ fuel) :
    foldLoop fuel v = residue255 v := by
  induction fuel generalizing v with
  | zero =>
    have hlt : v < 256 := by omega
    exact (residue255_of_lt hlt).symm
  | succ fuel ih =>
    rw [foldLoop]
    split
    case isTrue hlt => exact (residue255_of_lt hlt).symm
    case isFalse hge =>
      have hstep : v % 256 + v >>> 8 < v := foldStep_lt (by omega)
      rw [ih (by omega), residue255_foldStep]

theorem fold8_eq_residue255 (v : Nat) : fold8 v = residue255 v :=
  foldLoop_eq_residue255 le_rfl

/-- Settles O41, by induction on the loop's bound: each iteration keeps the residue modulo 255. -/
theorem foldIsResidueModulo255 : Obligations.FoldIsResidueModulo255 :=
  fold8_eq_residue255

end Sys2Proof.Machine
end

section
/-! PROOFS. One inversion lemma for commands: how a command that answers `OK` changes the connected block,
and with which value (`46_pipeline.md`, R172 to R183). Every statement about all commands is a case split over
`Answers`. -/

namespace Sys2Proof.Machine

/-- `Answers s i blk v`: in state `s` the command `i` answers (`OK`, v) and leaves the connected
block as `blk`. -/
inductive Answers (s : State) : Instr → Block → Nat → Prop where
  | nop : Answers s .nop s.blk 0
  | cfgclr (reg : CfgReg) :
      Answers s (.cfgclr reg) { s.blk with cfg := s.blk.cfg.put reg 0 } 0
  | cfgsh (reg : CfgReg) (imm : Byte) :
      Answers s (.cfgsh reg imm)
        { s.blk with cfg := s.blk.cfg.put reg (s.blk.cfg.shiftIn s.par reg imm) } 0
  | newParity :
      Answers s .newParity
        { s.blk with act := { s.blk.act with alg := .parity }, p := false, phase := .active } 0
  | newLrc :
      Answers s .newLrc
        { s.blk with act := { s.blk.act with alg := .lrc }, l := 0, phase := .active } 0
  | newAdd :
      Answers s .newAdd
        { s.blk with act := { s.blk.act with alg := .add }, acc := 0, phase := .active } 0
  | newAdd1c :
      Answers s .newAdd1c
        { s.blk with act := { s.blk.act with alg := .add1c }, acc := 0, phase := .active } 0
  | newDual (hvalid : s.blk.cfg.dualValid = true) :
      Answers s .newDual
        { s.blk with
          act := { s.blk.act with alg := .dual, m := s.blk.cfg.modulus }
          a := 1
          b := 0
          phase := .active } 0
  | newCrc (hvalid : s.blk.cfg.crcValid s.par = true) :
      Answers s .newCrc
        { s.blk with
          act := s.blk.cfg.crcAct .crc s.blk.act
          r := s.blk.cfg.init
          phase := .active } 0
  | newCrct (hvalid : s.blk.cfg.crcValid s.par = true) (act : Act)
      (hact : act = s.blk.cfg.crcAct .crct s.blk.act) :
      Answers s .newCrct
        { s.blk with
          act := act
          t := crcTable act.k.toNat act.poly
          r := convertedSeed act
          phase := .active } 0
  | absorb (imm : Byte) (hphase : s.blk.phase = .active) :
      Answers s (.absorb imm) (s.blk.absorbByte s.par imm) 0
  | absorbbit (bit : Bool) (blk : Block) (hphase : s.blk.phase = .active)
      (hbit : s.blk.absorbBit? bit = some blk) : Answers s (.absorbbit bit) blk 0
  | finalize (hphase : s.blk.phase ≠ .idle) :
      Answers s .finalize s.blk.finalized s.blk.finalized.result
  | reset (hphase : s.blk.phase ≠ .idle) : Answers s .reset { s.blk.init with phase := .active } 0
  | verify (hphase : s.blk.phase ≠ .idle) :
      Answers s .verify s.blk.finalized
        (if s.blk.finalized.result = s.blk.cfg.expect then 1 else 0)
  | getbyte (imm : Byte) (hphase : s.blk.phase = .final) (himm : imm.toNat < s.blk.act.nb) :
      Answers s (.getbyte imm) s.blk (s.blk.ser imm.toNat)

/-- An outcome of the command `i`: a condition is raised, or the command answers as `Answers` says. -/
def RaisesOrAnswers (s : State) (i : Instr) (o : Result) : Prop :=
  (∃ c, o = s.raise c) ∨ ∃ blk v, o = s.answer blk v ∧ Answers s i blk v

theorem RaisesOrAnswers.raise (s : State) (i : Instr) (c : Condition) :
    RaisesOrAnswers s i (s.raise c) := .inl ⟨c, rfl⟩

theorem RaisesOrAnswers.answer {s : State} {i : Instr} {blk : Block} {v : Nat}
    (h : Answers s i blk v) : RaisesOrAnswers s i (s.answer blk v) := .inr ⟨blk, v, rfl, h⟩

/-- What a command can do, in every state. -/
theorem exec_raisesOrAnswers (i : Instr) (s : State) : RaisesOrAnswers s i (exec i s) := by
  cases i with
  | nop => exact .answer .nop
  | cfgclr reg => exact .answer (.cfgclr reg)
  | cfgsh reg imm => exact .answer (.cfgsh reg imm)
  | newParity => exact .answer .newParity
  | newLrc => exact .answer .newLrc
  | newAdd => exact .answer .newAdd
  | newAdd1c => exact .answer .newAdd1c
  | newDual =>
    simp only [exec, execNewDual]
    split
    case isTrue hvalid => exact .answer (.newDual hvalid)
    case isFalse => exact .raise ..
  | newCrc =>
    simp only [exec, execNewCrc]
    split
    case isTrue hvalid => exact .answer (.newCrc hvalid)
    case isFalse => exact .raise ..
  | newCrct =>
    simp only [exec, execNewCrct]
    split
    case isTrue hvalid => exact .answer (.newCrct hvalid _ rfl)
    case isFalse => exact .raise ..
  | newUnrecognised id => exact .raise ..
  | absorb imm =>
    simp only [exec, execAbsorb]
    cases hphase : s.blk.phase with
    | idle => exact .raise ..
    | active => exact .answer (.absorb imm hphase)
    | final => exact .raise ..
  | absorbbit bit =>
    simp only [exec, execAbsorbbit]
    cases hphase : s.blk.phase <;> cases hbit : s.blk.absorbBit? bit
    case active.some blk => exact .answer (.absorbbit bit blk hphase hbit)
    all_goals exact .raise ..
  | finalize =>
    simp only [exec, execFinalize]
    cases hphase : s.blk.phase with
    | idle => exact .raise ..
    | active => exact .answer (.finalize (by simp [hphase]))
    | final => exact .answer (.finalize (by simp [hphase]))
  | reset =>
    simp only [exec, execReset]
    cases hphase : s.blk.phase with
    | idle => exact .raise ..
    | active => exact .answer (.reset (by simp [hphase]))
    | final => exact .answer (.reset (by simp [hphase]))
  | verify =>
    simp only [exec, execVerify]
    cases hphase : s.blk.phase with
    | idle => exact .raise ..
    | active => exact .answer (.verify (by simp [hphase]))
    | final => exact .answer (.verify (by simp [hphase]))
  | getbyte imm =>
    simp only [exec, execGetbyte]
    cases hphase : s.blk.phase with
    | idle => exact .raise ..
    | active => exact .raise ..
    | final =>
      simp only
      split
      case isTrue => exact .raise ..
      case isFalse himm => exact .answer (.getbyte imm hphase (Nat.lt_of_not_le himm))

end Sys2Proof.Machine
end

section
/-! PROOFS. What registers hold in a computation that is not `IDLE`: one rule per accumulator write, and from
them that `init`, the absorbing functions and `value()` keep every register within its width
(R20, R24, R25, R130). -/

namespace Sys2Proof.Machine

/-! ### Widths -/

/-- The end-around carry of `ADD1C` leaves a value of the accumulator's width (R115). -/
theorem endAroundCarry_lt {w x y : Nat} (hx : x < 2 ^ w) (hy : y < 2 ^ w) :
    trunc w (x + y) + (x + y) >>> w < 2 ^ w := by
  have hdecomp : 2 ^ w * ((x + y) / 2 ^ w) + (x + y) % 2 ^ w = x + y := Nat.div_add_mod _ _
  have hlow : (x + y) % 2 ^ w < 2 ^ w := Nat.mod_lt _ (Nat.two_pow_pos w)
  have hcarry : (x + y) / 2 ^ w < 2 := Nat.div_lt_of_lt_mul (by omega)
  rw [trunc, Nat.shiftRight_eq_div_pow]
  obtain h | h := Nat.le_one_iff_eq_zero_or_eq_one.1 (Nat.le_of_lt_succ hcarry)
  · rw [h]; exact hlow
  · rw [h] at hdecomp ⊢; omega

theorem residue255_lt (v : Nat) : residue255 v < 256 := by
  unfold residue255
  split <;> omega

theorem byte_lt_two_pow_accw {p : Params} (hp : p.Ok) (d : Byte) : d.toNat < 2 ^ p.accw := by
  obtain ⟨-, -, -, haccw⟩ := hp
  exact d.isLt.trans_le (Nat.pow_le_pow_right (by decide) (by omega))

theorem two_pow_le_two_pow_ew {p : Params} {n : Nat} (h : n ≤ 16 ∨ n ≤ p.kmax) :
    2 ^ n ≤ 2 ^ p.ew :=
  Nat.pow_le_pow_right (by decide) (le_max_iff.2 h.symm)

/-- A remainder modulo a nonzero byte is a smaller byte. -/
theorem byteMod_lt {m : Byte} (hm : 0 < m.toNat) (v : Nat) :
    (BitVec.ofNat 8 (v % m.toNat)).toNat < m.toNat := by
  rw [BitVec.toNat_ofNat]
  exact (Nat.mod_le _ _).trans_lt (Nat.mod_lt _ hm)

theorem crcOutput_lt {act : Act} {rem : Nat} (hxorout : act.xorout < 2 ^ act.k.toNat)
    (hrem : rem < 2 ^ act.k.toNat) : crcOutput act rem < 2 ^ act.k.toNat := by
  refine Nat.xor_lt_two_pow ?_ hxorout
  split
  · exact revBits_lt _ _
  · exact hrem

theorem convertedSeed_lt {act : Act} (hinit : act.init < 2 ^ act.k.toNat) :
    convertedSeed act < 2 ^ act.k.toNat :=
  serialPad_lt act.poly_lt hinit _

/-- A read of the table, past its end included, has k bits. -/
theorem crcTable_getD_lt {k poly : Nat} (hpoly : poly < 2 ^ k) (i : Nat) :
    (crcTable k poly).getD i 0 < 2 ^ k := by
  by_cases hi : i < 256
  · rw [crcTable_getD hi]
    exact tableEntry_lt hpoly i
  · rw [List.getD_eq_default _ _ (by simpa using hi)]
    exact Nat.two_pow_pos k

theorem tableStep_lt {k poly : Nat} (hpoly : poly < 2 ^ k) (r : Nat) (u : Byte) :
    tableStep k (crcTable k poly) r u < 2 ^ k := by
  have hentry := crcTable_getD_lt hpoly (tableIndex k r u)
  unfold tableStep
  split
  · exact Nat.xor_lt_two_pow (trunc_lt _ _) hentry
  · exact hentry

/-! ### Blocks whose registers fit -/

section
variable {p : Params} {blk : Block}

theorem Block.Fits.cfg_lt (h : blk.Fits p) (reg : CfgReg) :
    blk.cfg.get reg < 2 ^ cfgBits p reg := by
  obtain ⟨-, -, -, -, -, -, hcfg, -, -⟩ := h
  exact hcfg reg (by cases reg <;> decide)

theorem Block.Fits.set_acc (h : blk.Fits p) {v : Nat} (hv : v < 2 ^ p.accw) :
    { blk with acc := v }.Fits p := by
  obtain ⟨-, hrest⟩ := h
  exact ⟨hv, hrest⟩

theorem Block.Fits.set_r (h : blk.Fits p) {v : Nat} (hv : v < 2 ^ p.kmax) :
    { blk with r := v }.Fits p := by
  obtain ⟨hacc, -, hrest⟩ := h
  exact ⟨hacc, hv, hrest⟩

theorem Block.Fits.set_result (h : blk.Fits p) {v : Nat} (hv : v < 2 ^ p.ew) :
    { blk with result := v }.Fits p := by
  obtain ⟨hacc, hr, -, hrest⟩ := h
  exact ⟨hacc, hr, hv, hrest⟩

theorem Block.Fits.set_act (h : blk.Fits p) {act : Act} (hg : act.g < 2 ^ (p.kmax + 1))
    (hinit : act.init < 2 ^ p.kmax) (hxorout : act.xorout < 2 ^ p.kmax) :
    { blk with act := act }.Fits p := by
  obtain ⟨hacc, hr, hresult, -, -, -, hrest⟩ := h
  exact ⟨hacc, hr, hresult, hg, hinit, hxorout, hrest⟩

theorem Block.Fits.set_alg_m (h : blk.Fits p) (alg : Alg) (m : Byte) :
    { blk with act := { blk.act with alg := alg, m := m } }.Fits p := h

theorem Block.Fits.set_t (h : blk.Fits p) {t : List Nat} (hlength : t.length = 256)
    (hentry : ∀ entry ∈ t, entry < 2 ^ p.kmax) : { blk with t := t }.Fits p := by
  obtain ⟨hacc, hr, hresult, hg, hinit, hxorout, hcfg, -, -⟩ := h
  exact ⟨hacc, hr, hresult, hg, hinit, hxorout, hcfg, hlength, hentry⟩

/-- A write of a register's width into a staging register (R30). -/
theorem Block.Fits.put (h : blk.Fits p) {reg : CfgReg} {v : Nat} (hv : v < 2 ^ cfgBits p reg) :
    { blk with cfg := blk.cfg.put reg v }.Fits p := by
  have hput (reg' : CfgReg) : (blk.cfg.put reg v).get reg' < 2 ^ cfgBits p reg' := by
    by_cases hreg : reg' = reg
    · subst hreg
      rwa [Cfg.get_put p _ _ hv]
    · rw [Cfg.get_put_of_ne _ _ hreg]
      exact h.cfg_lt reg'
  obtain ⟨hacc, hr, hresult, hg, hinit, hxorout, -, ht⟩ := h
  exact ⟨hacc, hr, hresult, hg, hinit, hxorout, fun reg' _ => hput reg', ht⟩

end

/-! ### Blocks with a computation in flight -/

/-- What `Block.Sound` asks of a block whose `PHASE` is not `IDLE`, `RESULT` apart. It does not look at
`PHASE`. -/
structure Block.Computes (p : Params) (blk : Block) : Prop where
  fits : blk.Fits p
  dual : blk.act.alg = .dual →
    isPrime8 blk.act.m = true ∧ blk.a.toNat < blk.act.m.toNat ∧ blk.b.toNat < blk.act.m.toNat
  crc : blk.act.alg = .crc ∨ blk.act.alg = .crct → blk.act.PolyOk p ∧ blk.r < 2 ^ blk.act.k.toNat
  table : blk.act.alg = .crct → blk.t = crcTable blk.act.k.toNat blk.act.poly

section
variable {p : Params} {blk : Block}

theorem Block.Sound.fits (h : blk.Sound p) : blk.Fits p := by
  obtain ⟨hfits, -⟩ := h
  exact hfits

theorem Block.Sound.computes (h : blk.Sound p) (hphase : blk.phase ≠ .idle) : blk.Computes p := by
  obtain ⟨hfits, hdual, hcrc, htable, -⟩ := h
  exact ⟨hfits, hdual hphase, hcrc hphase, htable hphase⟩

theorem Block.Fits.sound_of_idle (h : blk.Fits p) (hphase : blk.phase = .idle) : blk.Sound p :=
  ⟨h, fun hne => absurd hphase hne, fun hne => absurd hphase hne, fun hne => absurd hphase hne,
    fun hfinal => by simp [hphase] at hfinal⟩

theorem Block.Computes.sound_of_active (h : blk.Computes p) (hphase : blk.phase = .active) :
    blk.Sound p :=
  ⟨h.fits, fun _ => h.dual, fun _ => h.crc, fun _ => h.table,
    fun hfinal => by simp [hphase] at hfinal⟩

theorem Block.Computes.start (h : blk.Computes p) : { blk with phase := .active }.Sound p :=
  Block.Computes.sound_of_active ⟨h.fits, h.dual, h.crc, h.table⟩ rfl

/-- `PARITY`, `LRC`, `ADD` and `ADD1C` ask nothing but the widths. -/
theorem Block.Fits.computes (h : blk.Fits p)
    (halg : blk.act.alg ∈ [Alg.parity, .lrc, .add, .add1c]) : blk.Computes p :=
  ⟨h, fun hdual => by simp [hdual] at halg,
    fun hcrc => by rcases hcrc with hcrc | hcrc <;> simp [hcrc] at halg,
    fun hcrct => by simp [hcrct] at halg⟩

theorem Block.Computes.set_p (h : blk.Computes p) (v : Bool) : { blk with p := v }.Computes p :=
  ⟨h.fits, h.dual, h.crc, h.table⟩

theorem Block.Computes.set_l (h : blk.Computes p) (v : Byte) : { blk with l := v }.Computes p :=
  ⟨h.fits, h.dual, h.crc, h.table⟩

theorem Block.Computes.set_acc (h : blk.Computes p) {v : Nat} (hv : v < 2 ^ p.accw) :
    { blk with acc := v }.Computes p :=
  ⟨h.fits.set_acc hv, h.dual, h.crc, h.table⟩

/-- A write of both dual-modular accumulators, below the modulus (R24). -/
theorem Block.Computes.set_ab (h : blk.Computes p) {a b : Byte} (halg : blk.act.alg = .dual)
    (ha : a.toNat < blk.act.m.toNat) (hb : b.toNat < blk.act.m.toNat) :
    { blk with a := a, b := b }.Computes p :=
  ⟨h.fits, fun _ => ⟨(h.dual halg).1, ha, hb⟩, h.crc, h.table⟩

/-- A write of k bits to the register of a divider (R25). -/
theorem Block.Computes.set_r (h : blk.Computes p) {v : Nat}
    (halg : blk.act.alg = .crc ∨ blk.act.alg = .crct) (hv : v < 2 ^ blk.act.k.toNat) :
    { blk with r := v }.Computes p := by
  obtain ⟨⟨hk, hkmax, hpoly⟩, -⟩ := h.crc halg
  have hwide : v < 2 ^ p.kmax := hv.trans_le (Nat.pow_le_pow_right (by decide) hkmax)
  exact ⟨h.fits.set_r hwide, h.dual, fun _ => ⟨⟨hk, hkmax, hpoly⟩, hv⟩, h.table⟩

theorem Block.Computes.modulus_ge_two (h : blk.Computes p) (halg : blk.act.alg = .dual) :
    2 ≤ blk.act.m.toNat :=
  isPrime8_two_le (h.dual halg).1

theorem Block.Computes.r_lt (h : blk.Computes p)
    (halg : blk.act.alg = .crc ∨ blk.act.alg = .crct) : blk.r < 2 ^ blk.act.k.toNat :=
  (h.crc halg).2

theorem Block.Computes.k_le (h : blk.Computes p)
    (halg : blk.act.alg = .crc ∨ blk.act.alg = .crct) : blk.act.k.toNat ≤ p.kmax := by
  obtain ⟨⟨-, hk, -⟩, -⟩ := h.crc halg
  exact hk

theorem Block.Computes.init_lt (h : blk.Computes p)
    (halg : blk.act.alg = .crc ∨ blk.act.alg = .crct) : blk.act.init < 2 ^ blk.act.k.toNat := by
  obtain ⟨⟨-, -, -, -, hinit, -⟩, -⟩ := h.crc halg
  exact hinit

theorem Block.Computes.xorout_lt (h : blk.Computes p)
    (halg : blk.act.alg = .crc ∨ blk.act.alg = .crct) : blk.act.xorout < 2 ^ blk.act.k.toNat := by
  obtain ⟨⟨-, -, -, -, -, hxorout⟩, -⟩ := h.crc halg
  exact hxorout

/-! ### The dispatched functions of R171 -/

theorem Block.Computes.init (h : blk.Computes p) : blk.init.Computes p := by
  unfold Block.init
  cases halg : blk.act.alg with
  | parity => exact h.set_p false
  | lrc => exact h.set_l 0
  | add => exact h.set_acc (Nat.two_pow_pos _)
  | add1c => exact h.set_acc (Nat.two_pow_pos _)
  | dual =>
    have hm := h.modulus_ge_two halg
    exact h.set_ab halg (Nat.lt_of_succ_le hm) (Nat.lt_of_lt_of_le Nat.two_pos hm)
  | crc => exact h.set_r (.inl halg) (h.init_lt (.inl halg))
  | crct => exact h.set_r (.inr halg) (convertedSeed_lt (h.init_lt (.inr halg)))

theorem Block.Computes.absorbByte (hp : p.Ok) (h : blk.Computes p) (d : Byte) :
    (blk.absorbByte p d).Computes p := by
  unfold Block.absorbByte
  cases halg : blk.act.alg with
  | parity => exact h.set_p _
  | lrc => exact h.set_l _
  | add => exact h.set_acc (trunc_lt _ _)
  | add1c =>
    obtain ⟨hacc, -⟩ := h.fits
    exact h.set_acc (endAroundCarry_lt hacc (byte_lt_two_pow_accw hp d))
  | dual =>
    have hm : 0 < blk.act.m.toNat := Nat.lt_of_lt_of_le Nat.two_pos (h.modulus_ge_two halg)
    exact h.set_ab halg (byteMod_lt hm _) (byteMod_lt hm _)
  | crc =>
    exact h.set_r (.inl halg) (serialFeed_lt blk.act.poly_lt (h.r_lt (.inl halg)) _)
  | crct =>
    refine h.set_r (.inr halg) ?_
    rw [h.table halg]
    exact tableStep_lt blk.act.poly_lt _ _

theorem Block.Computes.absorbBit? (h : blk.Computes p) {c : Bool} {blk' : Block}
    (hbit : blk.absorbBit? c = some blk') : blk'.Computes p := by
  unfold Block.absorbBit? at hbit
  cases halg : blk.act.alg <;> simp only [halg] at hbit <;> cases hbit
  case parity => exact h.set_p _
  case crc => exact h.set_r (.inl halg) (serialStep_lt blk.act.poly_lt _ _)

/-- The ChecksumValue has `OUTW` bits (R43). -/
theorem Block.Computes.value_lt (h : blk.Computes p) : blk.value < 2 ^ blk.act.outw := by
  unfold Block.value Act.outw
  cases halg : blk.act.alg with
  | parity => exact Bool.toNat_lt blk.p
  | lrc => exact blk.l.isLt
  | add => exact trunc_lt 8 _
  | add1c => exact (fold8_eq_residue255 blk.acc).trans_lt (residue255_lt _)
  | dual => exact (blk.b ++ blk.a).isLt
  | crc =>
    exact crcOutput_lt (h.xorout_lt (.inl halg))
      (serialPad_lt blk.act.poly_lt (h.r_lt (.inl halg)) _)
  | crct => exact crcOutput_lt (h.xorout_lt (.inr halg)) (h.r_lt (.inr halg))

/-- `OUTW` is at most `EW` (R9, R43). -/
theorem Block.Computes.two_pow_outw_le (h : blk.Computes p) : 2 ^ blk.act.outw ≤ 2 ^ p.ew := by
  apply two_pow_le_two_pow_ew
  unfold Act.outw
  cases halg : blk.act.alg with
  | parity => exact .inl (show 1 ≤ 16 by decide)
  | lrc | add | add1c => exact .inl (show 8 ≤ 16 by decide)
  | dual => exact .inl (show 16 ≤ 16 by decide)
  | crc => exact .inr (h.k_le (.inl halg))
  | crct => exact .inr (h.k_le (.inr halg))

end

end Sys2Proof.Machine
end

section
/-! PROOFS. The invariant: it holds at reset, every command answers with a sound block and a sound response,
and connecting a port and the hardware reset keep it. -/

namespace Sys2Proof.Machine

/-! ### The configurations `NEW` latches -/

section
variable {p : Params} {blk : Block}

/-- A staged Polynomial that none of the conditions of R142 rules out is a legal active one (R38). -/
theorem Cfg.crcAct_polyOk {c : Cfg} (hvalid : c.crcValid p = true) (alg : Alg) (act : Act) :
    (c.crcAct alg act).PolyOk p := by
  simp only [Cfg.crcValid, Bool.and_eq_true, decide_eq_true_eq] at hvalid
  obtain ⟨⟨⟨⟨⟨⟨hk, hkmax⟩, -⟩, hpoly⟩, hinit⟩, hxorout⟩, -⟩ := hvalid
  have hlead : 1 <<< c.width.toNat = 2 ^ c.width.toNat := Nat.one_shiftLeft _
  have hlead_lt : 1 <<< c.width.toNat < 2 ^ (c.width.toNat + 1) := by
    rw [hlead]; exact Nat.pow_lt_pow_succ (by decide)
  refine ⟨Nat.pos_of_ne_zero hk, hkmax, ?_, Nat.or_lt_two_pow hpoly hlead_lt, hinit, hxorout⟩
  exact hlead.symm.trans_le Nat.right_le_or

theorem Block.Fits.set_poly (h : blk.Fits p) {act : Act} (hact : act.PolyOk p) :
    { blk with act := act }.Fits p := by
  obtain ⟨-, hk, -, hg, hinit, hxorout⟩ := hact
  have hwide : 2 ^ act.k.toNat ≤ 2 ^ p.kmax := Nat.pow_le_pow_right (by decide) hk
  have hwide' : 2 ^ (act.k.toNat + 1) ≤ 2 ^ (p.kmax + 1) :=
    Nat.pow_le_pow_right (by decide) (Nat.succ_le_succ hk)
  exact h.set_act (hg.trans_le hwide') (hinit.trans_le hwide) (hxorout.trans_le hwide)

/-- The state `NEW.DUAL` creates (R129). -/
theorem Block.Fits.newDual_computes (h : blk.Fits p) {m : Byte} (hm : isPrime8 m = true) :
    { blk with act := { blk.act with alg := .dual, m := m }, a := 1, b := 0 }.Computes p where
  fits := h
  dual _ := ⟨hm, isPrime8_two_le hm, Nat.lt_of_lt_of_le Nat.two_pos (isPrime8_two_le hm)⟩
  crc halg := by simp at halg
  table halg := by simp at halg

/-- The state `NEW.CRC` creates (R150). -/
theorem Block.Fits.newCrc_computes (h : blk.Fits p) {act : Act} (halg : act.alg = .crc)
    (hact : act.PolyOk p) : { blk with act := act, r := act.init }.Computes p := by
  obtain ⟨-, hk, -, -, hinit, -⟩ := id hact
  have hr : act.init < 2 ^ p.kmax := hinit.trans_le (Nat.pow_le_pow_right (by decide) hk)
  exact
    { fits := (h.set_poly hact).set_r hr
      dual := fun hdual => by simp [halg] at hdual
      crc := fun _ => ⟨hact, hinit⟩
      table := fun hcrct => by simp [halg] at hcrct }

/-- The state `NEW.CRCT` creates (R157). -/
theorem Block.Fits.newCrct_computes (h : blk.Fits p) {act : Act} (halg : act.alg = .crct)
    (hact : act.PolyOk p) :
    { blk with
      act := act
      t := crcTable act.k.toNat act.poly
      r := convertedSeed act }.Computes p := by
  obtain ⟨-, hk, -, -, hinit, -⟩ := id hact
  have hwide : 2 ^ act.k.toNat ≤ 2 ^ p.kmax := Nat.pow_le_pow_right (by decide) hk
  have hseed : convertedSeed act < 2 ^ act.k.toNat := convertedSeed_lt hinit
  have htable : ∀ entry ∈ crcTable act.k.toNat act.poly, entry < 2 ^ p.kmax :=
    fun _ hentry => (mem_crcTable_lt act.poly_lt hentry).trans_le hwide
  exact
    { fits := ((h.set_poly hact).set_t (crcTable_length _ _) htable).set_r (hseed.trans_le hwide)
      dual := fun hdual => by simp [halg] at hdual
      crc := fun _ => ⟨hact, hseed⟩
      table := fun _ => rfl }

/-! ### Sound blocks -/

/-- `CFG` may change under a finished computation: `RESULT` and `value()` do not look at it (R44). -/
theorem Block.Sound.set_cfg (h : blk.Sound p) {cfg : Cfg}
    (hfits : { blk with cfg := cfg }.Fits p) : { blk with cfg := cfg }.Sound p := by
  obtain ⟨-, hdual, hcrc, htable, hfinal⟩ := h
  have hvalue : { blk with cfg := cfg }.value = blk.value :=
    Block.value_congr rfl rfl rfl rfl rfl rfl rfl
  exact ⟨hfits, hdual, hcrc, htable, fun hphase => hvalue ▸ hfinal hphase⟩

/-- Finalizing writes a `RESULT` that is the value of the accumulators (R26, R179). -/
theorem Block.Sound.finalized (h : blk.Sound p) (hphase : blk.phase ≠ .idle) :
    blk.finalized.Sound p := by
  have hcomputes := h.computes hphase
  cases hcase : blk.phase with
  | idle => exact absurd hcase hphase
  | final => rwa [Block.finalized_of_final hcase]
  | active =>
    have hlt := hcomputes.value_lt
    have hvalue : { blk with result := blk.value, phase := .final }.value = blk.value :=
      Block.value_congr rfl rfl rfl rfl rfl rfl rfl
    rw [Block.finalized_of_active hcase]
    exact ⟨hcomputes.fits.set_result (hlt.trans_le hcomputes.two_pow_outw_le),
      fun _ => hcomputes.dual, fun _ => hcomputes.crc, fun _ => hcomputes.table,
      fun _ => ⟨hvalue.symm, hlt⟩⟩

theorem Block.Sound.result_lt (h : blk.Sound p) : blk.result < 2 ^ p.ew := by
  obtain ⟨-, -, hresult, -⟩ := h.fits
  exact hresult

theorem Block.ser_lt (blk : Block) (i : Nat) : blk.ser i < 2 ^ 8 := Nat.mod_lt _ (by decide)

/-! ### Commands -/

/-- A command that answers leaves a sound block, whichever command it is. -/
theorem Answers.sound {s : State} {i : Instr} {v : Nat} (h : Answers s i blk v) (hp : s.par.Ok)
    (hs : s.blk.Sound s.par) : blk.Sound s.par := by
  have hfits := hs.fits
  cases h with
  | nop => exact hs
  | cfgclr reg => exact hs.set_cfg (hfits.put (Nat.two_pow_pos _))
  | cfgsh reg imm => exact hs.set_cfg (hfits.put (trunc_lt _ _))
  | newParity => exact ((hfits.set_alg_m .parity _).computes (by simp)).set_p false |>.start
  | newLrc => exact ((hfits.set_alg_m .lrc _).computes (by simp)).set_l 0 |>.start
  | newAdd =>
    exact ((hfits.set_alg_m .add _).computes (by simp)).set_acc (Nat.two_pow_pos _) |>.start
  | newAdd1c =>
    exact ((hfits.set_alg_m .add1c _).computes (by simp)).set_acc (Nat.two_pow_pos _) |>.start
  | newDual hvalid => exact (hfits.newDual_computes hvalid).start
  | newCrc hvalid => exact (hfits.newCrc_computes rfl (Cfg.crcAct_polyOk hvalid .crc _)).start
  | newCrct hvalid act hact =>
    subst hact
    exact (hfits.newCrct_computes rfl (Cfg.crcAct_polyOk hvalid .crct _)).start
  | absorb imm hphase =>
    have hcomputes := hs.computes (by simp [hphase])
    exact (hcomputes.absorbByte hp imm).sound_of_active (by simpa using hphase)
  | absorbbit bit _ hphase hbit =>
    obtain ⟨hsame, -⟩ := Block.absorbBit?_frame hbit
    have hcomputes := hs.computes (by simp [hphase])
    exact (hcomputes.absorbBit? hbit).sound_of_active (hsame.trans hphase)
  | finalize hphase => exact hs.finalized hphase
  | reset hphase => exact (hs.computes hphase).init.start
  | verify hphase => exact hs.finalized hphase
  | getbyte imm hphase himm => exact hs

/-- A response value comes from `FINALIZE`, `VERIFY` or `GETBYTE` alone (R79). -/
theorem Answers.eq_of_value_ne_zero {s : State} {i : Instr} {v : Nat} (h : Answers s i blk v)
    (hv : v ≠ 0) : i = .finalize ∨ i = .verify ∨ ∃ n, i = .getbyte n := by
  cases h
  case finalize => exact .inl rfl
  case verify => exact .inr (.inl rfl)
  case getbyte imm _ _ => exact .inr (.inr ⟨imm, rfl⟩)
  all_goals exact absurd rfl hv

theorem Answers.verify_value_le_one {s : State} {v : Nat} (h : Answers s .verify blk v) :
    v ≤ 1 := by
  cases h
  split <;> decide

/-- The response value of a command has EW bits (R79). -/
theorem Answers.value_lt {s : State} {i : Instr} {v : Nat} (h : Answers s i blk v)
    (hs : s.blk.Sound s.par) : v < 2 ^ s.par.ew := by
  by_cases hv : v = 0
  · rw [hv]; exact Nat.two_pow_pos _
  · obtain rfl | rfl | ⟨imm, rfl⟩ := h.eq_of_value_ne_zero hv
    · cases h with
      | finalize hphase => exact (hs.finalized hphase).result_lt
    · have hone : v < 2 ^ 1 := Nat.lt_succ_of_le h.verify_value_le_one
      exact hone.trans_le (two_pow_le_two_pow_ew (.inl (by decide)))
    · cases h with
      | getbyte => exact (Block.ser_lt _ _).trans_le (two_pow_le_two_pow_ew (.inl (by decide)))

end

/-! ### States -/

theorem State.Inv.raise {s t : State} (hs : s.Inv) {c : Condition} (h : s.raise c = .next t) :
    t.Inv := by
  obtain ⟨hp, hblk, hothers, -⟩ := hs
  obtain rfl := (State.raise_next_iff s t c).1 h
  exact ⟨hp, hblk, hothers, by simp [Response.Sound]⟩

theorem State.Inv.answer {s t : State} (hs : s.Inv) {blk : Block} {v : Nat}
    (hblk : blk.Sound s.par) (hv : v < 2 ^ s.par.ew) (h : s.answer blk v = .next t) : t.Inv := by
  obtain ⟨hp, -, hothers, -⟩ := hs
  obtain rfl := (State.answer_next_iff s t blk v).1 h
  exact ⟨hp, hblk, hothers, by simpa [Response.Sound] using hv⟩

theorem exec_keeps_inv {i : Instr} {s t : State} (hs : s.Inv) (h : exec i s = .next t) : t.Inv := by
  obtain ⟨hp, hblk, -⟩ := id hs
  obtain ⟨c, hraise⟩ | ⟨blk, v, hanswer, hanswers⟩ := exec_raisesOrAnswers i s
  · exact hs.raise (hraise.symm.trans h)
  · exact hs.answer (hanswers.sound hp hblk) (hanswers.value_lt hblk) (hanswer.symm.trans h)

theorem runWord_keeps_inv {w : Word} {s t : State} (hs : s.Inv) (h : runWord w s = .next t) :
    t.Inv := by
  cases hw : decode w with
  | command i =>
    rw [runWord_command hw] at h
    exact exec_keeps_inv hs h
  | illegal why =>
    rw [runWord_illegal hw] at h
    exact hs.raise h

@[simp] theorem Cfg.get_reset (reg : CfgReg) : Cfg.reset.get reg = 0 := by cases reg <;> rfl

/-- A free value has its width (log 2), so the registers fit; no computation is in flight. -/
theorem Block.afterHardReset_sound (p : Params) (n : Nat) : (Block.afterHardReset p n).Sound p := by
  refine Block.Fits.sound_of_idle ?_ rfl
  refine ⟨BitVec.isLt _, BitVec.isLt _, BitVec.isLt _, BitVec.isLt _, BitVec.isLt _, BitVec.isLt _,
    fun reg _ => ?_, ?_, fun entry hentry => ?_⟩
  · exact (Cfg.get_reset reg).trans_lt (Nat.two_pow_pos _)
  · simp [Block.afterHardReset]
  · obtain ⟨i, -, rfl⟩ := List.mem_map.1 hentry
    exact BitVec.isLt _

theorem hardReset_keeps_inv {s t : State} (hs : s.Inv) (h : s.hardReset = .next t) : t.Inv := by
  obtain ⟨hp, -, hothers, hresp⟩ := hs
  cases h
  exact ⟨hp, Block.afterHardReset_sound _ _, hothers, hresp⟩

theorem State.Inv.exchange {s : State} (hs : s.Inv) (port : Nat) : (s.exchange port).Inv := by
  cases port with
  | zero => exact hs
  | succ j =>
    obtain ⟨hp, hblk, hothers, hresp⟩ := hs
    refine ⟨hp, ?_, fun blk hmem => ?_, hresp⟩
    · by_cases hj : j < s.others.length
      · simpa [State.exchange, hj] using hothers _ (List.getElem_mem hj)
      · simpa [State.exchange, List.getElem?_eq_none (Nat.le_of_not_lt hj)] using hblk
    · obtain hmem | rfl := List.mem_or_eq_of_mem_set hmem
      · exact hothers blk hmem
      · exact hblk

/-- An operation that keeps the invariant on the connected block keeps it on the block of any port. -/
theorem servePort_keeps_inv {f : State → Result}
    (hf : ∀ {u v : State}, u.Inv → f u = .next v → v.Inv) {s t : State} {port : Nat}
    (hs : s.Inv) (h : s.servePort port f = .next t) : t.Inv := by
  by_cases hport : port < s.ninst
  · rw [State.servePort_of_lt f hport] at h
    cases hout : f (s.exchange port) with
    | next u =>
      rw [hout] at h
      cases h
      exact (hf (hs.exchange port) hout).exchange port
    | fault r => rw [hout] at h; cases h
    | refused r => rw [hout] at h; cases h
  · rw [State.servePort, if_neg hport] at h
    cases h

theorem takeInput_keeps_inv {x : Input} {s t : State} (hs : s.Inv) (h : takeInput x s = .next t) :
    t.Inv := by
  cases x with
  | command port w => exact servePort_keeps_inv runWord_keeps_inv hs h
  | hardReset port => exact servePort_keeps_inv hardReset_keeps_inv hs h

theorem step_of_inputs_nil {s : State} (h : s.inputs = []) : step s = .next s := by
  simp only [step, h]

theorem step_of_inputs_cons {s : State} {x : Input} {rest : List Input} (h : s.inputs = x :: rest) :
    step s = takeInput x (s.withInputs rest) := by
  simp only [step, h]

/-- Settles O12: an idle step keeps the state, and every input keeps the invariant on the block of its
port. -/
theorem everyStepKeepsTheInvariant : Obligations.EveryStepKeepsTheInvariant := by
  intro s t hs h
  cases hinputs : s.inputs with
  | nil =>
    rw [step_of_inputs_nil hinputs] at h
    cases h
    exact hs
  | cons x rest =>
    rw [step_of_inputs_cons hinputs] at h
    exact takeInput_keeps_inv (s := s.withInputs rest) hs h

theorem Block.reset_sound (p : Params) : Block.reset.Sound p := by
  have hpos (n : Nat) : 0 < 2 ^ n := Nat.two_pow_pos n
  refine Block.Fits.sound_of_idle ?_ rfl
  refine ⟨hpos _, hpos _, hpos _, hpos _, hpos _, hpos _, fun reg _ => ?_, ?_, fun entry hentry => ?_⟩
  · exact (Cfg.get_reset reg).trans_lt (hpos _)
  · exact List.length_replicate
  · exact (List.eq_of_mem_replicate hentry).trans_lt (hpos _)

/-- Settles O11: every block is the reset block, whose registers fit and whose `PHASE` is `IDLE`. -/
theorem invariantHoldsAfterReset : Obligations.InvariantHoldsAfterReset := by
  intro p n hp
  refine ⟨hp, Block.reset_sound p, fun blk hmem => ?_, nofun⟩
  rw [List.eq_of_mem_replicate hmem]
  exact Block.reset_sound p

end Sys2Proof.Machine
end

section
/-! PROOFS. What a command answers and what a step runs: R79 and R44 for every command, the oldest word of
port 0 (R58, log 4), and the reset state's refusals (R41, R240). -/

namespace Sys2Proof.Machine

/-- Settles O13, from the two ways a command ends and the values of `Answers`. -/
theorem everyCommandGivesOneResponse : Obligations.EveryCommandGivesOneResponse := by
  intro i s
  obtain ⟨c, hraise⟩ | ⟨blk, v, hanswer, hanswers⟩ := exec_raisesOrAnswers i s
  · exact ⟨s.blk, ⟨.error c, 0⟩, hraise, fun _ => rfl, fun hv => absurd rfl hv,
      fun _ => Nat.zero_le 1⟩
  · refine ⟨blk, ⟨.ok, v⟩, hanswer, fun hstatus => absurd rfl hstatus,
      hanswers.eq_of_value_ne_zero, ?_⟩
    rintro rfl
    exact hanswers.verify_value_le_one

/-- A word for port 0 runs on the state itself, its input taken off. -/
theorem step_of_command_zero {s : State} {w : Word} {rest : List Input}
    (h : s.inputs = .command 0 w :: rest) : step s = runWord w (s.withInputs rest) := by
  rw [step_of_inputs_cons h]
  exact State.servePort_zero _ _

theorem decode_of_decodeTableWord {nbits w : Nat} {i : Instr}
    (h : decodeTableWord nbits w = some i) : decode (tableWord nbits w) = .command i := by
  unfold decodeTableWord at h
  cases hw : decode (tableWord nbits w) with
  | command j =>
    rw [hw] at h
    cases h
    rfl
  | illegal why =>
    rw [hw] at h
    cases h

/-- Settles O6: port 0 is the port `exec` serves, and taking the word of `withFetchWord` off the stream gives
the state back. -/
theorem stepExecutesTheDecodedCommand : Obligations.StepExecutesTheDecodedCommand := by
  refine ⟨fun s w i rest hinputs hdecode => ?_, fun s nbits w i htable => ?_⟩
  · rw [step_of_command_zero hinputs, runWord_command hdecode]
    rfl
  · have hinputs : (s.withFetchWord nbits w).inputs = .command 0 (tableWord nbits w) :: s.inputs := rfl
    rw [step_of_command_zero hinputs, runWord_command (decode_of_decodeTableWord htable)]
    rfl

theorem execNewDual_of_invalid {s : State} (h : s.blk.cfg.dualValid = false) :
    exec .newDual s = s.raise .invalidConfig := by simp [exec, execNewDual, h]

theorem execNewCrc_of_invalid {s : State} (h : s.blk.cfg.crcValid s.par = false) :
    exec .newCrc s = s.raise .invalidConfig := by simp [exec, execNewCrc, h]

theorem execNewCrct_of_invalid {s : State} (h : s.blk.cfg.crcValid s.par = false) :
    exec .newCrct s = s.raise .invalidConfig := by simp [exec, execNewCrct, h]

/-- Modulus 0 is no prime (R125). -/
theorem Cfg.reset_dualValid : Cfg.reset.dualValid = false := by decide

/-- Degree 0 is none (R142). -/
theorem Cfg.reset_crcValid (p : Params) : Cfg.reset.crcValid p = false := by
  simp [Cfg.crcValid, Cfg.reset]

/-- Settles O10: the reset configuration is invalid for every algorithm that reads one. -/
theorem resetStateHasNoConfiguration : Obligations.ResetStateHasNoConfiguration := by
  refine ⟨rfl, Cfg.get_reset, fun i hi => ?_, fun i hi => ?_⟩
  · simp only [List.mem_cons, List.not_mem_nil, or_false] at hi
    obtain rfl | rfl | rfl := hi
    · exact execNewCrc_of_invalid (Cfg.reset_crcValid _)
    · exact execNewCrct_of_invalid (Cfg.reset_crcValid _)
    · exact execNewDual_of_invalid Cfg.reset_dualValid
  · simp only [List.mem_cons, List.not_mem_nil, or_false] at hi
    obtain rfl | rfl | rfl | rfl := hi <;> exact ⟨_, rfl, rfl, rfl⟩

end Sys2Proof.Machine
end

section
/-! PROOFS. Decoding the word of a command: the fields of a packed word are the fields it was packed from
(R71), and from them the round trip over R72. -/

namespace Sys2Proof

section
variable (op sel : BitVec 4) (imm : Byte)

@[simp] theorem opField_packWord : opField (packWord op sel imm) = op :=
  BitVec.extractLsb'_append_eq_left

@[simp] theorem selField_packWord : selField (packWord op sel imm) = sel := by
  rw [selField, packWord, BitVec.extractLsb'_append_eq_of_add_le (by decide)]
  exact BitVec.extractLsb'_append_eq_left

@[simp] theorem immField_packWord : immField (packWord op sel imm) = imm := by
  rw [immField, packWord, BitVec.extractLsb'_append_eq_of_add_le (by decide)]
  exact BitVec.extractLsb'_append_eq_right

end

@[simp] theorem CfgReg.ofSel_sel (reg : CfgReg) : CfgReg.ofSel reg.sel = some reg := by
  cases reg <;> rfl

/-- Decoding undoes encoding (R72, R82). -/
theorem decode_encode {i : Instr} (h : i.WellFormed) : decode (encode i) = .command i := by
  cases i with
  | cfgclr reg => simp [decode, encode, withCfgReg, needImmZero]
  | cfgsh reg imm => simp [decode, encode, withCfgReg]
  | newUnrecognised id =>
    have hid : decodeNew id = .newUnrecognised id :=
      Machine.decodeNew_of_le (of_decide_eq_true h)
    simp [decode, encode, needImmZero, hid]
  | absorb imm | getbyte imm => simp [decode, encode, needSelZero]
  | absorbbit bit => cases bit <;> rfl
  | nop | newParity | newLrc | newAdd | newAdd1c | newDual | newCrc | newCrct | finalize | reset
  | verify => rfl

end Sys2Proof
end

section
/-! PROOFS. Commands presented on port 0 run in order (R58): a command looks at the parameters and the
connected block alone, so the inputs behind it neither change what it does nor are changed by it. -/

namespace Sys2Proof.Machine

/-- Two outcomes, from the states `s` and `u`, that raise the same condition or give the same answer. -/
inductive SameEnd (s u : State) : Result → Result → Prop where
  | raise (c : Condition) : SameEnd s u (s.raise c) (u.raise c)
  | answer (blk : Block) (v : Nat) : SameEnd s u (s.answer blk v) (u.answer blk v)

/-- What a command does depends on the parameters and the connected block alone. -/
theorem exec_sameEnd (i : Instr) {s u : State} (hpar : s.par = u.par) (hblk : s.blk = u.blk) :
    SameEnd s u (exec i s) (exec i u) := by
  obtain ⟨p, blk, others, inputs, resp, drawn⟩ := s
  obtain ⟨p', blk', others', inputs', resp', drawn'⟩ := u
  obtain rfl : p = p' := hpar
  obtain rfl : blk = blk' := hblk
  cases i with
  | nop | cfgclr | cfgsh | newParity | newLrc | newAdd | newAdd1c => exact .answer ..
  | newUnrecognised id => exact .raise ..
  | newDual | newCrc | newCrct =>
    simp only [exec, execNewDual, execNewCrc, execNewCrct]
    split
    · exact .answer ..
    · exact .raise ..
  | absorb imm =>
    simp only [exec, execAbsorb]
    cases blk.phase with
    | idle | final => exact .raise ..
    | active => exact .answer ..
  | absorbbit bit =>
    simp only [exec, execAbsorbbit]
    cases blk.phase <;> cases blk.absorbBit? bit
    case active.some => exact .answer ..
    all_goals exact .raise ..
  | finalize | reset | verify =>
    simp only [exec, execFinalize, execReset, execVerify]
    cases blk.phase with
    | idle => exact .raise ..
    | active | final => exact .answer ..
  | getbyte imm =>
    simp only [exec, execGetbyte]
    cases blk.phase with
    | idle | active => exact .raise ..
    | final =>
      simp only
      split
      · exact .raise ..
      · exact .answer ..

theorem SameEnd.eq_mapNext_withInputs {s : State} {l : List Input} {o o' : Result}
    (h : SameEnd s (s.withInputs l) o o') : o' = Result.mapNext (·.withInputs l) o := by
  cases h <;> rfl

/-- The inputs not yet taken do not matter to a command, which keeps them. -/
theorem exec_withInputs (i : Instr) (s : State) (l : List Input) :
    exec i (s.withInputs l) = Result.mapNext (·.withInputs l) (exec i s) :=
  (exec_sameEnd (s := s) (u := s.withInputs l) i rfl rfl).eq_mapNext_withInputs

theorem exec_next_inputs (i : Instr) (s : State) :
    ∃ t, exec i s = .next t ∧ t.inputs = s.inputs := by
  obtain ⟨blk, r, h⟩ := exec_frame i s
  exact ⟨_, h, rfl⟩

theorem core_run_succ {s t : State} (h : step s = .next t) (k : Nat) :
    Host.Core.run Sys2Proof.core (k + 1) s = Host.Core.run Sys2Proof.core k t := by
  have hstep : Sys2Proof.core.step s = .next t := h
  simp only [Host.Core.run, hstep]

/-- The oldest of the presented commands is the one that runs. -/
theorem step_of_present_cons {i : Instr} (hi : i.WellFormed) (rest : List Instr) (s : State) :
    step (s.withInputs (present (i :: rest))) = exec i (s.withInputs (present rest)) := by
  have hinputs : (s.withInputs (present (i :: rest))).inputs = .command 0 (encode i) :: present rest :=
    rfl
  rw [step_of_command_zero hinputs, runWord_command (decode_encode hi)]
  rfl

/-- As many steps as commands presented execute the commands. -/
theorem core_run_present {cmds : List Instr} (hcmds : ∀ i ∈ cmds, i.WellFormed) {s : State}
    (hs : s.inputs = []) :
    Host.Core.run Sys2Proof.core cmds.length (s.withInputs (present cmds)) = execAll cmds s := by
  induction cmds generalizing s with
  | nil =>
    have hself : s.withInputs [] = s := by rw [← hs]; rfl
    exact congrArg Host.Outcome.next hself
  | cons i rest ih =>
    obtain ⟨hi, hrest⟩ := List.forall_mem_cons.1 hcmds
    obtain ⟨t, hexec, hinputs⟩ := exec_next_inputs i s
    have hstep : step (s.withInputs (present (i :: rest))) = .next (t.withInputs (present rest)) := by
      rw [step_of_present_cons hi, exec_withInputs, hexec, Result.mapNext_next]
    rw [List.length_cons, core_run_succ hstep, execAll_cons hexec]
    exact ih hrest (hinputs.trans hs)

/-- Settles O7, by induction on the commands presented; a step with nothing presented keeps the state. -/
theorem presentedCommandsRunInOrder : Obligations.PresentedCommandsRunInOrder :=
  ⟨fun _ _ hcmds hs => core_run_present hcmds hs, fun _ hs => step_of_inputs_nil hs⟩

end Sys2Proof.Machine
end

section
/-! PROOFS. The encoding both ways (`30_encoding.md` R71 to R74, R82): a word is packed from its fields, so a
word that decodes to a command is the word of that command. -/

namespace Sys2Proof

/-- Settles O1, by the cases of `decode_encode`: packing the fields of R71 loses none of them. -/
theorem encodeThenDecodeGivesTheCommandBack : Obligations.EncodeThenDecodeGivesTheCommandBack :=
  fun _ hi => decode_encode hi

/-! ### The fields of a word -/

@[simp] theorem packWord_fields (w : Word) : packWord (opField w) (selField w) (immField w) = w := by
  have hlow : selField w ++ immField w = w.extractLsb' 0 12 :=
    BitVec.extractLsb'_append_extractLsb'_eq_extractLsb' rfl
  have hword : opField w ++ w.extractLsb' 0 12 = w.extractLsb' 0 16 :=
    BitVec.extractLsb'_append_extractLsb'_eq_extractLsb' rfl
  rw [packWord, hlow, hword]
  exact BitVec.extractLsb'_eq_self

theorem packWord_eq_iff {op sel : BitVec 4} {imm : Byte} {w : Word} :
    packWord op sel imm = w ↔ opField w = op ∧ selField w = sel ∧ immField w = imm := by
  constructor
  · rintro rfl
    simp
  · rintro ⟨rfl, rfl, rfl⟩
    exact packWord_fields w

/-- The fields read off the number `op * 4096 + sel * 256 + imm` (R71). -/
theorem opField_toNat (w : Word) : (opField w).toNat = w.toNat / 4096 := by
  have hlt := w.isLt
  rw [opField, BitVec.extractLsb'_toNat, Nat.shiftRight_eq_div_pow]
  omega

theorem selField_toNat (w : Word) : (selField w).toNat = w.toNat / 256 % 16 := by
  rw [selField, BitVec.extractLsb'_toNat, Nat.shiftRight_eq_div_pow]

theorem immField_toNat (w : Word) : (immField w).toNat = w.toNat % 256 := by
  rw [immField, BitVec.extractLsb'_toNat, Nat.shiftRight_zero]

/-! ### Operands: register numbers, identifiers, the bit of `ABSORBBIT` -/

theorem CfgReg.sel_of_ofSel_eq_some {sel : BitVec 4} {reg : CfgReg}
    (h : CfgReg.ofSel sel = some reg) : reg.sel = sel := by
  revert sel reg
  decide

theorem CfgReg.ofSel_eq_none_iff {sel : BitVec 4} : CfgReg.ofSel sel = none ↔ 7 ≤ sel.toNat := by
  revert sel
  decide

/-- `NEW` has a command for every identifier (R73). -/
theorem encode_decodeNew (sel : BitVec 4) : encode (decodeNew sel) = packWord 3 sel 0 := by
  revert sel
  decide

theorem decodeNew_wellFormed (sel : BitVec 4) : (decodeNew sel).WellFormed := by
  revert sel
  decide

/-- An operand byte of 0 or 1 is the bit of `ABSORBBIT`. -/
theorem encode_absorbbit_of_lt_two {imm : Byte} (h : imm.toNat < 2) :
    encode (.absorbbit (imm.getLsbD 0)) = packWord 5 0 imm := by
  revert imm
  decide

/-! ### What decodes to a command -/

section
variable {w : Word} {d : Decoded} {i : Instr}

/-- A check of the decoder lets a command through exactly when it holds. -/
theorem ite_illegal_eq_command {p : Prop} [Decidable p] {why : IllegalEncoding} :
    (if p then d else .illegal why) = .command i ↔ p ∧ d = .command i := by
  split
  case isTrue hp => exact ⟨fun hd => ⟨hp, hd⟩, And.right⟩
  case isFalse hp => exact ⟨nofun, fun hd => absurd hd.1 hp⟩

theorem needSelZero_eq_command :
    needSelZero w d = .command i ↔ selField w = 0 ∧ d = .command i :=
  ite_illegal_eq_command

theorem needImmZero_eq_command :
    needImmZero w d = .command i ↔ immField w = 0 ∧ d = .command i :=
  ite_illegal_eq_command

theorem exists_of_withCfgReg_eq_command {f : CfgReg → Decoded} (h : withCfgReg w f = .command i) :
    ∃ reg, selField w = reg.sel ∧ f reg = .command i := by
  unfold withCfgReg at h
  split at h
  case h_1 reg hreg => exact ⟨reg, (CfgReg.sel_of_ofSel_eq_some hreg).symm, h⟩
  case h_2 => cases h

/-- The word of a command has the fields the decoder read. -/
theorem encode_of_decode_eq_command (h : decode w = .command i) :
    encode i = w ∧ i.WellFormed := by
  have hpack {op sel : BitVec 4} {imm : Byte} (hop : (opField w).toNat = op.toNat)
      (hsel : selField w = sel) (himm : immField w = imm) : packWord op sel imm = w :=
    packWord_eq_iff.2 ⟨BitVec.eq_of_toNat_eq hop, hsel, himm⟩
  unfold decode at h
  split at h
  case h_1 hop | h_7 hop | h_8 hop | h_9 hop =>
    obtain ⟨hsel, h⟩ := needSelZero_eq_command.1 h
    obtain ⟨himm, h⟩ := needImmZero_eq_command.1 h
    cases h
    exact ⟨hpack hop hsel himm, rfl⟩
  case h_2 hop =>
    obtain ⟨reg, hsel, h⟩ := exists_of_withCfgReg_eq_command h
    obtain ⟨himm, h⟩ := needImmZero_eq_command.1 h
    cases h
    exact ⟨hpack hop hsel himm, rfl⟩
  case h_3 hop =>
    obtain ⟨reg, hsel, h⟩ := exists_of_withCfgReg_eq_command h
    cases h
    exact ⟨hpack hop hsel rfl, rfl⟩
  case h_4 hop =>
    obtain ⟨himm, h⟩ := needImmZero_eq_command.1 h
    cases h
    exact ⟨(encode_decodeNew _).trans (hpack hop rfl himm), decodeNew_wellFormed _⟩
  case h_5 hop | h_10 hop =>
    obtain ⟨hsel, h⟩ := needSelZero_eq_command.1 h
    cases h
    exact ⟨hpack hop hsel rfl, rfl⟩
  case h_6 hop =>
    obtain ⟨hsel, h⟩ := needSelZero_eq_command.1 h
    obtain ⟨himm, h⟩ := ite_illegal_eq_command.1 h
    cases h
    exact ⟨(encode_absorbbit_of_lt_two himm).trans (hpack hop hsel rfl), rfl⟩
  case h_11 => cases h

theorem decode_of_encode_eq (h : encode i = w) (hi : i.WellFormed) : decode w = .command i :=
  h ▸ decode_encode hi

end

/-- Settles O2, by the operations of R72 and the fields each of them reads. -/
theorem decodedWordReencodesToItself : Obligations.DecodedWordReencodesToItself :=
  fun _ _ h => encode_of_decode_eq_command h

/-- Settles O5: each word is the word of the command listed for it. -/
theorem specWordsDecodeAsListed : Obligations.SpecWordsDecodeAsListed := by
  unfold Obligations.SpecWordsDecodeAsListed
  and_intros <;> exact decode_of_encode_eq rfl rfl

end Sys2Proof
end

section
/-! PROOFS. The match and mask table (`30_encoding.md` R72): every row accepts the words of its mnemonic's
commands and no others. -/

namespace Sys2Proof

/-- The word of a well-formed command is accepted by the table's row of its mnemonic. -/
theorem encodingRow (i : Instr) : Laws.EncodingRow.Statement i := by
  cases i with
  | nop => exact Laws.EncodingRow.nop
  | cfgclr reg => exact Laws.EncodingRow.cfgclr reg
  | cfgsh reg imm => exact Laws.EncodingRow.cfgsh reg imm
  | newParity => exact Laws.EncodingRow.newParity
  | newLrc => exact Laws.EncodingRow.newLrc
  | newAdd => exact Laws.EncodingRow.newAdd
  | newAdd1c => exact Laws.EncodingRow.newAdd1c
  | newDual => exact Laws.EncodingRow.newDual
  | newCrc => exact Laws.EncodingRow.newCrc
  | newCrct => exact Laws.EncodingRow.newCrct
  | newUnrecognised id => exact Laws.EncodingRow.newUnrecognised id
  | absorb imm => exact Laws.EncodingRow.absorb imm
  | absorbbit bit => exact Laws.EncodingRow.absorbbit bit
  | finalize => exact Laws.EncodingRow.finalize
  | reset => exact Laws.EncodingRow.reset
  | verify => exact Laws.EncodingRow.verify
  | getbyte imm => exact Laws.EncodingRow.getbyte imm

/-! ### Fields under a mask -/

section
variable {w mask pattern : Word}

theorem opField_and : opField (w &&& mask) = opField w &&& opField mask :=
  BitVec.extractLsb'_and

theorem selField_and : selField (w &&& mask) = selField w &&& selField mask :=
  BitVec.extractLsb'_and

theorem immField_and : immField (w &&& mask) = immField w &&& immField mask :=
  BitVec.extractLsb'_and

/-- A field the mask keeps whole is the pattern's. -/
theorem opField_of_masked (h : w &&& mask = pattern) (hmask : opField mask = .allOnes 4) :
    opField w = opField pattern := by
  rw [← h, opField_and, hmask, BitVec.and_allOnes]

theorem selField_of_masked (h : w &&& mask = pattern) (hmask : selField mask = .allOnes 4) :
    selField w = selField pattern := by
  rw [← h, selField_and, hmask, BitVec.and_allOnes]

theorem immField_of_masked (h : w &&& mask = pattern) (hmask : immField mask = .allOnes 8) :
    immField w = immField pattern := by
  rw [← h, immField_and, hmask, BitVec.and_allOnes]

end

/-- The mask of `ABSORBBIT` leaves bit 0 of the byte free. -/
theorem lt_two_of_and_eq_zero {imm : Byte} (h : imm &&& 0xFE = 0) : imm.toNat < 2 := by
  revert imm
  decide

theorem CfgReg.exists_sel_eq {sel : BitVec 4} (h : sel.toNat ≤ 6) : ∃ reg, sel = CfgReg.sel reg := by
  cases hreg : CfgReg.ofSel sel with
  | none => exact absurd (CfgReg.ofSel_eq_none_iff.1 hreg) (by omega)
  | some reg => exact ⟨reg, (CfgReg.sel_of_ofSel_eq_some hreg).symm⟩

/-! ### The words a row accepts -/

theorem TableRow.accepts_iff {row : TableRow} {w : Word} :
    row.accepts w = true ↔
      w &&& row.mask = row.pattern ∧ row.selLo ≤ (selField w).toNat ∧ (selField w).toNat ≤ row.selHi := by
  simp [TableRow.accepts, and_assoc]

/-- Every word a row accepts is the word of a command with the row's mnemonic. -/
def TableRow.AcceptsCommandWords (row : TableRow) : Prop :=
  ∀ w, row.accepts w = true → ∃ i : Instr, i.WellFormed ∧ encode i = w ∧ i.mnemonic = row.mnemonic

/-- A row that masks nothing out has one word. -/
theorem fullMaskRow_acceptsCommandWords (i : Instr) (hi : i.WellFormed) :
    (plainRow i.mnemonic (encode i) 0xFFFF).AcceptsCommandWords := by
  intro w h
  obtain ⟨hmask, -⟩ := TableRow.accepts_iff.1 h
  have hall : w &&& 0xFFFF = w := BitVec.and_allOnes
  exact ⟨i, hi, hmask.symm.trans hall, rfl⟩

theorem cfgclrRow_acceptsCommandWords :
    { plainRow "CFGCLR" 0x1000 0xF0FF with selHi := 6 }.AcceptsCommandWords := by
  intro w h
  obtain ⟨hmask, -, hhi⟩ := TableRow.accepts_iff.1 h
  obtain ⟨reg, hreg⟩ := CfgReg.exists_sel_eq hhi
  exact ⟨.cfgclr reg, rfl,
    packWord_eq_iff.2 ⟨opField_of_masked hmask rfl, hreg, immField_of_masked hmask rfl⟩, rfl⟩

theorem cfgshRow_acceptsCommandWords :
    { plainRow "CFGSH" 0x2000 0xF000 with selHi := 6 }.AcceptsCommandWords := by
  intro w h
  obtain ⟨hmask, -, hhi⟩ := TableRow.accepts_iff.1 h
  obtain ⟨reg, hreg⟩ := CfgReg.exists_sel_eq hhi
  exact ⟨.cfgsh reg (immField w), rfl, packWord_eq_iff.2 ⟨opField_of_masked hmask rfl, hreg, rfl⟩, rfl⟩

theorem newUnrecognisedRow_acceptsCommandWords :
    { plainRow "NEW.<unrecognised>" 0x3000 0xF0FF with selLo := 7 }.AcceptsCommandWords := by
  intro w h
  obtain ⟨hmask, hlo, -⟩ := TableRow.accepts_iff.1 h
  exact ⟨.newUnrecognised (selField w), decide_eq_true hlo,
    packWord_eq_iff.2 ⟨opField_of_masked hmask rfl, rfl, immField_of_masked hmask rfl⟩, rfl⟩

theorem absorbRow_acceptsCommandWords :
    (plainRow "ABSORB" 0x4000 0xFF00).AcceptsCommandWords := by
  intro w h
  obtain ⟨hmask, -⟩ := TableRow.accepts_iff.1 h
  exact ⟨.absorb (immField w), rfl,
    packWord_eq_iff.2 ⟨opField_of_masked hmask rfl, selField_of_masked hmask rfl, rfl⟩, rfl⟩

theorem absorbbitRow_acceptsCommandWords :
    (plainRow "ABSORBBIT" 0x5000 0xFFFE).AcceptsCommandWords := by
  intro w h
  obtain ⟨hmask, -⟩ := TableRow.accepts_iff.1 h
  have himm : immField w &&& 0xFE = 0 := immField_and.symm.trans (congrArg immField hmask)
  have hword : packWord 5 0 (immField w) = w :=
    packWord_eq_iff.2 ⟨opField_of_masked hmask rfl, selField_of_masked hmask rfl, rfl⟩
  exact ⟨.absorbbit ((immField w).getLsbD 0), rfl,
    (encode_absorbbit_of_lt_two (lt_two_of_and_eq_zero himm)).trans hword, rfl⟩

theorem getbyteRow_acceptsCommandWords :
    (plainRow "GETBYTE" 0x9000 0xFF00).AcceptsCommandWords := by
  intro w h
  obtain ⟨hmask, -⟩ := TableRow.accepts_iff.1 h
  exact ⟨.getbyte (immField w), rfl,
    packWord_eq_iff.2 ⟨opField_of_masked hmask rfl, selField_of_masked hmask rfl, rfl⟩, rfl⟩

theorem opcodeTable_acceptsCommandWords : ∀ row ∈ opcodeTable, row.AcceptsCommandWords := by
  have hfixed := fullMaskRow_acceptsCommandWords
  simp only [opcodeTable, List.forall_mem_append, List.forall_mem_cons, List.not_mem_nil,
    false_implies, implies_true, and_true]
  exact ⟨⟨hfixed .nop rfl, cfgclrRow_acceptsCommandWords, cfgshRow_acceptsCommandWords,
      hfixed .newParity rfl, hfixed .newLrc rfl, hfixed .newAdd rfl,
      hfixed .newAdd1c rfl, hfixed .newDual rfl⟩,
    hfixed .newCrc rfl, hfixed .newCrct rfl, newUnrecognisedRow_acceptsCommandWords,
    absorbRow_acceptsCommandWords, absorbbitRow_acceptsCommandWords, hfixed .finalize rfl,
    hfixed .reset rfl, hfixed .verify rfl, getbyteRow_acceptsCommandWords⟩

/-- Settles O3: a decoded word is the word of its command, and so is a word a row accepts. -/
theorem commandWordsAreExactlyTheTableRows : Obligations.CommandWordsAreExactlyTheTableRows := by
  refine ⟨fun w i h => ?_, fun w row hrow h => ?_⟩
  · obtain ⟨rfl, hi⟩ := encode_of_decode_eq_command h
    exact encodingRow i hi
  · obtain ⟨i, hi, hw, hmnemonic⟩ := opcodeTable_acceptsCommandWords row hrow w h
    exact ⟨i, decode_of_encode_eq hw hi, hmnemonic⟩

end Sys2Proof
end

section
/-! PROOFS. The illegal encodings (`30_encoding.md` R76, R77): which checks of the decoder reject a word, in
terms of its fields, and what a step on a rejected word does. -/

namespace Sys2Proof.Machine

/-- The decoder rejects the word, for whatever reason. -/
def Rejected (d : Decoded) : Prop := ∃ why, d = .illegal why

@[simp] theorem not_rejected_command (i : Instr) : ¬ Rejected (.command i) := nofun

@[simp] theorem rejected_illegal (why : IllegalEncoding) : Rejected (.illegal why) := ⟨why, rfl⟩

section
variable {w : Word} {d : Decoded}

/-- A check of the decoder rejects what fails it. -/
theorem ite_illegal_rejected_iff {p : Prop} [Decidable p] {why : IllegalEncoding} :
    Rejected (if p then d else .illegal why) ↔ ¬ p ∨ Rejected d := by
  split
  case isTrue hp => exact (or_iff_right (not_not_intro hp)).symm
  case isFalse hp => exact iff_of_true (rejected_illegal why) (.inl hp)

theorem needSelZero_rejected_iff :
    Rejected (needSelZero w d) ↔ (selField w).toNat ≠ 0 ∨ Rejected d :=
  ite_illegal_rejected_iff.trans (or_congr_left (not_congr BitVec.toNat_inj.symm))

theorem needImmZero_rejected_iff :
    Rejected (needImmZero w d) ↔ (immField w).toNat ≠ 0 ∨ Rejected d :=
  ite_illegal_rejected_iff.trans (or_congr_left (not_congr BitVec.toNat_inj.symm))

theorem withCfgReg_rejected_iff {f : CfgReg → Decoded} {p : Prop} (hf : ∀ reg, Rejected (f reg) ↔ p) :
    Rejected (withCfgReg w f) ↔ 7 ≤ (selField w).toNat ∨ p := by
  rw [← CfgReg.ofSel_eq_none_iff, withCfgReg]
  cases CfgReg.ofSel (selField w) with
  | none => simp
  | some reg => simp [hf]

end

/-- The decoder rejects exactly the illegal encodings of R76 and R77. -/
theorem decode_rejected_iff (w : Word) :
    Rejected (decode w) ↔
      IllegalFields (opField w).toNat (selField w).toNat (immField w).toNat := by
  unfold decode
  split
  case h_1 hop | h_7 hop | h_8 hop | h_9 hop =>
    rw [needSelZero_rejected_iff, needImmZero_rejected_iff, hop]
    simp [IllegalFields]
  case h_2 hop =>
    have himm (reg : CfgReg) : Rejected (needImmZero w (.command (.cfgclr reg))) ↔
        (immField w).toNat ≠ 0 := by simp [needImmZero_rejected_iff]
    rw [withCfgReg_rejected_iff himm, hop]
    simp [IllegalFields]
  case h_3 hop =>
    rw [withCfgReg_rejected_iff fun _ => iff_of_false (not_rejected_command _) not_false, hop]
    simp [IllegalFields]
  case h_4 hop =>
    rw [needImmZero_rejected_iff, hop]
    simp [IllegalFields]
  case h_5 hop | h_10 hop =>
    rw [needSelZero_rejected_iff, hop]
    simp [IllegalFields]
  case h_6 hop =>
    rw [needSelZero_rejected_iff, ite_illegal_rejected_iff, hop]
    simp [IllegalFields, Nat.succ_le_iff]
  case h_11 =>
    have hop : 10 ≤ (opField w).toNat := by grind
    exact iff_of_true (rejected_illegal _) (.inl hop)

theorem decode_rejected_iff_illegalWord (w : Word) : Rejected (decode w) ↔ IllegalWord w := by
  rw [decode_rejected_iff, opField_toNat, selField_toNat, immField_toNat]

/-- Settles O4: the fields of a word are those of its number, and a rejected word raises `IllegalCommand`. -/
theorem illegalWordsAreRefusedAndChangeNothing :
    Obligations.IllegalWordsAreRefusedAndChangeNothing := by
  refine ⟨decode_rejected_iff_illegalWord, fun s w rest hw hinputs => ?_, rfl⟩
  obtain ⟨why, hwhy⟩ := (decode_rejected_iff_illegalWord w).2 hw
  rw [step_of_command_zero hinputs, runWord_illegal hwhy]
  rfl

end Sys2Proof.Machine
end

section
/-! PROOFS. `LOADCFG` (`30_encoding.md` R81, R246): after the clear, each `CFGSH` appends one byte to the
register, and no byte is lost while the number read so far has the register's width. -/

namespace Sys2Proof.Machine

/-! ### A number from its bytes -/

/-- A number with one more byte appended at its low end. -/
def appendByte (u : Nat) (d : Byte) : Nat := u * 256 + d.toNat

theorem shiftLeft_or_eq_appendByte (u : Nat) (d : Byte) : u <<< 8 ||| d.toNat = appendByte u d := by
  rw [← Nat.shiftLeft_add_eq_or_of_lt d.isLt, Nat.shiftLeft_eq, appendByte]

theorem le_foldl_appendByte (bytes : List Byte) (u : Nat) : u ≤ bytes.foldl appendByte u := by
  induction bytes generalizing u with
  | nil => exact le_rfl
  | cons d rest ih =>
    have hstep : u ≤ appendByte u d := by unfold appendByte; omega
    exact hstep.trans (ih _)

/-- Byte n of a number comes right after the bytes above it. -/
theorem appendByte_byteOf (v n : Nat) :
    appendByte (v >>> (8 * (n + 1))) (byteOf v n) = v >>> (8 * n) := by
  have hnext : v >>> (8 * (n + 1)) = v >>> (8 * n) / 256 := by
    rw [Nat.mul_succ, Nat.shiftRight_add, Nat.shiftRight_eq_div_pow _ 8]
  rw [appendByte, byteOf, BitVec.toNat_ofNat, hnext]
  exact Nat.div_add_mod' _ _

/-- The low n bytes, appended to what stands above them, give the number back. -/
theorem foldl_appendByte_lowBytes (v n : Nat) :
    ((List.range n).reverse.map (byteOf v)).foldl appendByte (v >>> (8 * n)) = v := by
  induction n with
  | zero => rfl
  | succ n ih =>
    rw [List.range_succ, List.reverse_concat, List.map_cons, List.foldl_cons, appendByte_byteOf]
    exact ih

theorem lt_two_pow_bitLength (v : Nat) : v < 2 ^ bitLength v := by
  unfold bitLength
  split
  case isTrue hv => simp [hv]
  case isFalse => exact Nat.lt_log2_self

theorem lt_two_pow_byteCount (v : Nat) : v < 2 ^ (8 * byteCount v) := by
  have hbits : bitLength v ≤ 8 * byteCount v := by unfold byteCount; omega
  exact (lt_two_pow_bitLength v).trans_le (Nat.pow_le_pow_right (by decide) hbits)

/-- The bytes `LOADCFG` shifts in spell the value (R81). -/
theorem foldl_appendByte_bytesMsb (v : Nat) : (bytesMsb v).foldl appendByte 0 = v := by
  have habove : v >>> (8 * byteCount v) = 0 := by
    rw [Nat.shiftRight_eq_div_pow, Nat.div_eq_of_lt (lt_two_pow_byteCount v)]
  have hlow := foldl_appendByte_lowBytes v (byteCount v)
  rwa [habove] at hlow

/-! ### Commands on one staging register -/

/-- The state `s` after commands that answered `OK` and left `v` in a staging register. -/
def State.staged (s : State) (reg : CfgReg) (v : Nat) : State :=
  { s with blk := { s.blk with cfg := s.blk.cfg.put reg v }, resp := some ⟨.ok, 0⟩ }

theorem Cfg.put_put (c : Cfg) (reg : CfgReg) (u v : Nat) : (c.put reg u).put reg v = c.put reg v := by
  cases reg <;> rfl

theorem State.staged_staged (s : State) (reg : CfgReg) (u v : Nat) :
    (s.staged reg u).staged reg v = s.staged reg v := by
  simp only [State.staged, Cfg.put_put]

section
variable {s : State} {reg : CfgReg} {u : Nat}

/-- `CFGSH` appends its byte when the result has the register's width (R174). -/
theorem exec_cfgsh_staged {imm : Byte} (h : appendByte u imm < 2 ^ cfgBits s.par reg) :
    exec (.cfgsh reg imm) (s.staged reg u) = .next (s.staged reg (appendByte u imm)) := by
  have hu : u < 2 ^ cfgBits s.par reg := by unfold appendByte at h; omega
  have hshift : (s.blk.cfg.put reg u).shiftIn s.par reg imm = appendByte u imm := by
    rw [Cfg.shiftIn, Cfg.get_put s.par _ _ hu, shiftLeft_or_eq_appendByte, trunc_of_lt h]
  have hexec : exec (.cfgsh reg imm) (s.staged reg u) =
      .next ((s.staged reg u).staged reg ((s.blk.cfg.put reg u).shiftIn s.par reg imm)) := rfl
  rw [hexec, hshift, State.staged_staged]

/-- A list of bytes shifted in, as long as the whole number has the register's width. -/
theorem perform_cfgsh_staged {bytes : List Byte}
    (h : bytes.foldl appendByte u < 2 ^ cfgBits s.par reg) :
    perform (bytes.map (.cfgsh reg)) (s.staged reg u) =
      .next (s.staged reg (bytes.foldl appendByte u)) := by
  induction bytes generalizing u with
  | nil => rfl
  | cons d rest ih =>
    have hstep := exec_cfgsh_staged ((le_foldl_appendByte rest _).trans_lt h)
    rw [List.map_cons, perform_cons_ok hstep rfl]
    exact ih h

theorem perform_loadCfg {v : Nat} (h : v < 2 ^ cfgBits s.par reg) :
    perform (loadCfg reg v) s = .next (s.staged reg v) := by
  have hclear : exec (.cfgclr reg) s = .next (s.staged reg 0) := rfl
  have hbytes := foldl_appendByte_bytesMsb v
  rw [loadCfg, perform_cons_ok hclear rfl, perform_cfgsh_staged (by rwa [hbytes]), hbytes]

end

/-- Settles O19: the clear makes the register 0, and the bytes of the value shifted into 0 are the value. -/
theorem loadcfgLoadsTheValue : Obligations.LoadcfgLoadsTheValue :=
  fun reg v s hv => ⟨s.blk.cfg.put reg v, perform_loadCfg hv, Cfg.get_put s.par _ _ hv,
    fun _ hreg => Cfg.get_put_of_ne _ _ hreg⟩

end Sys2Proof.Machine
end

section
/-! PROOFS. The absorbing commands bit by bit (`41_parity.md` R91, R92; `45_crc.md` R143 to R147): what `ABSORB`
and `ABSORBBIT` do in `ACTIVE` under each algorithm, and that a byte is its eight bits in feed order. -/

namespace Sys2Proof.Machine

/-! ### The dispatch of R171, one algorithm at a time -/

section
variable {blk : Block} (p : Params) (d : Byte) (c : Bool)

theorem Block.absorbByte_of_parity (halg : blk.act.alg = .parity) :
    blk.absorbByte p d = absorbByteParity d blk := by simp only [Block.absorbByte, halg]

theorem Block.absorbByte_of_lrc (halg : blk.act.alg = .lrc) :
    blk.absorbByte p d = absorbByteLrc d blk := by simp only [Block.absorbByte, halg]

theorem Block.absorbByte_of_crc (halg : blk.act.alg = .crc) :
    blk.absorbByte p d = absorbByteCrc d blk := by simp only [Block.absorbByte, halg]

theorem Block.absorbBit?_of_parity (halg : blk.act.alg = .parity) :
    blk.absorbBit? c = some (absorbBitParity c blk) := by simp only [Block.absorbBit?, halg]

theorem Block.absorbBit?_of_crc (halg : blk.act.alg = .crc) :
    blk.absorbBit? c = some (absorbBitCrc c blk) := by simp only [Block.absorbBit?, halg]

end

/-! ### The commands in `ACTIVE` -/

section
variable {s : State} (hphase : s.blk.phase = .active)
include hphase

/-- `ABSORB` in `ACTIVE` (R177). -/
theorem exec_absorb_of_active (d : Byte) :
    exec (.absorb d) s = s.answer (s.blk.absorbByte s.par d) 0 := by
  simp only [exec, execAbsorb, hphase]

/-- `ABSORBBIT` in `ACTIVE` under an algorithm with a bit-wise absorb (R178). -/
theorem exec_absorbbit_of_active {c : Bool} {blk : Block} (hbit : s.blk.absorbBit? c = some blk) :
    exec (.absorbbit c) s = s.answer blk 0 := by
  simp only [exec, execAbsorbbit, hphase, hbit]

end

/-- `ABSORBBITS` of at least one bit answers once, with the fold of the bit-wise absorb `f` of the algorithm in
use (R81): a bit leaves `PHASE` and `ACT` alone, so the next one meets the same algorithm in `ACTIVE`. -/
theorem execAll_absorbBits {f : Block → Bool → Block} {alg : Alg}
    (hf : ∀ (blk : Block) (c : Bool), blk.act.alg = alg → blk.absorbBit? c = some (f blk c))
    {bits : List Bool} (hbits : bits ≠ []) {s : State} (hphase : s.blk.phase = .active)
    (halg : s.blk.act.alg = alg) :
    execAll (absorbBits bits) s = s.answer (bits.foldl f s.blk) 0 := by
  induction bits generalizing s with
  | nil => exact absurd rfl hbits
  | cons c rest ih =>
    have hbit := hf s.blk c halg
    have hexec := exec_absorbbit_of_active hphase hbit
    obtain ⟨hphase', -, hact', -, -⟩ := Block.absorbBit?_frame hbit
    cases rest with
    | nil => exact execAll_cons hexec
    | cons c' tail =>
      calc execAll (absorbBits (c :: c' :: tail)) s
          = execAll (absorbBits (c' :: tail)) { s with blk := f s.blk c, resp := some ⟨.ok, 0⟩ } :=
            execAll_cons hexec
        _ = s.answer ((c :: c' :: tail).foldl f s.blk) 0 :=
            ih (List.cons_ne_nil c' tail) (hphase'.trans hphase) ((congrArg Act.alg hact').trans halg)

/-! ### Parity of a list of bits -/

/-- XORing bits into an accumulator counts the 1 bits modulo 2. -/
theorem foldl_xor_toNat (bits : List Bool) (q : Bool) :
    (bits.foldl xor q).toNat = (q.toNat + bits.countP id) % 2 := by
  induction bits generalizing q with
  | nil => cases q <;> rfl
  | cons c rest ih =>
    rw [List.foldl_cons, ih, List.countP_cons]
    cases q <;> cases c <;> simp <;> omega

theorem foldl_xor_lsbFirst (q : Bool) (d : Byte) :
    (lsbFirst d).foldl xor q = (q ^^ parity8 d) := by
  simp only [lsbFirst, parity8, List.foldl_cons, List.foldl_nil, Bool.xor_assoc]

/-- The order of the bits does not matter to their parity. -/
theorem foldl_xor_msbFirst (q : Bool) (d : Byte) :
    (msbFirst d).foldl xor q = (q ^^ parity8 d) := by
  have horder : (msbFirst d).foldl xor q = (lsbFirst d).foldl xor q :=
    (List.reverse_perm (lsbFirst d)).foldl_eq' (fun _ _ _ _ _ => Bool.xor_right_comm ..) q
  rw [horder, foldl_xor_lsbFirst]

theorem countP_lsbFirst (d : Byte) : (lsbFirst d).countP id = byteWeight d :=
  List.countP_map (l := List.range 8)

/-- `parity8` is the number of 1 bits modulo 2 (R14, R93). -/
theorem parity8_toNat (d : Byte) : (parity8 d).toNat = byteWeight d % 2 := by
  have h := foldl_xor_toNat (lsbFirst d) false
  rwa [foldl_xor_lsbFirst, countP_lsbFirst, Bool.false_xor, Bool.toNat_false, Nat.zero_add] at h

theorem parity8_eq_decide (d : Byte) : parity8 d = decide (byteWeight d % 2 = 1) := by
  rw [← parity8_toNat]
  cases parity8 d <;> rfl

theorem parity8_xor (d e : Byte) : parity8 (d ^^^ e) = (parity8 d ^^ parity8 e) := by
  have : Std.Commutative xor := ⟨Bool.xor_comm⟩
  simp only [parity8, BitVec.getLsbD_xor]
  ac_rfl

/-! ### The bits of a byte in feed order -/

theorem revByte_getLsbD (d : Byte) {i : Nat} (hi : i < 8) :
    (revByte d).getLsbD i = d.getLsbD (7 - i) := by
  rw [revByte, BitVec.getLsbD_ofNat, revBits_testBit]
  simp [hi, BitVec.testBit_toNat]

/-- Reversing a byte exchanges the two orders of its bits (R15, R16). -/
theorem lsbFirst_revByte (d : Byte) : lsbFirst (revByte d) = msbFirst d := by
  simp (disch := decide) only [lsbFirst, msbFirst, revByte_getLsbD, Nat.reduceSub]

theorem msbFirst_revByte (d : Byte) : msbFirst (revByte d) = lsbFirst d := by
  simp (disch := decide) only [lsbFirst, msbFirst, revByte_getLsbD, Nat.reduceSub]

/-- The table of R145: `REFIN` and `ORDER` together choose the order of the bits. -/
theorem feed_eq_consumedBits (act : Act) (d : Byte) :
    feed act.order act.refin d = consumedBits act d := by
  unfold feed consumedBits
  cases act.order <;> cases act.refin
  case false.false => rfl
  case false.true => exact msbFirst_revByte d
  case true.false => rfl
  case true.true => exact lsbFirst_revByte d

/-! ### A byte absorbed is its bits absorbed -/

theorem foldl_absorbBitParity (bits : List Bool) (blk : Block) :
    bits.foldl (fun b c => absorbBitParity c b) blk = { blk with p := bits.foldl xor blk.p } := by
  induction bits generalizing blk with
  | nil => rfl
  | cons c rest ih => exact ih (absorbBitParity c blk)

theorem foldl_absorbBitCrc (bits : List Bool) (blk : Block) :
    bits.foldl (fun b c => absorbBitCrc c b) blk =
      { blk with r := serialFeed blk.act.k.toNat blk.act.poly blk.r bits } := by
  induction bits generalizing blk with
  | nil => rfl
  | cons c rest ih => exact ih (absorbBitCrc c blk)

theorem foldl_absorbBitParity_byte {bits : List Bool} {d : Byte}
    (hbits : bits ∈ [msbFirst d, lsbFirst d]) (blk : Block) :
    bits.foldl (fun b c => absorbBitParity c b) blk = absorbByteParity d blk := by
  rw [foldl_absorbBitParity, absorbByteParity]
  obtain rfl | rfl := List.mem_pair.1 hbits
  · rw [foldl_xor_msbFirst]
  · rw [foldl_xor_lsbFirst]

theorem foldl_absorbBitCrc_byte (d : Byte) (blk : Block) :
    (consumedBits blk.act d).foldl (fun b c => absorbBitCrc c b) blk = absorbByteCrc d blk := by
  rw [foldl_absorbBitCrc, absorbByteCrc, feed_eq_consumedBits]

theorem consumedBits_ne_nil (act : Act) (d : Byte) : consumedBits act d ≠ [] := by
  unfold consumedBits
  split <;> exact List.cons_ne_nil _ _

/-- Settles O29: the eight commands answer with the fold of the bit-wise absorb over the bits, which is the
byte-wise absorb. -/
theorem absorbIsEightAbsorbbits : Obligations.AbsorbIsEightAbsorbbits := by
  intro d s hphase
  rw [exec_absorb_of_active hphase]
  constructor
  · intro halg
    have hbits := consumedBits_ne_nil s.blk.act d
    rw [Block.absorbByte_of_crc _ _ halg, ← foldl_absorbBitCrc_byte,
      execAll_absorbBits (fun _ c => Block.absorbBit?_of_crc c) hbits hphase halg]
  · intro halg bits hmem
    have hbits : bits ≠ [] := by obtain rfl | rfl := List.mem_pair.1 hmem <;> exact List.cons_ne_nil _ _
    rw [Block.absorbByte_of_parity _ _ halg, ← foldl_absorbBitParity_byte hmem,
      execAll_absorbBits (fun _ c => Block.absorbBit?_of_parity c) hbits hphase halg]

/-! ### One byte, one bit -/

/-- Settles O26: `parity8` is the weight modulo 2, and the rest is what the dispatch of R171 says. -/
theorem absorbUpdatesParityAndLrc : Obligations.AbsorbUpdatesParityAndLrc := by
  intro d s hphase
  rw [exec_absorb_of_active hphase]
  constructor
  · intro halg
    rw [Block.absorbByte_of_parity _ _ halg, absorbByteParity, parity8_eq_decide, State.answer_eq]
  · intro halg
    rw [Block.absorbByte_of_lrc _ _ halg, absorbByteLrc, State.answer_eq]

/-- A step of the serial divider in numbers (R143): shift left, take the bit in at the bottom, cut to k bits,
and XOR the polynomial when a 1 left the top. -/
theorem serialStep_eq (k poly r : Nat) (c : Bool) :
    serialStep k poly r c =
      (2 * r + c.toNat) % 2 ^ k ^^^ (if r.testBit (k - 1) then poly else 0) := by
  have hshift : r <<< 1 ||| c.toNat = 2 * r + c.toNat := by
    rw [← Nat.shiftLeft_add_eq_or_of_lt (Bool.toNat_lt c), Nat.shiftLeft_eq, Nat.mul_comm, Nat.pow_one]
  rw [serialStep, hshift, trunc]
  split
  · rfl
  · exact (Nat.xor_zero _).symm

/-- Settles O30, by what the bit-wise absorbs of `PARITY` and `CRC` write. -/
theorem absorbbitConsumesOneBit : Obligations.AbsorbbitConsumesOneBit := by
  intro c s hphase
  constructor
  · intro halg
    exact exec_absorbbit_of_active hphase (Block.absorbBit?_of_parity c halg)
  · intro halg
    rw [exec_absorbbit_of_active hphase (Block.absorbBit?_of_crc c halg), absorbBitCrc,
      serialStep_eq, Act.poly, trunc, State.answer_eq]

end Sys2Proof.Machine
end

section
/-! PROOFS. `NEW` without configuration (R94, R103, R114, R118) and the `PARITY` value of a Data Word
(`41_parity.md` R93, R95). -/

namespace Sys2Proof.Machine

/-- Settles O21: each of the four answers with the state its rule writes out. -/
theorem newWithoutConfigurationCreates : Obligations.NewWithoutConfigurationCreates :=
  ⟨by decide, fun s => ⟨s.answer_eq _ 0, s.answer_eq _ 0, s.answer_eq _ 0, s.answer_eq _ 0⟩⟩

/-- The number of 1 bits of a Data Word. -/
def dataWeight (data : List Byte) : Nat := (data.map byteWeight).sum

theorem byteWeight_xor_mod_two (d e : Byte) :
    byteWeight (d ^^^ e) % 2 = (byteWeight d + byteWeight e) % 2 := by
  rw [Nat.add_mod, ← parity8_toNat, ← parity8_toNat, ← parity8_toNat, parity8_xor]
  cases parity8 d <;> cases parity8 e <;> rfl

theorem dataWeight_cons (d : Byte) (rest : List Byte) :
    dataWeight (d :: rest) = byteWeight d + dataWeight rest := List.sum_cons

/-- XORing an error pattern adds its weight modulo 2: each bit set in both is lost twice. -/
theorem dataWeight_zipWith_xor_mod_two {data err : List Byte} (hlength : data.length = err.length) :
    dataWeight (List.zipWith (· ^^^ ·) data err) % 2 = (dataWeight data + dataWeight err) % 2 := by
  induction data generalizing err with
  | nil => obtain rfl : err = [] := List.length_eq_zero_iff.1 hlength.symm; rfl
  | cons d rest ih =>
    cases err with
    | nil => exact absurd hlength (by simp)
    | cons e rest' =>
      have hhead := byteWeight_xor_mod_two d e
      have htail := ih (Nat.succ.inj hlength)
      simp only [List.zipWith_cons_cons, dataWeight_cons]
      omega

theorem Block.absorbAll_cons (p : Params) (blk : Block) (d : Byte) (rest : List Byte) :
    blk.absorbAll p (d :: rest) = (blk.absorbByte p d).absorbAll p rest := rfl

@[simp] theorem Block.absorbAll_act (p : Params) (blk : Block) (data : List Byte) :
    (blk.absorbAll p data).act = blk.act := by
  induction data generalizing blk with
  | nil => rfl
  | cons d rest ih => rw [Block.absorbAll_cons, ih, Block.absorbByte_act]

/-- Absorbing a Data Word under `PARITY` adds its weight to `P`, modulo 2 (R91, R92). -/
theorem absorbAll_p_of_parity (p : Params) (data : List Byte) {blk : Block}
    (halg : blk.act.alg = .parity) :
    (blk.absorbAll p data).p.toNat = (blk.p.toNat + dataWeight data) % 2 := by
  induction data generalizing blk with
  | nil => exact (Nat.mod_eq_of_lt (Bool.toNat_lt blk.p)).symm
  | cons d rest ih =>
    have hbyte : (blk.p ^^ parity8 d).toNat = (blk.p.toNat + byteWeight d) % 2 := by
      rw [← foldl_xor_lsbFirst, foldl_xor_toNat, countP_lsbFirst]
    rw [Block.absorbAll_cons, ih (by rwa [Block.absorbByte_act]), Block.absorbByte_of_parity _ _ halg,
      absorbByteParity, hbyte, dataWeight_cons, Nat.mod_add_mod, Nat.add_assoc]

/-- The `PARITY` value of a Data Word is its weight modulo 2 (R93). -/
theorem checksum_of_parity (p : Params) (data : List Byte) {blk : Block}
    (halg : blk.act.alg = .parity) : blk.checksum p data = dataWeight data % 2 := by
  have hinit : blk.init.p = false := by simp only [Block.init, halg, initParity]
  have hinitAlg : blk.init.act.alg = .parity := by rwa [Block.init_act]
  have habsorb := absorbAll_p_of_parity p data hinitAlg
  rw [hinit, Bool.toNat_false, Nat.zero_add] at habsorb
  simp only [Block.checksum, Block.value, Block.absorbAll_act, hinitAlg, valueParity, habsorb]

/-- Settles O46: the value is the weight modulo 2, and the error pattern adds its own weight to it. -/
theorem parityDetectsExactlyOddWeight : Obligations.ParityDetectsExactlyOddWeight := by
  intro p blk data err halg
  refine ⟨checksum_of_parity p data halg, fun hlength => ?_⟩
  have hxor := dataWeight_zipWith_xor_mod_two hlength
  rw [checksum_of_parity p _ halg, checksum_of_parity p _ halg]
  change _ ↔ dataWeight err % 2 = 1
  omega

end Sys2Proof.Machine
end

section
/-! PROOFS. The `LRC` value of a Data Word (`42_lrc.md` R101, R102, R104). -/

namespace Sys2Proof.Machine

/-- The bytes of a Data Word XORed into `l` one after the other. -/
def xorBytes (l : Byte) (data : List Byte) : Byte := data.foldl (· ^^^ ·) l

theorem xorBytes_cons (l d : Byte) (rest : List Byte) :
    xorBytes l (d :: rest) = xorBytes (l ^^^ d) rest := rfl

/-- The lanes do not interact: bit i of the XOR is the XOR of the bits i (R104). -/
theorem xorBytes_getLsbD (i : Nat) (l : Byte) (data : List Byte) :
    (xorBytes l data).getLsbD i = (data.map (·.getLsbD i)).foldl xor (l.getLsbD i) := by
  rw [List.foldl_map]
  exact (List.foldl_hom (BitVec.getLsbD · i) fun _ _ => BitVec.getLsbD_xor.symm).symm

/-- A lane that starts at 0 ends as the parity of the number of bytes that set it. -/
theorem xorBytes_zero_getLsbD (i : Nat) (data : List Byte) :
    (xorBytes 0 data).getLsbD i = decide (data.countP (fun d => d.getLsbD i) % 2 = 1) := by
  have hcount : ((xorBytes 0 data).getLsbD i).toNat = data.countP (fun d => d.getLsbD i) % 2 := by
    have hzero : (0 : Byte).getLsbD i = false := BitVec.getLsbD_zero
    rw [xorBytes_getLsbD, foldl_xor_toNat, List.countP_map, hzero, Bool.toNat_false, Nat.zero_add]
    rfl
  rw [← hcount]
  cases (xorBytes 0 data).getLsbD i <;> rfl

theorem byteWeight_xorBytes_mod_two (l : Byte) (data : List Byte) :
    byteWeight (xorBytes l data) % 2 = (byteWeight l + dataWeight data) % 2 := by
  induction data generalizing l with
  | nil => rfl
  | cons d rest ih =>
    rw [xorBytes_cons, ih, Nat.add_mod, byteWeight_xor_mod_two, ← Nat.add_mod, dataWeight_cons,
      Nat.add_assoc]

/-- Absorbing a Data Word under `LRC` XORs its bytes into `L` (R101). -/
theorem absorbAll_l_of_lrc (p : Params) (data : List Byte) {blk : Block} (halg : blk.act.alg = .lrc) :
    (blk.absorbAll p data).l = xorBytes blk.l data := by
  induction data generalizing blk with
  | nil => rfl
  | cons d rest ih =>
    rw [Block.absorbAll_cons, ih (by rwa [Block.absorbByte_act]), Block.absorbByte_of_lrc _ _ halg,
      absorbByteLrc, xorBytes_cons]

/-- The `LRC` value of a Data Word is the XOR of its bytes (R101, R102). -/
theorem checksum_of_lrc (p : Params) (data : List Byte) {blk : Block} (halg : blk.act.alg = .lrc) :
    blk.checksum p data = (xorBytes 0 data).toNat := by
  have hinit : blk.init.l = 0 := by simp only [Block.init, halg, initLrc]
  have hinitAlg : blk.init.act.alg = .lrc := by rwa [Block.init_act]
  have habsorb := absorbAll_l_of_lrc p data hinitAlg
  rw [hinit] at habsorb
  simp only [Block.checksum, Block.value, Block.absorbAll_act, hinitAlg, valueLrc, habsorb]

/-- Settles O45: each lane of the XOR counts its own bits modulo 2, and XORing bytes keeps the total weight
modulo 2, which is the `PARITY` value. -/
theorem lrcLanesAreIndependentParities : Obligations.LrcLanesAreIndependentParities := by
  intro p blk blk' data hlrc hparity
  rw [checksum_of_lrc p data hlrc, checksum_of_parity p data hparity]
  constructor
  · intro i _
    rw [BitVec.testBit_toNat, xorBytes_zero_getLsbD]
  · have hzero : byteWeight 0 = 0 := by decide
    rw [BitVec.ofNat_toNat, BitVec.setWidth_eq, parity8_toNat, byteWeight_xorBytes_mod_two, hzero,
      Nat.zero_add]

end Sys2Proof.Machine
end

section
/-! PROOFS. The addition checksums (`43_addition.md` R111 to R117): what `ABSORB` does to the accumulator, and
the width laws. Reducing to ACCW bits keeps the residue modulo 256, the end-around carry keeps the residue
modulo 255, because ACCW is a multiple of 8. -/

namespace Sys2Proof.Machine

/-! ### One byte -/

section
variable {blk : Block} (p : Params) (d : Byte)

theorem Block.absorbByte_of_add (halg : blk.act.alg = .add) :
    blk.absorbByte p d = absorbByteAdd p d blk := by simp only [Block.absorbByte, halg]

theorem Block.absorbByte_of_add1c (halg : blk.act.alg = .add1c) :
    blk.absorbByte p d = absorbByteAdd1c p d blk := by simp only [Block.absorbByte, halg]

end

/-- Settles O27: the dispatch of R171 leads to the two functions of R111 and R115; the carry out of ACCW bits
is the quotient by 2^ACCW. -/
theorem absorbAddsIntoTheAccumulator : Obligations.AbsorbAddsIntoTheAccumulator := by
  intro d s hphase
  rw [exec_absorb_of_active hphase]
  constructor
  · intro halg
    rw [Block.absorbByte_of_add _ _ halg, absorbByteAdd, trunc, State.answer_eq]
  · intro halg
    rw [Block.absorbByte_of_add1c _ _ halg, absorbByteAdd1c, trunc, Nat.shiftRight_eq_div_pow,
      State.answer_eq]

/-! ### The exact sum -/

theorem byteSum_cons (d : Byte) (rest : List Byte) : byteSum (d :: rest) = d.toNat + byteSum rest :=
  List.sum_cons

theorem byteSum_append (data rest : List Byte) :
    byteSum (data ++ rest) = byteSum data + byteSum rest := by
  rw [byteSum, List.map_append, List.sum_append]
  rfl

/-! ### `ADD`: residues modulo 256 -/

/-- A wrap at ACCW bits is a wrap at a multiple of 256. -/
theorem trunc_accw_modEq {p : Params} (hp : p.Ok) (v : Nat) : trunc p.accw v ≡ v [MOD 256] := by
  obtain ⟨-, -, -, haccw⟩ := hp
  have hdvd : 256 ∣ 2 ^ p.accw := pow_dvd_pow 2 (show 8 ≤ p.accw by omega)
  exact (Nat.mod_modEq v _).of_dvd hdvd

theorem absorbAll_acc_of_add {p : Params} (hp : p.Ok) (data : List Byte) {blk : Block}
    (halg : blk.act.alg = .add) :
    (blk.absorbAll p data).acc ≡ blk.acc + byteSum data [MOD 256] := by
  induction data generalizing blk with
  | nil => rfl
  | cons d rest ih =>
    have hrest := ih (blk := blk.absorbByte p d) (by rwa [Block.absorbByte_act])
    have hbyte : (blk.absorbByte p d).acc ≡ blk.acc + d.toNat [MOD 256] := by
      rw [Block.absorbByte_of_add _ _ halg]
      exact trunc_accw_modEq hp _
    rw [Block.absorbAll_cons, byteSum_cons, ← Nat.add_assoc]
    exact hrest.trans (hbyte.add_right _)

/-- Settles O42: absorbing adds the exact sum to the accumulator modulo 256, and the value is the
accumulator modulo 256. -/
theorem addValueIsSumModulo256 : Obligations.AddValueIsSumModulo256 := by
  intro p blk data hp halg
  have hinit : blk.init.acc = 0 := by simp only [Block.init, halg, initAdd]
  have hinitAlg : blk.init.act.alg = .add := by rwa [Block.init_act]
  have habsorb := absorbAll_acc_of_add hp data hinitAlg
  rw [hinit, Nat.zero_add] at habsorb
  simp only [Block.checksum, Block.value, Block.absorbAll_act, hinitAlg, valueAdd]
  exact habsorb

/-! ### `ADD1C`: residues modulo 255, with 0 apart -/

/-- `residue255` forgets a number but for two facts: its residue, and whether it is 0. -/
theorem residue255_eq_iff {v w : Nat} :
    residue255 v = residue255 w ↔ v ≡ w [MOD 255] ∧ (v = 0 ↔ w = 0) := by
  unfold residue255 Nat.ModEq
  split <;> split <;> omega

theorem residue255_add_right {v w : Nat} (h : residue255 v = residue255 w) (n : Nat) :
    residue255 (v + n) = residue255 (w + n) := by
  obtain ⟨hmod, hzero⟩ := residue255_eq_iff.1 h
  exact residue255_eq_iff.2 ⟨hmod.add_right n, by omega⟩

/-- The end-around carry at a multiple of 8 bits keeps the residue: 2^w is 1 modulo 255 (R117). For 8 bits
it is an iteration of `fold8`. -/
theorem residue255_endAroundCarry {w : Nat} (hw : w % 8 = 0) (v : Nat) :
    residue255 (trunc w v + v >>> w) = residue255 v := by
  rw [trunc, Nat.shiftRight_eq_div_pow]
  have hdecomp : v % 2 ^ w + 2 ^ w * (v / 2 ^ w) = v := Nat.mod_add_div v _
  have hone : 2 ^ w ≡ 1 [MOD 255] := by
    obtain ⟨n, rfl⟩ := Nat.dvd_of_mod_eq_zero hw
    have hbase : 2 ^ 8 ≡ 1 [MOD 255] := rfl
    simpa only [pow_mul, one_pow] using hbase.pow n
  refine residue255_eq_iff.2 ⟨?_, ?_⟩
  · calc v % 2 ^ w + v / 2 ^ w
      _ = v % 2 ^ w + 1 * (v / 2 ^ w) := by rw [Nat.one_mul]
      _ ≡ v % 2 ^ w + 2 ^ w * (v / 2 ^ w) [MOD 255] := (hone.symm.mul_right _).add_left _
      _ = v := hdecomp
  · constructor
    · intro hzero
      obtain ⟨hlow, hcarry⟩ := Nat.add_eq_zero_iff.1 hzero
      rw [← hdecomp, hlow, hcarry, Nat.mul_zero]
    · rintro rfl
      rw [Nat.zero_mod, Nat.zero_div]

theorem absorbAll_acc_of_add1c {p : Params} (hp : p.Ok) (data : List Byte) {blk : Block}
    (halg : blk.act.alg = .add1c) :
    residue255 (blk.absorbAll p data).acc = residue255 (blk.acc + byteSum data) := by
  induction data generalizing blk with
  | nil => rfl
  | cons d rest ih =>
    obtain ⟨-, -, haccw, -⟩ := hp
    have hrest := ih (blk := blk.absorbByte p d) (by rwa [Block.absorbByte_act])
    have hbyte : residue255 (blk.absorbByte p d).acc = residue255 (blk.acc + d.toNat) := by
      rw [Block.absorbByte_of_add1c _ _ halg]
      exact residue255_endAroundCarry haccw _
    rw [Block.absorbAll_cons, byteSum_cons, ← Nat.add_assoc]
    exact hrest.trans (residue255_add_right hbyte _)

theorem checksum_of_add1c {p : Params} (hp : p.Ok) (data : List Byte) {blk : Block}
    (halg : blk.act.alg = .add1c) : blk.checksum p data = residue255 (byteSum data) := by
  have hinit : blk.init.acc = 0 := by simp only [Block.init, halg, initAdd1c]
  have hinitAlg : blk.init.act.alg = .add1c := by rwa [Block.init_act]
  have habsorb := absorbAll_acc_of_add1c hp data hinitAlg
  rw [hinit, Nat.zero_add] at habsorb
  simp only [Block.checksum, Block.value, Block.absorbAll_act, hinitAlg, valueAdd1c,
    fold8_eq_residue255, habsorb]

/-- Settles O43: absorbing adds the exact sum to the accumulator as far as `residue255` can tell, and
`residue255` is what `fold8` computes. -/
theorem add1cValueIsFoldedSum : Obligations.Add1cValueIsFoldedSum := by
  intro p blk data hp halg
  have hvalue := checksum_of_add1c hp data halg
  exact ⟨hvalue.trans (fold8_eq_residue255 _).symm, hvalue⟩

end Sys2Proof.Machine
end

section
/-! PROOFS. What the addition checksums detect (`43_addition.md` R120, R121): a flip changes the exact sum by a
signed power of 2; `ADD` misses it when the total change is a multiple of 256, `ADD1C` only when it is a multiple
of 255. -/

namespace Sys2Proof.Machine

/-! ### What a flip adds to the sum -/

/-- The change of a byte's number when bit i, which holds `bit`, is inverted (R120). -/
def flipChange (bit : Bool) (i : Nat) : ℤ := if bit then -(2 ^ i : ℕ) else (2 ^ i : ℕ)

theorem flipBit_flipBit (d : Byte) (i : Nat) : flipBit (flipBit d i) i = d := by
  rw [flipBit, flipBit, BitVec.xor_assoc, BitVec.xor_self, BitVec.xor_zero]

theorem flipBit_getLsbD_same (d : Byte) {i : Nat} (hi : i < 8) :
    (flipBit d i).getLsbD i = !d.getLsbD i := by
  simp [flipBit, hi]

/-- Inverting a clear bit adds its weight: no carry arises. -/
theorem flipBit_toNat_of_clear {d : Byte} {i : Nat} (hi : i < 8) (hclear : d.getLsbD i = false) :
    (flipBit d i).toNat = d.toNat + 2 ^ i := by
  have hand : d &&& BitVec.twoPow 8 i = 0#8 := by simp [BitVec.and_twoPow, hclear]
  have hflip : flipBit d i = d + BitVec.twoPow 8 i := by
    rw [BitVec.add_eq_or_of_and_eq_zero _ _ hand, flipBit]
    ext j hj
    by_cases hji : j = i
    · subst hji
      simp [← BitVec.getLsbD_eq_getElem, hclear]
    · simp [hji]
  rw [hflip, BitVec.toNat_add_of_and_eq_zero hand, BitVec.toNat_twoPow_of_lt hi]

/-- Inverting a set bit undoes the inversion of the clear one. -/
theorem flipBit_toNat (d : Byte) {i : Nat} (hi : i < 8) :
    ((flipBit d i).toNat : ℤ) = d.toNat + flipChange (d.getLsbD i) i := by
  cases hbit : d.getLsbD i with
  | false =>
    rw [flipBit_toNat_of_clear hi hbit]
    rfl
  | true =>
    have hclear : (flipBit d i).getLsbD i = false := by
      rw [flipBit_getLsbD_same d hi, hbit, Bool.not_true]
    have hback := flipBit_toNat_of_clear hi hclear
    rw [flipBit_flipBit] at hback
    rw [hback, flipChange, if_pos rfl]
    omega

/-! ### Which changes are missed -/

section
variable {p : Params} {blk : Block} {data data' : List Byte}

theorem checksum_eq_iff_of_add (hp : p.Ok) (halg : blk.act.alg = .add) :
    blk.checksum p data' = blk.checksum p data ↔ 256 ∣ (byteSum data' - byteSum data : ℤ) := by
  rw [addValueIsSumModulo256 p blk data' hp halg, addValueIsSumModulo256 p blk data hp halg]
  exact Nat.ModEq.comm.trans Nat.modEq_iff_dvd

theorem dvd_of_checksum_eq_of_add1c (hp : p.Ok) (halg : blk.act.alg = .add1c)
    (h : blk.checksum p data' = blk.checksum p data) : 255 ∣ (byteSum data' - byteSum data : ℤ) := by
  rw [checksum_of_add1c hp data' halg, checksum_of_add1c hp data halg] at h
  obtain ⟨hmod, -⟩ := residue255_eq_iff.1 h
  exact Nat.modEq_iff_dvd.1 hmod.symm

theorem checksum_eq_of_byteSum_eq (hp : p.Ok) (halg : blk.act.alg = .add1c)
    (h : byteSum data' = byteSum data) : blk.checksum p data' = blk.checksum p data := by
  rw [checksum_of_add1c hp data' halg, checksum_of_add1c hp data halg, h]

/-- A change that is a multiple of neither modulus is seen by both checksums. -/
theorem checksum_ne_of_not_dvd (hp : p.Ok) (halg : blk.act.alg = .add ∨ blk.act.alg = .add1c)
    (h256 : ¬ 256 ∣ (byteSum data' - byteSum data : ℤ))
    (h255 : ¬ 255 ∣ (byteSum data' - byteSum data : ℤ)) :
    blk.checksum p data' ≠ blk.checksum p data := by
  intro heq
  obtain halg | halg := halg
  · exact h256 ((checksum_eq_iff_of_add hp halg).1 heq)
  · exact h255 (dvd_of_checksum_eq_of_add1c hp halg heq)

end

/-! ### One flip -/

theorem byteSum_replace (before after : List Byte) (d d' : Byte) :
    (byteSum (before ++ d' :: after) - byteSum (before ++ d :: after) : ℤ) = d'.toNat - d.toNat := by
  simp only [byteSum_append, byteSum_cons]
  omega

theorem flipChange_not_dvd : ∀ bit, ∀ i < 8,
    ¬ 256 ∣ flipChange bit i ∧ ¬ 255 ∣ flipChange bit i := by decide

/-- Settles O49: a power of 2 up to 2^7 is a multiple of neither 256 nor 255. -/
theorem additionDetectsEverySingleBitFlip : Obligations.AdditionDetectsEverySingleBitFlip := by
  intro p blk before after d i hp hi halg
  have hchange : (byteSum (before ++ flipBit d i :: after) - byteSum (before ++ d :: after) : ℤ) =
      flipChange (d.getLsbD i) i := by
    rw [byteSum_replace, flipBit_toNat d hi, add_sub_cancel_left]
  obtain ⟨h256, h255⟩ := flipChange_not_dvd (d.getLsbD i) i hi
  rw [← hchange] at h256 h255
  exact checksum_ne_of_not_dvd hp halg h256 h255

/-! ### Two flips -/

/-- Modulo 256 two changes cancel when they are opposite, or when both are ± 2^7 (R120). -/
theorem dvd_256_flipChange_add_iff : ∀ i < 8, ∀ j < 8, ∀ b c,
    256 ∣ flipChange b i + flipChange c j ↔ i = j ∧ (b ≠ c ∨ i = 7) := by decide

/-- Modulo 255 two changes cancel only when they are opposite (R121). -/
theorem dvd_255_flipChange_add_iff : ∀ i < 8, ∀ j < 8, ∀ b c,
    255 ∣ flipChange b i + flipChange c j ↔ i = j ∧ b ≠ c := by decide

theorem flipChange_add_eq_zero {b c : Bool} (h : b ≠ c) (i : Nat) :
    flipChange b i + flipChange c i = 0 := by
  cases b <;> cases c <;> simp [flipChange] at h ⊢

theorem byteSum_flip_two_bytes (before mid after : List Byte) (d e : Byte) {i j : Nat} (hi : i < 8)
    (hj : j < 8) :
    (byteSum (before ++ flipBit d i :: mid ++ flipBit e j :: after) -
        byteSum (before ++ d :: mid ++ e :: after) : ℤ) =
      flipChange (d.getLsbD i) i + flipChange (e.getLsbD j) j := by
  have hd := flipBit_toNat d hi
  have he := flipBit_toNat e hj
  simp only [byteSum_append, byteSum_cons]
  omega

theorem byteSum_flip_one_byte (before after : List Byte) (d : Byte) {i j : Nat} (hi : i < 8)
    (hj : j < 8) :
    (byteSum (before ++ flipBit (flipBit d i) j :: after) - byteSum (before ++ d :: after) : ℤ) =
      flipChange (d.getLsbD i) i + flipChange ((flipBit d i).getLsbD j) j := by
  rw [byteSum_replace, flipBit_toNat _ hj, flipBit_toNat d hi]
  omega

/-- Settles O50: in two bytes the change is a multiple of 256 or 255 in the listed cases alone, and it is 0
for a compensating pair; in one byte the positions differ, so it is a multiple of neither. -/
theorem additionTwoBitFlips : Obligations.AdditionTwoBitFlips := by
  refine ⟨fun p blk before mid after d e i j hp hi hj => ⟨fun halg => ?_, fun halg => ?_⟩, ?_⟩
  · rw [checksum_eq_iff_of_add hp halg, byteSum_flip_two_bytes before mid after d e hi hj]
    exact dvd_256_flipChange_add_iff i hi j hj _ _
  · have hchange := byteSum_flip_two_bytes before mid after d e hi hj
    constructor
    · intro hmissed
      have hdvd := dvd_of_checksum_eq_of_add1c hp halg hmissed
      rw [hchange] at hdvd
      exact (dvd_255_flipChange_add_iff i hi j hj _ _).1 hdvd
    · rintro ⟨rfl, hopposite⟩
      rw [flipChange_add_eq_zero hopposite, sub_eq_zero] at hchange
      exact checksum_eq_of_byteSum_eq hp halg (Int.ofNat_inj.1 hchange)
  · intro p blk before after d i j hp hi hj hne halg
    have hchange := byteSum_flip_one_byte before after d hi hj
    refine checksum_ne_of_not_dvd hp halg ?_ ?_ <;> rw [hchange]
    · exact fun hdvd => hne ((dvd_256_flipChange_add_iff i hi j hj _ _).1 hdvd).left
    · exact fun hdvd => hne ((dvd_255_flipChange_add_iff i hi j hj _ _).1 hdvd).left

end Sys2Proof.Machine
end

section
/-! PROOFS. The dual-modular checksum (`44_modular_dual.md` R125 to R132): which moduli `NEW.DUAL` accepts, what
`ABSORB` does to the two accumulators, their closed forms, and which exchanges of neighbours the value misses. -/

namespace Sys2Proof.Machine

/-! ### Which moduli are accepted -/

/-- Trial division below 16 decides primality below 256: a composite number has a factor up to its square
root. -/
theorem prime_iff_of_lt_256 {n : Nat} (hn : n < 256) :
    n.Prime ↔ 2 ≤ n ∧ ∀ d < 16, 2 ≤ d → d ∣ n → d = n := by
  constructor
  · intro hprime
    refine ⟨hprime.two_le, fun d _ hd hdvd => ?_⟩
    exact (hprime.eq_one_or_self_of_dvd d hdvd).resolve_left (Nat.ne_of_gt hd)
  · rintro ⟨htwo, htrial⟩
    by_contra hcomposite
    have hfactor : n.minFac.Prime := Nat.minFac_prime (Nat.ne_of_gt htwo)
    have hsq : n.minFac ^ 2 ≤ n := Nat.minFac_sq_le_self (Nat.zero_lt_of_lt htwo) hcomposite
    have hsmall : n.minFac < 16 := lt_of_pow_lt_pow_left₀ 2 (Nat.zero_le _) (hsq.trans_lt hn)
    have hself : n.minFac = n := htrial _ hsmall hfactor.two_le n.minFac_dvd
    exact hcomposite (hself ▸ hfactor)

/-- The list of R18 is what trial division leaves over. -/
theorem isPrime8_iff_trialDivision :
    ∀ m : Byte, isPrime8 m = true ↔
      2 ≤ m.toNat ∧ ∀ d < 16, 2 ≤ d → d ∣ m.toNat → d = m.toNat := by decide

/-- The list of R18 holds exactly the primes below 256. -/
theorem isPrime8_iff_prime (m : Byte) : isPrime8 m = true ↔ m.toNat.Prime :=
  (isPrime8_iff_trialDivision m).trans (prime_iff_of_lt_256 m.isLt).symm

/-- `NEW.DUAL` with a modulus it accepts (R129). -/
theorem execNewDual_of_valid {s : State} (h : s.blk.cfg.dualValid = true) :
    exec .newDual s = s.answer
      { s.blk with
        act := { s.blk.act with alg := .dual, m := s.blk.cfg.modulus }
        a := 1
        b := 0
        phase := .active } 0 := by simp only [exec, execNewDual, h, if_true]

/-- Settles O22: the staged modulus is looked up in the list of R18, which holds exactly the primes. -/
theorem newDualAcceptsExactlyThePrimes : Obligations.NewDualAcceptsExactlyThePrimes := by
  refine ⟨by decide, fun s => ⟨fun hprime => ?_, fun hcomposite => ?_⟩⟩
  · have hvalid : s.blk.cfg.dualValid = true := (isPrime8_iff_prime _).2 hprime
    rw [execNewDual_of_valid hvalid, State.answer_eq]
  · have hinvalid : s.blk.cfg.dualValid = false :=
      Bool.eq_false_iff.2 (mt (isPrime8_iff_prime _).1 hcomposite)
    rw [execNewDual_of_invalid hinvalid, State.raise_eq]

/-! ### One byte -/

/-- A residue modulo a byte fits a byte (R130). -/
theorem byteMod_toNat {m : Byte} (hm : 0 < m.toNat) (v : Nat) :
    (BitVec.ofNat 8 (v % m.toNat)).toNat = v % m.toNat :=
  (BitVec.toNat_ofNat _ _).trans (Nat.mod_eq_of_lt ((Nat.mod_lt v hm).trans m.isLt))

theorem dualA_toNat {m : Byte} (hm : 0 < m.toNat) (a d : Byte) :
    (dualA m a d).toNat = (a.toNat + d.toNat) % m.toNat := byteMod_toNat hm _

theorem dualB_toNat {m : Byte} (hm : 0 < m.toNat) (b newA : Byte) :
    (dualB m b newA).toNat = (b.toNat + newA.toNat) % m.toNat := byteMod_toNat hm _

theorem Block.absorbByte_of_dual {blk : Block} (p : Params) (d : Byte) (halg : blk.act.alg = .dual) :
    blk.absorbByte p d = absorbByteDual d blk := by simp only [Block.absorbByte, halg]

/-- Settles O28: the two bytes written are `dualA` and, from the new `A`, `dualB`. -/
theorem absorbUpdatesTheDualAccumulators : Obligations.AbsorbUpdatesTheDualAccumulators := by
  intro d s hphase halg hm
  refine ⟨dualA s.blk.act.m s.blk.a d, dualB s.blk.act.m s.blk.b (dualA s.blk.act.m s.blk.a d), ?_,
    dualA_toNat hm _ _, dualB_toNat hm _ _⟩
  rw [exec_absorb_of_active hphase, Block.absorbByte_of_dual _ _ halg, absorbByteDual, State.answer_eq]

/-! ### A whole Data Word -/

theorem weightedSum_cons (d : Byte) (rest : List Byte) :
    weightedSum (d :: rest) = (rest.length + 1) * d.toNat + weightedSum rest := rfl

section
variable {blk : Block} (p : Params) (halg : blk.act.alg = .dual) (hm : 0 < blk.act.m.toNat)
include halg hm

theorem absorbByte_a_of_dual (d : Byte) :
    (blk.absorbByte p d).a.toNat = (blk.a.toNat + d.toNat) % blk.act.m.toNat := by
  rw [Block.absorbByte_of_dual _ _ halg]
  exact dualA_toNat hm _ _

theorem absorbByte_b_of_dual (d : Byte) :
    (blk.absorbByte p d).b.toNat =
      (blk.b.toNat + (blk.absorbByte p d).a.toNat) % blk.act.m.toNat := by
  rw [Block.absorbByte_of_dual _ _ halg]
  exact dualB_toNat hm _ _

/-- Absorbing a Data Word under `DUAL` adds its sum to `A`, modulo M. -/
theorem absorbAll_a_of_dual (data : List Byte) (ha : blk.a.toNat < blk.act.m.toNat) :
    (blk.absorbAll p data).a.toNat = (blk.a.toNat + byteSum data) % blk.act.m.toNat := by
  induction data generalizing blk with
  | nil => exact (Nat.mod_eq_of_lt ha).symm
  | cons d rest ih =>
    have hbyte := absorbByte_a_of_dual p halg hm d
    have hrest := ih (blk := blk.absorbByte p d)
    rw [Block.absorbByte_act, hbyte] at hrest
    rw [Block.absorbAll_cons, hrest halg hm (Nat.mod_lt _ hm), byteSum_cons, Nat.mod_add_mod,
      Nat.add_assoc]

/-- Absorbing a Data Word of n bytes under `DUAL` adds n times the first `A` and the weighted sum to `B`, modulo
M: every byte counts once in its own step and once in each later one. -/
theorem absorbAll_b_of_dual (data : List Byte) (hb : blk.b.toNat < blk.act.m.toNat) :
    (blk.absorbAll p data).b.toNat =
      (blk.b.toNat + data.length * blk.a.toNat + weightedSum data) % blk.act.m.toNat := by
  induction data generalizing blk with
  | nil => simpa [Block.absorbAll, weightedSum] using (Nat.mod_eq_of_lt hb).symm
  | cons d rest ih =>
    have hA : (blk.absorbByte p d).a.toNat ≡ blk.a.toNat + d.toNat [MOD blk.act.m.toNat] := by
      rw [absorbByte_a_of_dual p halg hm d]
      exact Nat.mod_modEq _ _
    have hbyte := absorbByte_b_of_dual p halg hm d
    have hB : (blk.absorbByte p d).b.toNat ≡ blk.b.toNat + (blk.a.toNat + d.toNat)
        [MOD blk.act.m.toNat] := by
      rw [hbyte]
      exact (Nat.mod_modEq _ _).trans (hA.add_left _)
    have hrest := ih (blk := blk.absorbByte p d)
    rw [Block.absorbByte_act] at hrest
    rw [Block.absorbAll_cons, hrest halg hm (hbyte ▸ Nat.mod_lt _ hm)]
    have hstep := (hB.add (hA.mul_left rest.length)).add_right (weightedSum rest)
    refine hstep.trans (congrArg (· % _) ?_)
    rw [List.length_cons, weightedSum_cons]
    ring

end

/-- Settles O44: from the initial accumulators 1 and 0, which are below any prime (R126), the two laws above. -/
theorem dualAccumulatorsInClosedForm : Obligations.DualAccumulatorsInClosedForm := by
  intro p blk data halg hprime
  have htwo := isPrime8_two_le hprime
  have hm : 0 < blk.act.m.toNat := Nat.zero_lt_of_lt htwo
  have hinit : blk.init = initDual blk := by simp only [Block.init, halg]
  rw [hinit]
  refine ⟨absorbAll_a_of_dual (blk := initDual blk) p halg hm data htwo, ?_⟩
  rw [absorbAll_b_of_dual (blk := initDual blk) p halg hm data hm]
  simp [initDual]

/-! ### Exchanged neighbours -/

theorem weightedSum_append (data rest : List Byte) :
    weightedSum (data ++ rest) = weightedSum data + rest.length * byteSum data + weightedSum rest := by
  induction data with
  | nil => simp [weightedSum, byteSum]
  | cons d data ih =>
    rw [List.cons_append, weightedSum_cons, weightedSum_cons, byteSum_cons, ih, List.length_append]
    ring

theorem byteSum_exchange (before after : List Byte) (x y : Byte) :
    byteSum (before ++ x :: y :: after) = byteSum (before ++ y :: x :: after) := by
  simp only [byteSum_append, byteSum_cons]
  omega

/-- The byte that moves forward gains weight 1, the other loses it. -/
theorem weightedSum_exchange (before after : List Byte) (x y : Byte) :
    weightedSum (before ++ x :: y :: after) + y.toNat =
      weightedSum (before ++ y :: x :: after) + x.toNat := by
  simp only [weightedSum_append, weightedSum_cons, List.length_cons]
  ring

theorem modEq_iff_of_add_eq_add {m v w x y : Nat} (h : v + y = w + x) :
    v ≡ w [MOD m] ↔ x ≡ y [MOD m] := by
  have hdiff : (w - v : ℤ) = y - x := by omega
  rw [Nat.modEq_iff_dvd, Nat.modEq_iff_dvd, hdiff]

/-- The `DUAL` value tells `A` and `B` apart (R128). -/
theorem valueDual_eq_iff (x y : Block) : valueDual x = valueDual y ↔ x.b = y.b ∧ x.a = y.a := by
  have hvalue (blk : Block) : valueDual blk = blk.b.toNat * 256 + blk.a.toNat := by
    rw [valueDual, BitVec.toNat_append, ← Nat.shiftLeft_add_eq_or_of_lt blk.a.isLt, Nat.shiftLeft_eq]
  rw [hvalue, hvalue, ← BitVec.toNat_inj, ← BitVec.toNat_inj]
  omega

theorem checksum_eq_iff_of_dual {p : Params} {blk : Block} (halg : blk.act.alg = .dual)
    (data data' : List Byte) :
    blk.checksum p data = blk.checksum p data' ↔
      (blk.init.absorbAll p data).b = (blk.init.absorbAll p data').b ∧
        (blk.init.absorbAll p data).a = (blk.init.absorbAll p data').a := by
  have hvalue (data : List Byte) :
      blk.checksum p data = valueDual (blk.init.absorbAll p data) := by
    simp only [Block.checksum, Block.value, Block.absorbAll_act, Block.init_act, halg]
  rw [hvalue, hvalue, valueDual_eq_iff]

/-- Settles O48: the sums agree, so `A` does, and the weighted sums differ by x - y, so `B` agrees when that is 0
modulo M. -/
theorem dualDetectsExchangedNeighbours : Obligations.DualDetectsExchangedNeighbours := by
  intro p blk before after x y halg hprime
  obtain ⟨hA, hB⟩ := dualAccumulatorsInClosedForm p blk (before ++ x :: y :: after) halg hprime
  obtain ⟨hA', hB'⟩ := dualAccumulatorsInClosedForm p blk (before ++ y :: x :: after) halg hprime
  have hlength : (before ++ x :: y :: after).length = (before ++ y :: x :: after).length := by simp
  have haccA : (blk.init.absorbAll p (before ++ x :: y :: after)).a =
      (blk.init.absorbAll p (before ++ y :: x :: after)).a := by
    rw [← BitVec.toNat_inj, hA, hA', byteSum_exchange]
  refine ⟨haccA, ?_⟩
  have hweights := weightedSum_exchange before after x y
  rw [checksum_eq_iff_of_dual halg, and_iff_left haccA, ← BitVec.toNat_inj, hB, hB', hlength]
  exact modEq_iff_of_add_eq_add (by omega)

end Sys2Proof.Machine
end

section
/-! PROOFS. Remainders of polynomials over GF(2) as congruences (`45_crc.md` R149): they add, and a number may be
replaced by its remainder before it is shifted. -/

namespace Sys2Proof.Machine

/-! ### Numbers in bits -/

theorem xor_lt_two_pow_of_testBit_eq {k x y : Nat} (hx : x < 2 ^ (k + 1)) (hy : y < 2 ^ (k + 1))
    (htop : x.testBit k = y.testBit k) : x ^^^ y < 2 ^ k := by
  apply Nat.lt_pow_two_of_testBit
  intro i hi
  rw [Nat.testBit_xor]
  obtain rfl | hi := Nat.eq_or_lt_of_le hi
  · rw [htop, Bool.xor_self]
  · rw [Nat.testBit_lt_two_pow (hx.trans_le (Nat.pow_le_pow_right (by decide) hi)),
      Nat.testBit_lt_two_pow (hy.trans_le (Nat.pow_le_pow_right (by decide) hi)), Bool.xor_self]

theorem shiftLeft_one_xor_toNat (v : Nat) (c : Bool) : v <<< 1 ^^^ c.toNat = 2 * v + c.toNat := by
  rw [Nat.shiftLeft_eq, pow_one, Nat.mul_comm]
  cases c
  · exact Nat.xor_zero _
  · exact Nat.xor_one_of_even (even_two_mul v)

/-- The low k bits of a number and the rest. -/
theorem mod_two_pow_xor_shiftRight (v k : Nat) : v % 2 ^ k ^^^ v >>> k <<< k = v := by
  apply Nat.eq_of_testBit_eq
  intro i
  rw [Nat.testBit_xor, Nat.testBit_mod_two_pow, Nat.testBit_shiftLeft, Nat.testBit_shiftRight]
  by_cases hi : i < k
  · simp [hi, Nat.not_le.2 hi]
  · simp [hi, Nat.le_of_not_lt hi]

/-- Reversing n bits twice gives them back (R15). -/
theorem revBits_revBits {n v : Nat} (hv : v < 2 ^ n) : revBits n (revBits n v) = v := by
  apply Nat.eq_of_testBit_eq
  intro i
  rw [revBits_testBit, revBits_testBit]
  by_cases hi : i < n
  · have hmirror : n - 1 - i < n := by omega
    have hback : n - 1 - (n - 1 - i) = i := by omega
    rw [hback, decide_eq_true hi, decide_eq_true hmirror, Bool.true_and, Bool.true_and]
  · rw [decide_eq_false hi, Bool.false_and]
    exact (Nat.testBit_lt_two_pow (hv.trans_le
      (Nat.pow_le_pow_right (by decide) (Nat.le_of_not_lt hi)))).symm

/-! ### Bits read as a number -/

theorem bitsToNat_concat (bits : List Bool) (c : Bool) :
    bitsToNat (bits ++ [c]) = 2 * bitsToNat bits + c.toNat := List.foldl_append

theorem bitsToNat_lt (bits : List Bool) : bitsToNat bits < 2 ^ bits.length := by
  induction bits using List.reverseRecOn with
  | nil => exact Nat.one_pos
  | append_singleton bits c ih =>
    rw [bitsToNat_concat, ← Nat.bit_val, List.length_append, List.length_singleton]
    exact Nat.bit_lt_two_pow_succ_iff.2 ih

theorem bitsToNat_replicate_false (n : Nat) : bitsToNat (List.replicate n false) = 0 := by
  induction n with
  | zero => rfl
  | succ n ih => rw [List.replicate_succ', bitsToNat_concat, ih]; rfl

/-- Two lists of bits of one length that read as the same number are the same. -/
theorem foldl_bits_inj {bits bits' : List Bool} (hlength : bits.length = bits'.length) {v v' : Nat}
    (h : bits.foldl (fun v c => 2 * v + c.toNat) v = bits'.foldl (fun v c => 2 * v + c.toNat) v') :
    v = v' ∧ bits = bits' := by
  induction bits generalizing bits' v v' with
  | nil =>
    obtain rfl : bits' = [] := List.length_eq_zero_iff.1 hlength.symm
    exact ⟨h, rfl⟩
  | cons c rest ih =>
    cases bits' with
    | nil => exact absurd hlength (by simp)
    | cons c' rest' =>
      obtain ⟨hhead, rfl⟩ : 2 * v + c.toNat = 2 * v' + c'.toNat ∧ rest = rest' :=
        ih (Nat.succ.inj hlength) h
      rw [← Nat.bit_val, ← Nat.bit_val] at hhead
      have hlow : c = c' := by simpa using congrArg (Nat.testBit · 0) hhead
      have hhigh : v = v' := by simpa only [Nat.bit_shiftRight_one] using congrArg (· >>> 1) hhead
      exact ⟨hhigh, congrArg (· :: rest) hlow⟩

theorem bitsToNat_inj {bits bits' : List Bool} (hlength : bits.length = bits'.length)
    (h : bitsToNat bits = bitsToNat bits') : bits = bits' := (foldl_bits_inj hlength h).2

/-! ### Products and remainders -/

theorem gf2MulBits_double (g n q : Nat) :
    gf2MulBits g (n + 1) (q <<< 1) = gf2MulBits g n q <<< 1 := by
  induction n with
  | zero => simp [gf2MulBits_succ]
  | succ n ih =>
    rw [gf2MulBits_succ, ih, gf2MulBits_succ, Nat.shiftLeft_xor_distrib]
    simp [apply_ite (· <<< 1), ← Nat.shiftLeft_add]

/-- Multiplying by a power of x shifts the product. -/
theorem gf2Mul_shiftLeft (g q n : Nat) : gf2Mul (q <<< n) g = gf2Mul q g <<< n := by
  induction n with
  | zero => rfl
  | succ n ih =>
    have hlt : q <<< n < 2 ^ ((q <<< n).log2 + 1) := Nat.lt_log2_self
    have hlt' : (q <<< n) <<< 1 < 2 ^ ((q <<< n).log2 + 1 + 1) := by
      rw [Nat.shiftLeft_eq, pow_succ]
      omega
    rw [Nat.shiftLeft_add, gf2Mul_eq hlt', gf2MulBits_double, ← gf2Mul_eq hlt, ih, Nat.shiftLeft_add]

/-- Multiplying by a polynomial of degree 0, or by 0. -/
theorem gf2Mul_toNat (g : Nat) (c : Bool) : gf2Mul c.toNat g = if c then g else 0 := by
  cases c
  · exact gf2Mul_zero g
  · rw [Bool.toNat_true, gf2Mul_eq (n := 1) (by decide)]
    simp [gf2MulBits_succ]

section
variable {k g v v' r r' : Nat}

theorem IsGf2Rem.lt (h : IsGf2Rem k g v r) : r < 2 ^ k := h.1

/-- A number of k bits is its own remainder. -/
theorem IsGf2Rem.self (hr : r < 2 ^ k) : IsGf2Rem k g r r :=
  ⟨hr, 0, by rw [gf2Mul_zero, Nat.zero_xor]⟩

theorem IsGf2Rem.xor (h : IsGf2Rem k g v r) (h' : IsGf2Rem k g v' r') :
    IsGf2Rem k g (v ^^^ v') (r ^^^ r') := by
  obtain ⟨hr, q, rfl⟩ := h
  obtain ⟨hr', q', rfl⟩ := h'
  refine ⟨Nat.xor_lt_two_pow hr hr', q ^^^ q', ?_⟩
  rw [gf2Mul_xor]
  ac_rfl

/-- A number may be replaced by its remainder before it is shifted and added to. -/
theorem IsGf2Rem.of_shiftLeft_xor {n w : Nat} (h : IsGf2Rem k g v r)
    (h' : IsGf2Rem k g (r <<< n ^^^ w) r') : IsGf2Rem k g (v <<< n ^^^ w) r' := by
  obtain ⟨-, q, rfl⟩ := h
  obtain ⟨hr', q', hq'⟩ := h'
  refine ⟨hr', q <<< n ^^^ q', ?_⟩
  rw [Nat.shiftLeft_xor_distrib, Nat.xor_assoc, hq', gf2Mul_xor, gf2Mul_shiftLeft, Nat.xor_assoc]

theorem IsGf2Rem.of_shiftLeft {n : Nat} (h : IsGf2Rem k g v r) (h' : IsGf2Rem k g (r <<< n) r') :
    IsGf2Rem k g (v <<< n) r' := by
  rw [← Nat.xor_zero (_ <<< n)] at h' ⊢
  exact h.of_shiftLeft_xor h'

end

end Sys2Proof.Machine
end

section
/-! PROOFS. The serial divider (`45_crc.md` R143 to R149): a step is a shift and a reduction, so the register is the
remainder of the bits consumed. -/

namespace Sys2Proof.Machine

section
variable {k g r : Nat} (hk : 1 ≤ k) (hlo : 2 ^ k ≤ g) (hhi : g < 2 ^ (k + 1)) (hr : r < 2 ^ k)
include hk hlo hhi hr

/-- A step takes the bit in and subtracts the divisor when a 1 reached bit k (R143): the cut to k bits and the
polynomial's lower k bits are the two halves of that subtraction. -/
theorem serialStep_eq_reduced (c : Bool) :
    serialStep k (g % 2 ^ k) r c =
      Nat.bit c r ^^^ (if r.testBit (k - 1) then g else 0) := by
  have hin : Nat.bit c r < 2 ^ (k + 1) := Nat.bit_lt_two_pow_succ_iff.2 hr
  have hsub : (if r.testBit (k - 1) then g else 0) < 2 ^ (k + 1) := by
    split
    · exact hhi
    · exact Nat.two_pow_pos _
  have htop : (Nat.bit c r).testBit k = (if r.testBit (k - 1) then g else 0).testBit k := by
    obtain ⟨j, rfl⟩ := Nat.exists_eq_add_of_le' hk
    rw [Nat.testBit_bit_succ, Nat.add_sub_cancel]
    cases r.testBit j
    · exact (Nat.zero_testBit _).symm
    · exact (Nat.testBit_of_two_pow_le_and_two_pow_add_one_gt hlo hhi).symm
  rw [← Nat.mod_eq_of_lt (xor_lt_two_pow_of_testBit_eq hin hsub htop), Nat.xor_mod_two_pow,
    apply_ite (· % 2 ^ k), Nat.zero_mod, serialStep_eq, Nat.bit_val]

theorem serialStep_isGf2Rem (c : Bool) :
    IsGf2Rem k g (r <<< 1 ^^^ c.toNat) (serialStep k (g % 2 ^ k) r c) := by
  refine ⟨serialStep_lt (Nat.mod_lt _ (Nat.two_pow_pos k)) r c, (r.testBit (k - 1)).toNat, ?_⟩
  rw [gf2Mul_toNat, serialStep_eq_reduced hk hlo hhi hr, shiftLeft_one_xor_toNat, Nat.bit_val,
    Nat.xor_comm, Nat.xor_assoc, Nat.xor_self, Nat.xor_zero]

/-- The register after some bits is the remainder of the number they make up, the register before them in front
(R149). -/
theorem serialFeed_isGf2Rem (bits : List Bool) :
    IsGf2Rem k g (r <<< bits.length ^^^ bitsToNat bits) (serialFeed k (g % 2 ^ k) r bits) := by
  induction bits using List.reverseRecOn with
  | nil => simpa [bitsToNat] using IsGf2Rem.self hr
  | append_singleton bits c ih =>
    have hstep := ih.of_shiftLeft_xor (serialStep_isGf2Rem hk hlo hhi ih.lt c)
    rw [Nat.shiftLeft_xor_distrib, ← Nat.shiftLeft_add, Nat.xor_assoc, shiftLeft_one_xor_toNat,
      ← bitsToNat_concat] at hstep
    rw [List.length_append, serialFeed_append]
    exact hstep

/-- Padding multiplies by a power of x (R148). -/
theorem serialPad_isGf2Rem (n : Nat) :
    IsGf2Rem k g (r <<< n) (serialPad k (g % 2 ^ k) r n) := by
  have hfeed := serialFeed_isGf2Rem hk hlo hhi hr (List.replicate n false)
  rwa [List.length_replicate, bitsToNat_replicate_false, Nat.xor_zero] at hfeed

end

/-- Settles O51: the law of feeding, and padding the register it leaves. -/
theorem serialRegisterIsTheRemainder : Obligations.SerialRegisterIsTheRemainder := by
  intro k g init bits hk hlo hhi hinit
  have hfeed := serialFeed_isGf2Rem hk hlo hhi hinit bits
  refine ⟨hfeed, ?_⟩
  have hpad := hfeed.of_shiftLeft (serialPad_isGf2Rem hk hlo hhi hfeed.lt k)
  rwa [Nat.shiftLeft_xor_distrib, ← Nat.shiftLeft_add] at hpad

/-! ### What the serial divider tells apart (R159) -/

section
variable {k g r r' : Nat} (hk : 1 ≤ k) (hlo : 2 ^ k ≤ g) (hhi : g < 2 ^ (k + 1))
include hk hlo hhi

/-- With a divisor of constant term 1, bit 0 shows whether the divisor was subtracted, so a step can be undone. -/
theorem serialStep_injective (hodd : g.testBit 0 = true) (hr : r < 2 ^ k) (hr' : r' < 2 ^ k)
    {c : Bool} (h : serialStep k (g % 2 ^ k) r c = serialStep k (g % 2 ^ k) r' c) : r = r' := by
  rw [serialStep_eq_reduced hk hlo hhi hr, serialStep_eq_reduced hk hlo hhi hr'] at h
  have htop : r.testBit (k - 1) = r'.testBit (k - 1) := by
    have hlow := congrArg (Nat.testBit · 0) h
    simp only [Nat.testBit_xor, Nat.testBit_bit_zero, apply_ite (Nat.testBit · 0), hodd,
      Nat.zero_testBit] at hlow
    simpa using hlow
  rw [htop, Nat.xor_left_inj] at h
  simpa only [Nat.bit_shiftRight_one] using congrArg (· >>> 1) h

theorem serialFeed_injective (hodd : g.testBit 0 = true) (bits : List Bool) (hr : r < 2 ^ k)
    (hr' : r' < 2 ^ k)
    (h : serialFeed k (g % 2 ^ k) r bits = serialFeed k (g % 2 ^ k) r' bits) : r = r' := by
  induction bits generalizing r r' with
  | nil => exact h
  | cons c rest ih =>
    have hpoly : g % 2 ^ k < 2 ^ k := Nat.mod_lt _ (Nat.two_pow_pos k)
    exact serialStep_injective hk hlo hhi hodd hr hr'
      (ih (serialStep_lt hpoly r c) (serialStep_lt hpoly r' c) h)

/-- Two different runs of at most k bits leave different registers: they differ by a number below the divisor. -/
theorem serialFeed_burst_injective (hr : r < 2 ^ k) {run run' : List Bool}
    (hlength : run.length = run'.length) (hshort : run.length ≤ k)
    (h : serialFeed k (g % 2 ^ k) r run = serialFeed k (g % 2 ^ k) r run') : run = run' := by
  have hrem := (serialFeed_isGf2Rem hk hlo hhi hr run).xor (serialFeed_isGf2Rem hk hlo hhi hr run')
  have hdiff : r <<< run.length ^^^ bitsToNat run ^^^ (r <<< run'.length ^^^ bitsToNat run') =
      bitsToNat run ^^^ bitsToNat run' := by
    rw [← hlength, Nat.xor_comm (r <<< run.length), Nat.xor_assoc, Nat.xor_xor_cancel_left]
  rw [h, Nat.xor_self, hdiff] at hrem
  have hlt : bitsToNat run ^^^ bitsToNat run' < 2 ^ k :=
    (Nat.xor_lt_two_pow (bitsToNat_lt run) (hlength ▸ bitsToNat_lt run')).trans_le
      (Nat.pow_le_pow_right (by decide) hshort)
  exact bitsToNat_inj hlength (Nat.xor_eq_zero_iff.1 (IsGf2Rem.unique hlo hhi (.self hlt) hrem))

end

end Sys2Proof.Machine
end

section
/-! PROOFS. The table-driven divider (`45_crc.md` R152 to R155): an entry is the remainder of its index times x^k,
and one entry does what eight steps and the padding do (R158). -/

namespace Sys2Proof.Machine

/-! ### The byte in feed order -/

/-- A byte is the number its bits make up, bit 7 first (R16). -/
theorem bitsToNat_msbFirst : ∀ d : Byte, bitsToNat (msbFirst d) = d.toNat := by decide

theorem packMsb_msbFirst (d : Byte) : packMsb (msbFirst d) = d := by
  rw [packMsb, bitsToNat_msbFirst, BitVec.ofNat_toNat, BitVec.setWidth_eq]

/-- `feedbyte(b)` is the byte or its reversal (R145). -/
theorem feedByte_eq (order refin : Bool) (d : Byte) :
    feedByte order refin d = if order ^^ refin then revByte d else d := by
  unfold feedByte feed
  cases order <;> cases refin
  case false.false => exact packMsb_msbFirst d
  case false.true => exact packMsb_msbFirst (revByte d)
  case true.false => exact (congrArg packMsb (msbFirst_revByte d)).symm.trans (packMsb_msbFirst _)
  case true.true => exact (congrArg packMsb (lsbFirst_revByte d)).trans (packMsb_msbFirst d)

theorem feedByte_getLsbD (order refin : Bool) (d : Byte) {j : Nat} (hj : j < 8) :
    (feedByte order refin d).getLsbD j = d.getLsbD (if order ^^ refin then 7 - j else j) := by
  rw [feedByte_eq]
  split
  · exact revByte_getLsbD d hj
  · rfl

theorem consumedBits_length (act : Act) (d : Byte) : (consumedBits act d).length = 8 := by
  unfold consumedBits
  split <;> rfl

theorem feedByte_toNat (act : Act) (d : Byte) :
    (feedByte act.order act.refin d).toNat = bitsToNat (consumedBits act d) := by
  have hlt := bitsToNat_lt (consumedBits act d)
  rw [consumedBits_length] at hlt
  rw [feedByte, feed_eq_consumedBits, packMsb, BitVec.toNat_ofNat, Nat.mod_eq_of_lt hlt]

/-! ### One byte -/

/-- For k of at least 8 the index is the register's top byte XOR the byte (R154). -/
theorem tableIndex_of_le {k : Nat} (hk : 8 ≤ k) (r : Nat) (u : Byte) :
    tableIndex k r u = r / 2 ^ (k - 8) % 256 ^^^ u.toNat := by
  have hwidth : k - 1 + 1 - (k - 8) = 8 := by omega
  rw [tableIndex, if_pos hk, slice, hwidth, trunc, Nat.shiftRight_eq_div_pow]
  rfl

/-- For k below 8 it is the register at the top of a byte XOR the byte (R155). -/
theorem tableIndex_of_lt {k : Nat} (hk : k < 8) (r : Nat) (u : Byte) :
    tableIndex k r u = r * 2 ^ (8 - k) ^^^ u.toNat := by
  rw [tableIndex, if_neg (Nat.not_le.2 hk), Nat.shiftLeft_eq]

theorem tableStep_of_le {k : Nat} (hk : 8 ≤ k) (t : List Nat) (r : Nat) (u : Byte) :
    tableStep k t r u = r * 256 % 2 ^ k ^^^ t.getD (tableIndex k r u) 0 := by
  rw [tableStep, if_pos hk, trunc, Nat.shiftLeft_eq]

theorem tableStep_of_lt {k : Nat} (hk : k < 8) (t : List Nat) (r : Nat) (u : Byte) :
    tableStep k t r u = t.getD (tableIndex k r u) 0 := by
  rw [tableStep, if_neg (Nat.not_le.2 hk)]

/-- The index never passes the end of the table. -/
theorem tableIndex_lt {k r : Nat} (hr : r < 2 ^ k) (u : Byte) : tableIndex k r u < 256 := by
  obtain hk | hk := (Nat.lt_or_ge k 8).symm
  · rw [tableIndex_of_le hk]
    exact Nat.xor_lt_two_pow (n := 8) (Nat.mod_lt _ (by decide)) u.isLt
  · have htop : r * 2 ^ (8 - k) < 2 ^ 8 := by
      calc r * 2 ^ (8 - k) < 2 ^ k * 2 ^ (8 - k) :=
            Nat.mul_lt_mul_of_pos_right hr (Nat.two_pow_pos _)
        _ = 2 ^ 8 := by rw [← pow_add, Nat.add_sub_of_le hk.le]
    rw [tableIndex_of_lt hk]
    exact Nat.xor_lt_two_pow htop u.isLt

/-- What `ABSORB` adds to the register, the byte at x^k, has the index at x^k: with the register's low bits above
it for k of at least 8, alone for k below 8. -/
theorem shiftLeft_xor_eq_tableIndex_of_le {k r : Nat} (hk : 8 ≤ k) (hr : r < 2 ^ k) (u : Byte) :
    r <<< 8 ^^^ u.toNat <<< k = r * 256 % 2 ^ k ^^^ tableIndex k r u <<< k := by
  have htop : r / 2 ^ (k - 8) < 256 := by
    rw [show 256 = 2 ^ 8 from rfl, Nat.div_lt_iff_lt_mul (Nat.two_pow_pos _), ← pow_add,
      Nat.add_sub_of_le hk]
    exact hr
  have hcut : (r <<< 8) >>> k = r / 2 ^ (k - 8) % 256 := by
    rw [Nat.mod_eq_of_lt htop, Nat.shiftLeft_eq, Nat.shiftRight_eq_div_pow]
    conv_lhs => rw [← Nat.sub_add_cancel hk, pow_add]
    exact Nat.mul_div_mul_right _ _ (by decide)
  rw [tableIndex_of_le hk, ← hcut, Nat.shiftLeft_xor_distrib, ← Nat.xor_assoc,
    show r * 256 = r <<< 8 from (Nat.shiftLeft_eq r 8).symm, mod_two_pow_xor_shiftRight]

theorem shiftLeft_xor_eq_tableIndex_of_lt {k : Nat} (hk : k < 8) (r : Nat) (u : Byte) :
    r <<< 8 ^^^ u.toNat <<< k = tableIndex k r u <<< k := by
  rw [tableIndex_of_lt hk, Nat.shiftLeft_xor_distrib, ← Nat.shiftLeft_eq, ← Nat.shiftLeft_add,
    Nat.sub_add_cancel hk.le]

section
variable {k g r : Nat} (hk : 1 ≤ k) (hlo : 2 ^ k ≤ g) (hhi : g < 2 ^ (k + 1))
include hk hlo hhi

/-- `T[i] = (i * x^k) mod G` (R152). -/
theorem tableEntry_isGf2Rem {i : Nat} (hi : i < 256) :
    IsGf2Rem k g (i <<< k) (tableEntry k (g % 2 ^ k) i) := by
  have hfeed := serialFeed_isGf2Rem hk hlo hhi (Nat.two_pow_pos k) (msbFirst (BitVec.ofNat 8 i))
  rw [Nat.zero_shiftLeft, Nat.zero_xor, bitsToNat_msbFirst, BitVec.toNat_ofNat,
    Nat.mod_eq_of_lt (show i < 2 ^ 8 from hi)] at hfeed
  exact hfeed.of_shiftLeft (serialPad_isGf2Rem hk hlo hhi hfeed.lt k)

/-- One table entry reduces the register and the byte at x^k (R155). -/
theorem tableStep_isGf2Rem (hr : r < 2 ^ k) (u : Byte) :
    IsGf2Rem k g (r <<< 8 ^^^ u.toNat <<< k) (tableStep k (crcTable k (g % 2 ^ k)) r u) := by
  have hindex := tableIndex_lt hr u
  have hentry := tableEntry_isGf2Rem hk hlo hhi hindex
  rw [← crcTable_getD hindex] at hentry
  obtain hk8 | hk8 := (Nat.lt_or_ge k 8).symm
  · rw [tableStep_of_le hk8, shiftLeft_xor_eq_tableIndex_of_le hk8 hr]
    exact (IsGf2Rem.self (Nat.mod_lt _ (Nat.two_pow_pos k))).xor hentry
  · rw [tableStep_of_lt hk8, shiftLeft_xor_eq_tableIndex_of_lt hk8]
    exact hentry

/-- The table-driven divider runs k zero bits ahead of the serial one, at every byte (R158): both registers are the
remainder of one number. -/
theorem tableStep_serialPad (hr : r < 2 ^ k) (act : Act) (d : Byte) :
    tableStep k (crcTable k (g % 2 ^ k)) (serialPad k (g % 2 ^ k) r k)
        (feedByte act.order act.refin d) =
      serialPad k (g % 2 ^ k) (serialFeed k (g % 2 ^ k) r (feed act.order act.refin d)) k := by
  have hpad := serialPad_isGf2Rem hk hlo hhi hr k
  have htable := hpad.of_shiftLeft_xor
    (tableStep_isGf2Rem hk hlo hhi hpad.lt (feedByte act.order act.refin d))
  have hfeed := serialFeed_isGf2Rem hk hlo hhi hr (consumedBits act d)
  have hserial := hfeed.of_shiftLeft (serialPad_isGf2Rem hk hlo hhi hfeed.lt k)
  rw [consumedBits_length, Nat.shiftLeft_xor_distrib, ← Nat.shiftLeft_add, Nat.add_comm,
    Nat.shiftLeft_add, ← feedByte_toNat] at hserial
  rw [feed_eq_consumedBits]
  exact htable.unique hlo hhi hserial

end

end Sys2Proof.Machine
end

section
/-! PROOFS. `NEW.CRC` and `NEW.CRCT` (`45_crc.md` R142, R150, R157): the check of the staged Polynomial, and what
an accepted one leaves in `ACT`, `R` and `T`. -/

namespace Sys2Proof.Machine

/-- The check of `NEW.CRC` and `NEW.CRCT` is the seven conditions of R142; bits 7:3 of the flags are clear in the
numbers below 8. -/
theorem Cfg.crcValid_iff (p : Params) (c : Cfg) : c.crcValid p = true ↔ c.StagedPolyOk p := by
  have hflags : c.flags.toNat >>> 3 = 0 ↔ c.flags.toNat < 8 := by
    rw [Nat.shiftRight_eq_div_pow]
    omega
  simp only [Cfg.crcValid, Bool.and_eq_true, decide_eq_true_eq, and_assoc, hflags]

/-- The Polynomial latched from `CFG`, the leading term of the divisor written as a power of 2 (R38). -/
theorem Cfg.crcAct_eq (c : Cfg) (alg : Alg) (act : Act) :
    c.crcAct alg act = { act with
      alg := alg, k := c.width, g := c.poly ||| 2 ^ c.width.toNat, init := c.init,
      xorout := c.xorout, order := c.flags.getLsbD 0, refin := c.flags.getLsbD 1,
      refout := c.flags.getLsbD 2 } := by
  rw [Cfg.crcAct, Nat.one_shiftLeft]

theorem execNewCrc_of_valid {s : State} (h : s.blk.cfg.crcValid s.par = true) :
    exec .newCrc s = s.answer
      { s.blk with
        act := s.blk.cfg.crcAct .crc s.blk.act
        r := s.blk.cfg.init
        phase := .active } 0 := by simp only [exec, execNewCrc, h, if_true]

theorem execNewCrct_of_valid {s : State} (h : s.blk.cfg.crcValid s.par = true) {act : Act}
    (hact : act = s.blk.cfg.crcAct .crct s.blk.act) :
    exec .newCrct s = s.answer
      { s.blk with
        act := act
        t := crcTable act.k.toNat act.poly
        r := convertedSeed act
        phase := .active } 0 := by simp only [exec, execNewCrct, h, if_true, hact]

/-- Settles O23: the check is R142's, and the answer latches the Polynomial. -/
theorem newCrcLatchesTheStagedPolynomial : Obligations.NewCrcLatchesTheStagedPolynomial := by
  refine ⟨by decide, fun s => ⟨fun hstaged => ?_, fun hrefused => ?_⟩⟩
  · rw [execNewCrc_of_valid ((Cfg.crcValid_iff _ _).2 hstaged), Cfg.crcAct_eq, State.answer_eq]
  · have hinvalid := Bool.eq_false_iff.2 (mt (Cfg.crcValid_iff _ _).1 hrefused)
    rw [execNewCrc_of_invalid hinvalid, State.raise_eq]

/-- Settles O24: the entries and the seed are remainders by the laws of the table and of padding, for the divisor
`NEW.CRCT` latches. -/
theorem newCrctBuildsTableAndSeed : Obligations.NewCrctBuildsTableAndSeed := by
  refine ⟨by decide, fun s => ⟨fun hstaged => ?_, fun hrefused => ?_⟩⟩
  · have hvalid := (Cfg.crcValid_iff _ _).2 hstaged
    obtain ⟨hk, -, hlo, hhi, hinit, -⟩ := Cfg.crcAct_polyOk hvalid .crct s.blk.act
    have hact := (Cfg.crcAct_eq s.blk.cfg .crct s.blk.act).symm
    rw [← hact] at hk hlo hhi hinit
    refine ⟨_, _, (execNewCrct_of_valid hvalid hact).trans (s.answer_eq _ 0), crcTable_length _ _,
      fun i hi => ?_, serialPad_isGf2Rem hk hlo hhi hinit _⟩
    rw [crcTable_getD hi]
    exact tableEntry_isGf2Rem hk hlo hhi hi
  · have hinvalid := Bool.eq_false_iff.2 (mt (Cfg.crcValid_iff _ _).1 hrefused)
    rw [execNewCrct_of_invalid hinvalid, State.raise_eq]

end Sys2Proof.Machine
end

section
/-! PROOFS. `ABSORB` and `FINALIZE` under the two dividers (`45_crc.md` R145 to R149, R154 to R156): the state they
leave, and the remainder in it. -/

namespace Sys2Proof.Machine

/-! ### One byte -/

theorem Block.absorbByte_of_crct {blk : Block} (p : Params) (d : Byte) (halg : blk.act.alg = .crct) :
    blk.absorbByte p d = absorbByteCrct d blk := by simp only [Block.absorbByte, halg]

/-- In `ACTIVE` the invariant gives a computation in flight. -/
theorem State.Inv.computes {s : State} (hs : s.Inv) (hphase : s.blk.phase = .active) :
    s.blk.Computes s.par := by
  obtain ⟨-, hblk, -⟩ := hs
  exact hblk.computes (by simp [hphase])

/-- Settles O31: the byte is `feedbyte`, and the two cases are those of the index. -/
theorem absorbStepsTheTableDivider : Obligations.AbsorbStepsTheTableDivider := by
  intro d s hphase halg
  refine ⟨feedByte s.blk.act.order s.blk.act.refin d, fun j hj => feedByte_getLsbD _ _ d hj, ?_⟩
  rw [exec_absorb_of_active hphase, Block.absorbByte_of_crct _ _ halg, absorbByteCrct,
    State.answer_eq]
  constructor
  · intro hk
    rw [tableStep_of_le hk, tableIndex_of_le hk]
  · intro hk
    rw [tableStep_of_lt hk, tableIndex_of_lt hk]

/-- Settles O32: the laws of feeding and of one table entry, under the Polynomial and the table the invariant
gives. -/
theorem absorbDividesByTheGenerator : Obligations.AbsorbDividesByTheGenerator := by
  intro d s hs hphase
  have hcomputes := hs.computes hphase
  rw [exec_absorb_of_active hphase]
  constructor
  · intro halg
    obtain ⟨⟨hk, -, hlo, hhi, -⟩, hr⟩ := hcomputes.crc (.inl halg)
    have hfeed := serialFeed_isGf2Rem hk hlo hhi hr (consumedBits s.blk.act d)
    rw [consumedBits_length] at hfeed
    rw [Block.absorbByte_of_crc _ _ halg, absorbByteCrc, feed_eq_consumedBits]
    exact ⟨_, State.answer_eq .., hfeed⟩
  · intro halg
    obtain ⟨⟨hk, -, hlo, hhi, -⟩, hr⟩ := hcomputes.crc (.inr halg)
    have htable : s.blk.t = crcTable s.blk.act.k.toNat (s.blk.act.g % 2 ^ s.blk.act.k.toNat) :=
      hcomputes.table halg
    have hstep := tableStep_isGf2Rem hk hlo hhi hr (feedByte s.blk.act.order s.blk.act.refin d)
    rw [feedByte_toNat, ← htable] at hstep
    rw [Block.absorbByte_of_crct _ _ halg, absorbByteCrct]
    exact ⟨_, State.answer_eq .., hstep⟩

/-! ### The answer -/

/-- `FINALIZE` in `ACTIVE` (R179). -/
theorem exec_finalize_of_active {s : State} (hphase : s.blk.phase = .active) :
    exec .finalize s =
      s.answer { s.blk with result := s.blk.value, phase := .final } s.blk.value := by
  simp only [exec, execFinalize, hphase, Block.finalized_of_active hphase]

theorem Block.value_of_crc {blk : Block} (halg : blk.act.alg = .crc) :
    blk.value = crcOutput blk.act (serialPad blk.act.k.toNat blk.act.poly blk.r blk.act.k.toNat) := by
  simp only [Block.value, halg, valueCrc]

theorem Block.value_of_crct {blk : Block} (halg : blk.act.alg = .crct) :
    blk.value = crcOutput blk.act blk.r := by
  simp only [Block.value, halg, valueCrct]

section
variable {act : Act} {rem : Nat} (hrem : rem < 2 ^ act.k.toNat)
include hrem

/-- The output steps bit by bit (R148): nothing stands above bit k-1. -/
theorem crcOutput_testBit (hxorout : act.xorout < 2 ^ act.k.toNat) (i : Nat) :
    (crcOutput act rem).testBit i = (decide (i < act.k.toNat) &&
      (rem.testBit (if act.refout then act.k.toNat - 1 - i else i) ^^ act.xorout.testBit i)) := by
  by_cases hi : i < act.k.toNat
  · rw [crcOutput, Nat.testBit_xor, decide_eq_true hi, Bool.true_and]
    split
    · rw [revBits_testBit, decide_eq_true hi, Bool.true_and]
    · rfl
  · rw [decide_eq_false hi, Bool.false_and]
    exact Nat.testBit_lt_two_pow ((crcOutput_lt hxorout hrem).trans_le
      (Nat.pow_le_pow_right (by decide) (Nat.le_of_not_lt hi)))

/-- The output steps can be undone: reversing twice gives the remainder back. -/
theorem crcOutput_injective {rem' : Nat} (hrem' : rem' < 2 ^ act.k.toNat)
    (h : crcOutput act rem = crcOutput act rem') : rem = rem' := by
  have hsteps := Nat.xor_left_inj.1 h
  split at hsteps
  · rw [← revBits_revBits hrem, hsteps, revBits_revBits hrem']
  · exact hsteps

end

/-- Settles O52: `ABSORB` and `FINALIZE` compute a remainder, and there is only one. -/
theorem machineComputesTheOnlyRemainder : Obligations.MachineComputesTheOnlyRemainder := by
  intro s hs hphase
  have hcomputes := hs.computes hphase
  constructor
  · intro d r hremainder
    obtain ⟨hcrc, hcrct⟩ := absorbDividesByTheGenerator d s hs hphase
    obtain ⟨halg, hrem⟩ | ⟨halg, hrem⟩ := hremainder
    · obtain ⟨⟨-, -, hlo, hhi, -⟩, -⟩ := hcomputes.crc (.inl halg)
      obtain ⟨r', hexec, hrem'⟩ := hcrc halg
      rw [hexec, hrem.unique hlo hhi hrem']
    · obtain ⟨⟨-, -, hlo, hhi, -⟩, -⟩ := hcomputes.crc (.inr halg)
      obtain ⟨r', hexec, hrem'⟩ := hcrct halg
      rw [hexec, hrem.unique hlo hhi hrem']
  · intro rem halg hrem
    obtain ⟨⟨hk, -, hlo, hhi, -, hxorout⟩, hr⟩ := hcomputes.crc (.inl halg)
    have hpad : serialPad s.blk.act.k.toNat s.blk.act.poly s.blk.r s.blk.act.k.toNat = rem :=
      (serialPad_isGf2Rem hk hlo hhi hr _).unique hlo hhi hrem
    refine ⟨s.blk.value, (exec_finalize_of_active hphase).trans (State.answer_eq ..), fun i => ?_⟩
    rw [Block.value_of_crc halg, hpad, crcOutput_testBit hrem.lt hxorout]

end Sys2Proof.Machine
end

section
/-! PROOFS. Both dividers answer alike (`45_crc.md` R158): the table-driven one is k zero bits ahead of the serial one
after every byte, and the serial one makes up for it with its padding. -/

namespace Sys2Proof.Machine

/-- Block `y` runs the table-driven divider where `x` runs the serial one, k zero bits ahead of it. -/
structure Block.RunsAhead (p : Params) (x y : Block) : Prop where
  alg : x.act.alg = .crc
  act : y.act = { x.act with alg := .crct }
  poly : x.act.PolyOk p
  r_lt : x.r < 2 ^ x.act.k.toNat
  table : y.t = crcTable x.act.k.toNat x.act.poly
  ahead : y.r = serialPad x.act.k.toNat x.act.poly x.r x.act.k.toNat

section
variable {p : Params} {x y : Block}

theorem Block.RunsAhead.alg_crct (h : x.RunsAhead p y) : y.act.alg = .crct := by rw [h.act]

theorem Block.RunsAhead.absorbByte (h : x.RunsAhead p y) (d : Byte) :
    (x.absorbByte p d).RunsAhead p (y.absorbByte p d) := by
  obtain ⟨hk, -, hlo, hhi, -⟩ := id h.poly
  rw [Block.absorbByte_of_crc _ _ h.alg, Block.absorbByte_of_crct _ _ h.alg_crct]
  refine ⟨h.alg, h.act, h.poly, serialFeed_lt x.act.poly_lt h.r_lt _, h.table, ?_⟩
  rw [absorbByteCrct, h.act, h.table, h.ahead]
  exact tableStep_serialPad hk hlo hhi h.r_lt x.act d

theorem Block.RunsAhead.absorbAll (h : x.RunsAhead p y) (data : List Byte) :
    (x.absorbAll p data).RunsAhead p (y.absorbAll p data) := by
  induction data generalizing x y with
  | nil => exact h
  | cons d rest ih => exact ih (h.absorbByte d)

/-- The padding the serial divider still has to do is the lead of the table-driven one (R148, R156). -/
theorem Block.RunsAhead.value_eq (h : x.RunsAhead p y) : y.value = x.value := by
  rw [Block.value_of_crct h.alg_crct, Block.value_of_crc h.alg, h.ahead, h.act]
  rfl

end

/-- The block `NEW.CRCT` leaves runs ahead of the one `NEW.CRC` leaves: the converted seed is the seed padded (R153). -/
theorem Block.runsAhead_of_crcValid {p : Params} {blk : Block} (hvalid : blk.cfg.crcValid p = true)
    {act : Act} (hact : act = blk.cfg.crcAct .crct blk.act) :
    Block.RunsAhead p
      { blk with act := blk.cfg.crcAct .crc blk.act, r := blk.cfg.init, phase := .active }
      { blk with
        act := act
        t := crcTable act.k.toNat act.poly
        r := convertedSeed act
        phase := .active } := by
  have hpoly := Cfg.crcAct_polyOk hvalid .crc blk.act
  obtain ⟨-, -, -, -, hinit, -⟩ := id hpoly
  subst hact
  exact ⟨rfl, rfl, hpoly, hinit, rfl, rfl⟩

/-- Bytes absorbed in `ACTIVE` and finalized answer the value of the whole Data Word (R186). -/
theorem perform_absorbSeq_finalize (data : List Byte) {s : State} (hphase : s.blk.phase = .active)
    {blk : Block} (hblk : blk = s.blk.absorbAll s.par data) :
    perform (absorbSeq data ++ [.finalize]) s =
      s.answer { blk with result := blk.value, phase := .final } blk.value := by
  induction data generalizing s with
  | nil =>
    subst hblk
    exact perform_cons_ok (exec_finalize_of_active hphase) rfl
  | cons d rest ih =>
    have hstep := (exec_absorb_of_active hphase d).trans (s.answer_eq _ 0)
    have hnext := (s.blk.absorbByte_phase s.par d).trans hphase
    exact (perform_cons_ok hstep rfl).trans (ih hnext hblk)

/-- `COMPUTE` once its `NEW` has answered `OK` (R81, R186). -/
theorem perform_computeCmds {alg : Alg} {s : State} {blk : Block} (data : List Byte)
    (hnew : exec (Instr.newOf alg) s = s.answer blk 0) (hphase : blk.phase = .active) :
    ∃ t, perform (computeCmds alg.sel data) s = .next t ∧
      t.resp = some ⟨.ok, (blk.absorbAll s.par data).value⟩ := by
  rw [computeCmds, decodeNew_sel, perform_cons_ok hnew rfl]
  exact ⟨_, perform_absorbSeq_finalize data hphase rfl, rfl⟩

/-- Settles O53: after their `NEW` the table-driven divider runs ahead of the serial one, and it does so to the
end. -/
theorem tableDividerEqualsSerialDivider : Obligations.TableDividerEqualsSerialDivider := by
  intro s data hstaged
  have hvalid := (Cfg.crcValid_iff _ _).2 hstaged
  obtain ⟨t, ht, htresp⟩ := perform_computeCmds (alg := .crc) data (execNewCrc_of_valid hvalid) rfl
  obtain ⟨u, hu, huresp⟩ :=
    perform_computeCmds (alg := .crct) data (execNewCrct_of_valid hvalid rfl) rfl
  have hahead := Block.runsAhead_of_crcValid hvalid rfl
  rw [(hahead.absorbAll data).value_eq] at huresp
  exact ⟨t, u, _, ht, htresp, hu, huresp⟩

end Sys2Proof.Machine
end

section
/-! PROOFS. Bits absorbed and finalized under the serial divider: the bursts it detects (`45_crc.md` R159) and the
known answer of the source document (R162). -/

namespace Sys2Proof.Machine

theorem execAll_append {cmds rest : List Instr} {s t : State} (h : execAll cmds s = .next t) :
    execAll (cmds ++ rest) s = execAll rest t := by
  induction cmds generalizing s with
  | nil => cases h; rfl
  | cons i tail ih =>
    obtain ⟨blk, r, hi⟩ := exec_frame i s
    rw [execAll_cons hi] at h
    rw [List.cons_append, execAll_cons hi]
    exact ih h

/-- Bits absorbed by the serial divider and finalized: the register they leave, and the answer. -/
theorem execAll_absorbBits_finalize_of_crc {bits : List Bool} (hbits : bits ≠ []) {s : State}
    (hphase : s.blk.phase = .active) (halg : s.blk.act.alg = .crc) {r v : Nat}
    (hr : serialFeed s.blk.act.k.toNat s.blk.act.poly s.blk.r bits = r)
    (hv : crcOutput s.blk.act (serialPad s.blk.act.k.toNat s.blk.act.poly r s.blk.act.k.toNat) = v) :
    execAll (absorbBits bits ++ [.finalize]) s =
      s.answer { s.blk with r := r, result := v, phase := .final } v := by
  have habsorb := execAll_absorbBits (fun _ c => Block.absorbBit?_of_crc c) hbits hphase halg
  rw [foldl_absorbBitCrc, hr, State.answer_eq] at habsorb
  have hvalue : { s.blk with r := r }.value = v :=
    (Block.value_of_crc (blk := { s.blk with r := r }) halg).trans hv
  rw [← hvalue]
  exact (execAll_append habsorb).trans (execAll_cons (exec_finalize_of_active hphase))

/-- Settles O54: the runs leave different registers, and every later bit, the padding and the output steps keep
them different. -/
theorem crcDetectsEveryShortBurst : Obligations.CrcDetectsEveryShortBurst := by
  intro s before run run' after hs hphase halg hodd hlength hshort hne
  obtain ⟨⟨hk, -, hlo, hhi, -⟩, hr⟩ := (hs.computes hphase).crc (.inl halg)
  have hlt {r : Nat} (hr : r < 2 ^ s.blk.act.k.toNat) (bits : List Bool) :=
    serialFeed_lt s.blk.act.poly_lt hr bits
  have hbefore := hlt hr before
  have hrun : run ≠ [] := by
    rintro rfl
    exact hne (List.length_eq_zero_iff.1 hlength.symm).symm
  have hrun' : run' ≠ [] := by
    rintro rfl
    exact hrun (List.length_eq_zero_iff.1 hlength)
  refine ⟨_, _, execAll_absorbBits_finalize_of_crc (by simp [hrun]) hphase halg rfl rfl,
    execAll_absorbBits_finalize_of_crc (by simp [hrun']) hphase halg rfl rfl, fun hresp => hne ?_⟩
  simp only [State.withResp_resp, Option.some.injEq, Response.mk.injEq, true_and,
    serialFeed_append] at hresp
  have hpadded := crcOutput_injective (hlt (hlt (hlt hbefore run) after) _)
    (hlt (hlt (hlt hbefore run') after) _) hresp
  have hfed := serialFeed_injective hk hlo hhi hodd _ (hlt (hlt hbefore run) after)
    (hlt (hlt hbefore run') after) hpadded
  have hrunFed := serialFeed_injective hk hlo hhi hodd after (hlt hbefore run) (hlt hbefore run') hfed
  exact serialFeed_burst_injective hk hlo hhi hbefore hlength hshort hrunFed

/-- Settles O55: the machine's register is the last of the history, and its padding ends at 100. -/
theorem crcKnownAnswer : Obligations.CrcKnownAnswer := by
  refine ⟨by decide, by decide, fun s hphase halg hk hg hrefout hxorout hr => ?_⟩
  have hdegree : s.blk.act.k.toNat = 3 := by rw [hk]; rfl
  have hpoly : s.blk.act.poly = 0b011 := by rw [Act.poly, hdegree, hg]; rfl
  have hrem : serialPad 3 0b011 0b101 3 = 0b100 := by decide
  refine ⟨_, execAll_absorbBits_finalize_of_crc (List.cons_ne_nil _ _) hphase halg (r := 0b101)
    (v := 0b100) ?_ ?_, rfl, rfl, rfl⟩
  · rw [hdegree, hpoly, hr]
    decide
  · rw [hdegree, hpoly, hrem, crcOutput, hrefout, hxorout, if_neg Bool.false_ne_true, Nat.xor_zero]

end Sys2Proof.Machine
end

section
/-! PROOFS. The lifecycle table (`46_pipeline.md` R184): every command ends as its cell says. A refusal is then
read off the cell alone, and an answer is one of `Answers`, which says what it may write. -/

namespace Sys2Proof.Machine

/-- The outcome `o` of the command `i` is the one its cell announces: the cell's condition is raised, or the
command answers as `Answers` says, in the cell's `PHASE`, and writes nothing where the cell says "same". -/
def FollowsCell (s : State) (i : Instr) (cell : LifecycleCell) (o : Result) : Prop :=
  (∃ c, cell = .refused c s.blk.phase ∧ o = s.raise c) ∨
    ∃ blk v same, cell = ⟨.ok, blk.phase, same⟩ ∧ o = s.answer blk v ∧ Answers s i blk v ∧
      (same = true → blk = s.blk)

section
variable {s : State} {i : Instr}

theorem FollowsCell.raise {cell : LifecycleCell} {c : Condition}
    (hcell : cell = .refused c s.blk.phase) : FollowsCell s i cell (s.raise c) := .inl ⟨c, hcell, rfl⟩

/-- An answer of a cell that lets the command write. -/
theorem FollowsCell.answer {cell : LifecycleCell} {blk : Block} {v : Nat} (h : Answers s i blk v)
    (hcell : cell = ⟨.ok, blk.phase, false⟩) : FollowsCell s i cell (s.answer blk v) :=
  .inr ⟨blk, v, false, hcell, rfl, h, nofun⟩

/-- An answer of a cell that says "same". -/
theorem FollowsCell.answer_same {cell : LifecycleCell} {v : Nat} (h : Answers s i s.blk v)
    (hcell : cell = ⟨.ok, s.blk.phase, true⟩) : FollowsCell s i cell (s.answer s.blk v) :=
  .inr ⟨s.blk, v, true, hcell, rfl, h, fun _ => rfl⟩

end

/-- Every command in every state follows its cell of R184. -/
theorem exec_followsCell (i : Instr) (s : State) :
    FollowsCell s i (lifecycle s.par s.blk i) (exec i s) := by
  cases i with
  | nop => exact .answer_same .nop rfl
  | cfgclr reg => exact .answer (.cfgclr reg) rfl
  | cfgsh reg imm => exact .answer (.cfgsh reg imm) rfl
  | newParity => exact .answer .newParity rfl
  | newLrc => exact .answer .newLrc rfl
  | newAdd => exact .answer .newAdd rfl
  | newAdd1c => exact .answer .newAdd1c rfl
  | newDual =>
    simp only [exec, execNewDual, lifecycle, LifecycleCell.create]
    split
    case isTrue hvalid => exact .answer (.newDual hvalid) rfl
    case isFalse => exact .raise rfl
  | newCrc =>
    simp only [exec, execNewCrc, lifecycle, LifecycleCell.create]
    split
    case isTrue hvalid => exact .answer (.newCrc hvalid) rfl
    case isFalse => exact .raise rfl
  | newCrct =>
    simp only [exec, execNewCrct, lifecycle, LifecycleCell.create]
    split
    case isTrue hvalid => exact .answer (.newCrct hvalid _ rfl) rfl
    case isFalse => exact .raise rfl
  | newUnrecognised id => exact .raise rfl
  | absorb imm =>
    simp only [exec, execAbsorb, lifecycle]
    cases hphase : s.blk.phase with
    | idle => exact .raise (by rw [hphase])
    | active => exact .answer (.absorb imm hphase) (by rw [Block.absorbByte_phase, hphase])
    | final => exact .raise (by rw [hphase])
  | absorbbit bit =>
    simp only [exec, execAbsorbbit, lifecycle]
    have hsome := Block.absorbBit?_isSome s.blk bit
    cases hbit : s.blk.absorbBit? bit with
    | none =>
      rw [hbit, Option.isSome_none] at hsome
      simp only [← hsome]
      cases hphase : s.blk.phase <;> exact .raise (by rw [hphase])
    | some blk =>
      rw [hbit, Option.isSome_some] at hsome
      simp only [← hsome]
      cases hphase : s.blk.phase with
      | idle => exact .raise (by rw [hphase])
      | active =>
        obtain ⟨hsame, -⟩ := Block.absorbBit?_frame hbit
        exact .answer (.absorbbit bit blk hphase hbit) (by rw [hsame, hphase])
      | final => exact .raise (by rw [hphase])
  | finalize =>
    simp only [exec, execFinalize, lifecycle]
    cases hphase : s.blk.phase with
    | idle => exact .raise (by rw [hphase])
    | active => exact .answer (.finalize (by simp [hphase])) (by rw [Block.finalized_of_active hphase])
    | final =>
      have h := Answers.finalize (s := s) (by simp [hphase])
      rw [Block.finalized_of_final hphase] at h ⊢
      exact .answer_same h (by rw [hphase])
  | reset =>
    simp only [exec, execReset, lifecycle]
    cases hphase : s.blk.phase with
    | idle => exact .raise (by rw [hphase])
    | active | final => exact .answer (.reset (by simp [hphase])) rfl
  | verify =>
    simp only [exec, execVerify, lifecycle]
    cases hphase : s.blk.phase with
    | idle => exact .raise (by rw [hphase])
    | active => exact .answer (.verify (by simp [hphase])) (by rw [Block.finalized_of_active hphase])
    | final =>
      have h := Answers.verify (s := s) (by simp [hphase])
      rw [Block.finalized_of_final hphase] at h ⊢
      exact .answer_same h (by rw [hphase])
  | getbyte imm =>
    simp only [exec, execGetbyte, lifecycle]
    cases hphase : s.blk.phase with
    | idle | active => exact .raise (by rw [hphase])
    | final =>
      simp only
      by_cases himm : imm.toNat < s.blk.act.nb
      · rw [if_pos himm, if_neg (Nat.not_le.2 himm)]
        exact .answer_same (.getbyte imm hphase himm) (by rw [hphase])
      · rw [if_neg himm, if_pos (Nat.le_of_not_lt himm)]
        exact .raise (by rw [hphase])

/-- A command whose cell refuses it raises the condition of the cell. -/
theorem exec_eq_of_refused {s : State} {i : Instr} {c : Condition} {phase : Phase}
    (h : lifecycle s.par s.blk i = .refused c phase) :
    exec i s = .next { s with resp := some ⟨.error c, 0⟩ } := by
  obtain ⟨c', hcell, hexec⟩ | ⟨blk, v, same, hcell, -⟩ := exec_followsCell i s
  · cases h.symm.trans hcell
    exact hexec
  · cases h.symm.trans hcell

/-! ### What an answer writes (R44) -/

section
variable {s : State} {i : Instr} {blk : Block} {v : Nat}

theorem Answers.eq_of_configures (h : Answers s i blk v)
    (hi : (∃ reg, i = .cfgclr reg) ∨ ∃ reg imm, i = .cfgsh reg imm) :
    blk = { s.blk with cfg := blk.cfg } := by
  obtain ⟨reg, rfl⟩ | ⟨reg, imm, rfl⟩ := hi <;> cases h <;> rfl

theorem Answers.frame_of_isAbsorb (h : Answers s i blk v) (hi : isAbsorb i = true) :
    blk.SameButAccumulators s.blk := by
  cases h
  case absorb imm hphase => exact s.blk.absorbByte_frame s.par imm
  case absorbbit bit hphase hbit => exact Block.absorbBit?_frame hbit
  all_goals exact absurd hi Bool.false_ne_true

theorem Answers.frame_of_reset (h : Answers s .reset blk v) :
    blk.result = s.blk.result ∧ blk.act = s.blk.act ∧ blk.t = s.blk.t ∧ blk.cfg = s.blk.cfg := by
  cases h with
  | reset hphase => exact s.blk.init_frame.2

theorem Answers.eq_of_finalizes (h : Answers s i blk v) (hi : i = .finalize ∨ i = .verify) :
    blk = { s.blk with result := blk.result, phase := blk.phase } := by
  have hfinalized : blk = s.blk.finalized := by
    obtain rfl | rfl := hi <;> cases h <;> rfl
  subst hfinalized
  unfold Block.finalized
  cases s.blk.phase <;> rfl

theorem Block.finalized_phase {blk : Block} (h : blk.phase ≠ .idle) : blk.finalized.phase = .final := by
  cases hcase : blk.phase with
  | idle => exact absurd hcase h
  | active => rw [Block.finalized_of_active hcase]
  | final => rw [Block.finalized_of_final hcase, hcase]

/-- No answer makes `PHASE` `IDLE` (R184). -/
theorem Answers.idle_of_idle (h : Answers s i blk v) (hidle : blk.phase = .idle) :
    s.blk.phase = .idle := by
  have hkept (hi : isAbsorb i = true) : s.blk.phase = blk.phase := (h.frame_of_isAbsorb hi).1.symm
  cases h
  case nop | cfgclr | cfgsh | getbyte => exact hidle
  case absorb | absorbbit => exact (hkept rfl).trans hidle
  case finalize hphase | verify hphase => nomatch (Block.finalized_phase hphase).symm.trans hidle
  case newParity | newLrc | newAdd | newAdd1c | newDual | newCrc | newCrct | reset => nomatch hidle

end

/-- Settles O15: a command follows its cell; a refusal changes nothing, and what an answer writes is said by
`Answers`, command by command. -/
theorem lifecycleTableHolds : Obligations.LifecycleTableHolds := by
  refine ⟨fun i s => ?_, fun w why s hw => (runWord_illegal hw s).trans (s.raise_eq _)⟩
  obtain ⟨c, hcell, hexec⟩ | ⟨blk, v, same, hcell, hexec, hanswers, hsame⟩ := exec_followsCell i s
  · rw [hcell]
    exact ⟨_, _, hexec, rfl, rfl, rfl, fun _ => rfl, fun _ => rfl, fun _ => ⟨rfl, rfl, rfl, rfl⟩,
      fun _ => ⟨rfl, rfl, rfl, rfl⟩, fun _ => rfl, id⟩
  · rw [hcell]
    refine ⟨_, _, hexec, rfl, rfl, rfl, hsame, hanswers.eq_of_configures,
      fun hi => (hanswers.frame_of_isAbsorb hi).2, ?_, hanswers.eq_of_finalizes, hanswers.idle_of_idle⟩
    rintro rfl
    exact hanswers.frame_of_reset

end Sys2Proof.Machine
end

section
/-! PROOFS. The words of the generic commands (`30_encoding.md` R71, R76, R77): the number of a packed word, and
which words of an operation are refused. -/

namespace Sys2Proof.Machine

theorem packWord_toNat (op sel : BitVec 4) (imm : Byte) :
    (packWord op sel imm).toNat = op.toNat * 4096 + sel.toNat * 256 + imm.toNat := by
  have hop := opField_toNat (packWord op sel imm)
  have hsel := selField_toNat (packWord op sel imm)
  have himm := immField_toNat (packWord op sel imm)
  rw [opField_packWord] at hop
  rw [selField_packWord] at hsel
  rw [immField_packWord] at himm
  omega

theorem IllegalWord.rejectsWord {w : Word} (h : IllegalWord w) : RejectsWord w := by
  obtain ⟨why, hwhy⟩ := (decode_rejected_iff_illegalWord w).2 h
  exact fun s => (runWord_illegal hwhy s).trans (s.raise_eq _)

/-- An operation without operands has one legal word. -/
theorem rejectsWord_of_ne {op : BitVec 4} (hop : op.toNat ∈ [0, 6, 7, 8]) {w : Word}
    (hw : w.toNat / 4096 = op.toNat) (hne : w ≠ packWord op 0 0) : RejectsWord w := by
  have hpacked : (packWord op 0 0).toNat = op.toNat * 4096 := by simp [packWord_toNat]
  have hnumber : w.toNat ≠ op.toNat * 4096 := fun heq =>
    hne (BitVec.eq_of_toNat_eq (heq.trans hpacked.symm))
  have hselOps : [0, 6, 7, 8] ⊆ [0, 4, 5, 6, 7, 8, 9] := by decide
  have himmOps : [0, 6, 7, 8] ⊆ [0, 1, 3, 6, 7, 8] := by decide
  have hfields : w.toNat / 256 % 16 ≠ 0 ∨ w.toNat % 256 ≠ 0 := by omega
  apply IllegalWord.rejectsWord
  rw [IllegalWord, hw]
  obtain hsel | himm := hfields
  · exact .inr (.inr (.inl ⟨hselOps hop, hsel⟩))
  · exact .inr (.inr (.inr (.inl ⟨himmOps hop, himm⟩)))

end Sys2Proof.Machine
end

section
/-! PROOFS. The generic commands (`46_pipeline.md` R172 to R183): a refusal is read off the lifecycle table, an
answer off `Answers`. -/

namespace Sys2Proof.Machine

/-- Settles O16: the answer is that of `NOP`, and `NOP` has one word. -/
theorem nopAnswersOkAndChangesNothing : Obligations.NopAnswersOkAndChangesNothing :=
  ⟨rfl, fun s => s.answer_eq _ 0, fun _ hop hne => rejectsWord_of_ne (op := 0) (by decide) hop hne⟩

/-- Settles O17: the register put to 0 reads 0, the others read as before. -/
theorem cfgclrClearsOneRegister : Obligations.CfgclrClearsOneRegister := by
  refine ⟨fun reg => packWord_toNat 1 reg.sel 0, fun reg s => ?_, fun w hop hfields => ?_⟩
  · exact ⟨s.blk.cfg.put reg 0, s.answer_eq _ 0, Cfg.get_put s.par _ _ (Nat.two_pow_pos _),
      fun _ hreg => Cfg.get_put_of_ne _ _ hreg⟩
  · apply IllegalWord.rejectsWord
    rw [IllegalWord, hop]
    obtain hsel | himm := hfields
    · exact .inr (.inl ⟨.inl rfl, hsel⟩)
    · exact .inr (.inr (.inr (.inl ⟨by decide, himm⟩)))

/-- Settles O18: the value shifted in has the register's width, so the register reads it back. -/
theorem cfgshShiftsOneByteIn : Obligations.CfgshShiftsOneByteIn := by
  refine ⟨fun reg imm => packWord_toNat 2 reg.sel imm, fun reg imm s => ?_, fun w hop hsel => ?_⟩
  · refine ⟨s.blk.cfg.put reg (s.blk.cfg.shiftIn s.par reg imm), s.answer_eq _ 0, ?_,
      fun _ hreg => Cfg.get_put_of_ne _ _ hreg⟩
    rw [Cfg.shiftIn, Cfg.get_put s.par _ _ (trunc_lt _ _), shiftLeft_or_eq_appendByte]
    cases reg <;> rfl
  · apply IllegalWord.rejectsWord
    rw [IllegalWord, hop]
    exact .inr (.inl ⟨.inr rfl, hsel⟩)

/-- Settles O25: no state is examined. -/
theorem newUnrecognisedAnswersUnknownAlgorithm : Obligations.NewUnrecognisedAnswersUnknownAlgorithm :=
  ⟨fun _ s => s.raise_eq _, fun id => packWord_toNat 3 id 0, rfl⟩

/-! ### `ABSORB` and `ABSORBBIT` refused -/

theorem Alg.hasBitAbsorb_iff (alg : Alg) : Alg.hasBitAbsorb alg = true ↔ alg = .parity ∨ alg = .crc := by
  cases alg <;> decide

/-- Settles O33: each refusal stands in its cell of the lifecycle table. -/
theorem refusedAbsorbsChangeNothing : Obligations.RefusedAbsorbsChangeNothing := by
  intro d c s
  refine ⟨fun hphase i hi => exec_eq_of_refused (phase := .idle) ?_, fun hparity hcrc =>
    exec_eq_of_refused (phase := s.blk.phase) ?_, fun hphase =>
    ⟨exec_eq_of_refused (phase := .final) ?_, fun halg => exec_eq_of_refused (phase := .final) ?_⟩⟩
  · obtain rfl | rfl := List.mem_pair.1 hi <;> simp only [lifecycle, hphase]
  · have hbit : Alg.hasBitAbsorb s.blk.act.alg = false :=
      Bool.eq_false_iff.2 fun h => ((Alg.hasBitAbsorb_iff _).1 h).elim hparity hcrc
    cases hphase : s.blk.phase <;> simp only [lifecycle, hbit, hphase]
  · simp only [lifecycle, hphase]
  · simp only [lifecycle, hphase, (Alg.hasBitAbsorb_iff _).2 halg]

/-! ### `FINALIZE`, `VERIFY` and `GETBYTE` -/

/-- `FINALIZE`, `VERIFY` and `RESET` outside `IDLE` (R179 to R181). -/
theorem exec_of_ne_idle {s : State} (hphase : s.blk.phase ≠ .idle) :
    exec .finalize s = s.answer s.blk.finalized s.blk.finalized.result ∧
      exec .verify s =
        s.answer s.blk.finalized (if s.blk.finalized.result = s.blk.cfg.expect then 1 else 0) ∧
      exec .reset s = s.answer { s.blk.init with phase := .active } 0 := by
  cases hcase : s.blk.phase with
  | idle => exact absurd hcase hphase
  | active | final => simp only [exec, execFinalize, execVerify, execReset, hcase, and_self]

/-- Settles O36: both commands leave the finalized block. -/
theorem verifyComparesAllBits : Obligations.VerifyComparesAllBits := by
  refine ⟨rfl, fun s => ⟨fun hphase => ?_, fun hphase => ?_⟩, fun _ hop hne =>
    rejectsWord_of_ne (op := 8) (by decide) hop hne⟩
  · obtain ⟨hfinalize, hverify, -⟩ := exec_of_ne_idle hphase
    exact ⟨_, hfinalize.trans (s.answer_eq _ _), hverify⟩
  · exact exec_eq_of_refused (phase := .idle) (by simp only [lifecycle, hphase])

theorem Block.ser_eq (blk : Block) (i : Nat) :
    blk.ser i = blk.result / 256 ^ (blk.act.nb - 1 - i) % 256 := by
  rw [Block.ser, Nat.shiftRight_eq_div_pow, pow_mul]
  rfl

/-- `GETBYTE` in `FINAL` with an index of the Check Sequence (R183). -/
theorem exec_getbyte_of_lt {imm : Byte} {s : State} (hphase : s.blk.phase = .final)
    (himm : imm.toNat < s.blk.act.nb) :
    exec (.getbyte imm) s = s.answer s.blk (s.blk.ser imm.toNat) := by
  simp only [exec, execGetbyte, hphase, if_neg (Nat.not_le.2 himm)]

theorem exec_getbyte_of_refused {imm : Byte} {s : State}
    (h : s.blk.phase ≠ .final ∨ s.blk.act.nb ≤ imm.toNat) :
    exec (.getbyte imm) s = .next { s with resp := some ⟨.error .illegalCommand, 0⟩ } := by
  apply exec_eq_of_refused (phase := s.blk.phase)
  simp only [lifecycle]
  cases hphase : s.blk.phase with
  | idle | active => rfl
  | final =>
    have himm : ¬ imm.toNat < s.blk.act.nb := Nat.not_lt.2 (h.resolve_left (not_not_intro hphase))
    simp only [if_neg himm]

/-- Settles O37: `NB` is the number of bytes of the algorithm in use, and a shift by whole bytes is a division by
a power of 256. -/
theorem getbyteAnswersOneCheckSequenceByte : Obligations.GetbyteAnswersOneCheckSequenceByte := by
  refine ⟨fun imm => packWord_toNat 9 0 imm, fun w hop hsel => ?_, fun imm s nb hnb => ?_⟩
  · apply IllegalWord.rejectsWord
    rw [IllegalWord, hop]
    exact .inr (.inr (.inl ⟨by decide, hsel⟩))
  · obtain rfl : s.blk.act.nb = nb := by
      rw [hnb]
      cases halg : s.blk.act.alg <;> simp only [Act.nb, Act.outw, halg, Nat.reduceAdd, Nat.reduceDiv]
    refine ⟨fun hphase himm => ?_, exec_getbyte_of_refused⟩
    rw [exec_getbyte_of_lt hphase himm, Block.ser_eq, State.answer_eq]

end Sys2Proof.Machine
end

section
/-! PROOFS. The ChecksumValue that `FINALIZE` answers (`46_pipeline.md` R179), the bytes that spell it (R182), and
`RESET` (R180). -/

namespace Sys2Proof.Machine

/-! ### `FINALIZE` -/

section
variable {blk : Block}

theorem Block.value_of_parity (halg : blk.act.alg = .parity) : blk.value = blk.p.toNat := by
  simp only [Block.value, halg, valueParity]

theorem Block.value_of_lrc (halg : blk.act.alg = .lrc) : blk.value = blk.l.toNat := by
  simp only [Block.value, halg, valueLrc]

theorem Block.value_of_add (halg : blk.act.alg = .add) : blk.value = blk.acc % 256 := by
  simp only [Block.value, halg, valueAdd, trunc, Nat.reducePow]

theorem Block.value_of_add1c (halg : blk.act.alg = .add1c) : blk.value = residue255 blk.acc := by
  simp only [Block.value, halg, valueAdd1c, fold8_eq_residue255]

/-- The byte `B` stands above the byte `A` (R128). -/
theorem Block.value_of_dual (halg : blk.act.alg = .dual) :
    blk.value = blk.b.toNat * 256 + blk.a.toNat := by
  simp only [Block.value, halg, valueDual]
  rw [BitVec.toNat_append, ← Nat.shiftLeft_add_eq_or_of_lt blk.a.isLt, Nat.shiftLeft_eq]

/-- What both dividers answer: the output steps on a remainder, which the serial one pads first (R148, R156). -/
theorem Block.Computes.value_of_divider {p : Params} (h : blk.Computes p)
    (halg : blk.act.alg = .crc ∨ blk.act.alg = .crct) :
    blk.value < 2 ^ blk.act.k.toNat ∧ ∃ rem,
      (blk.act.alg = .crc → IsGf2Rem blk.act.k.toNat blk.act.g (blk.r <<< blk.act.k.toNat) rem) ∧
      (blk.act.alg = .crct → rem = blk.r) ∧
      ∀ i, i < blk.act.k.toNat → blk.value.testBit i =
        (rem.testBit (if blk.act.refout then blk.act.k.toNat - 1 - i else i) ^^
          blk.act.xorout.testBit i) := by
  obtain ⟨⟨hk, -, hlo, hhi, -, hxorout⟩, hr⟩ := h.crc halg
  have houtput {rem : Nat} (hrem : rem < 2 ^ blk.act.k.toNat) (i : Nat) (hi : i < blk.act.k.toNat) :
      (crcOutput blk.act rem).testBit i =
        (rem.testBit (if blk.act.refout then blk.act.k.toNat - 1 - i else i) ^^
          blk.act.xorout.testBit i) := by
    rw [crcOutput_testBit hrem hxorout, decide_eq_true hi, Bool.true_and]
  obtain halg | halg := halg
  · have hpad := serialPad_isGf2Rem hk hlo hhi hr blk.act.k.toNat
    rw [Block.value_of_crc halg]
    exact ⟨crcOutput_lt hxorout hpad.lt, _, fun _ => hpad, fun hcrct => by simp [halg] at hcrct,
      houtput hpad.lt⟩
  · rw [Block.value_of_crct halg]
    exact ⟨crcOutput_lt hxorout hr, _, fun hcrc => by simp [halg] at hcrc, fun _ => rfl, houtput hr⟩

end

/-- Settles O34: in `ACTIVE` the answer is the value of the algorithm in use, which the lemmas above give; the cell
of `IDLE` refuses. -/
theorem finalizeAnswersTheChecksumValue : Obligations.FinalizeAnswersTheChecksumValue := by
  refine ⟨fun s hs hphase => ?_, fun s hphase => ?_⟩
  · exact ⟨s.blk.value, exec_finalize_of_active hphase, Block.value_of_parity, Block.value_of_lrc,
      Block.value_of_add, Block.value_of_add1c, Block.value_of_dual,
      (hs.computes hphase).value_of_divider⟩
  · exact exec_eq_of_refused (phase := .idle) (by simp only [lifecycle, hphase])

/-! ### The Check Sequence -/

theorem responses_cons {i : Instr} {rest : List Instr} {s t : State} (h : exec i s = .next t) :
    responses (i :: rest) s = t.resp :: responses rest t := by simp only [responses, h]

/-- The Check Sequence has at most 32 bytes, so the operand of `GETBYTE` reaches each of them (R43). -/
theorem Act.nb_le (act : Act) : act.nb ≤ 32 := by
  have hk := act.k.isLt
  unfold Act.nb Act.outw
  split <;> omega

/-- `RESULT` fits the bytes of the Check Sequence (R43). -/
theorem Act.outw_le (act : Act) : act.outw ≤ 8 * act.nb := by
  unfold Act.nb
  omega

/-- `GETBYTE` answers a byte of `RESULT` and leaves the rest to the next one (R183). -/
theorem responses_getbytes {indices : List Nat} {s : State} {blk : Block} (hblk : s.blk = blk)
    (hphase : blk.phase = .final) (hindices : ∀ i ∈ indices, i < blk.act.nb) :
    responses (indices.map fun i => .getbyte (BitVec.ofNat 8 i)) s =
      indices.map fun i => some ⟨.ok, blk.ser i⟩ := by
  induction indices generalizing s with
  | nil => rfl
  | cons i rest ih =>
    subst hblk
    obtain ⟨hi, hrest⟩ := List.forall_mem_cons.1 hindices
    have hbyte : (BitVec.ofNat 8 i).toNat = i := by
      have hnb := s.blk.act.nb_le
      rw [BitVec.toNat_ofNat]
      omega
    have hexec := exec_getbyte_of_lt (imm := BitVec.ofNat 8 i) hphase (hbyte.symm ▸ hi)
    rw [hbyte, State.answer_eq] at hexec
    rw [List.map_cons, List.map_cons, responses_cons hexec]
    exact congrArg (_ :: ·) (ih rfl hrest)

/-- The bytes of the Check Sequence, most significant first (R182). -/
def Block.checkSequence (blk : Block) : List Byte :=
  (List.range blk.act.nb).reverse.map (byteOf blk.result)

/-- Byte i of the Check Sequence is what `GETBYTE i` answers (R182, R183). -/
theorem Block.checkSequence_map_response (blk : Block) :
    blk.checkSequence.map (fun d => some (Response.mk .ok d.toNat)) =
      (List.range blk.act.nb).map fun i => some ⟨.ok, blk.ser i⟩ := by
  rw [Block.checkSequence, List.map_map, List.range_eq_range', List.reverse_range', List.map_map,
    List.range_eq_range']
  refine List.map_congr_left fun i _ => ?_
  simp only [Function.comp, byteOf, BitVec.toNat_ofNat, Block.ser, Nat.reducePow, Nat.zero_add]

/-- The Check Sequence spells `RESULT` when `RESULT` fits it (R52, R182). -/
theorem Block.foldl_checkSequence {blk : Block} (h : blk.result < 2 ^ blk.act.outw) :
    blk.checkSequence.foldl appendByte 0 = blk.result := by
  have habove : blk.result >>> (8 * blk.act.nb) = 0 := by
    rw [Nat.shiftRight_eq_div_pow,
      Nat.div_eq_of_lt (h.trans_le (Nat.pow_le_pow_right (by decide) blk.act.outw_le))]
  have hlow := foldl_appendByte_lowBytes blk.result blk.act.nb
  rwa [habove] at hlow

/-- Settles O38: `FINALIZE` answers `RESULT` and changes nothing, and each `GETBYTE` answers its byte. -/
theorem checkSequenceSpellsTheResult : Obligations.CheckSequenceSpellsTheResult := by
  intro s hs hphase
  obtain ⟨-, ⟨-, -, -, -, hfinal⟩, -⟩ := hs
  obtain ⟨-, hlt⟩ := hfinal hphase
  refine ⟨s.blk.checkSequence, by simp [Block.checkSequence], ?_, Block.foldl_checkSequence hlt⟩
  obtain ⟨hfinalize, -⟩ := exec_of_ne_idle (s := s) (by simp [hphase])
  rw [Block.finalized_of_final hphase, State.answer_eq] at hfinalize
  rw [codewordCmds, responses_cons hfinalize, Block.checkSequence_map_response]
  exact congrArg (_ :: ·) (responses_getbytes rfl hphase fun _ hi => List.mem_range.1 hi)

/-! ### `RESET` -/

/-- Settles O39: `RESET` has one word, the cell of `IDLE` refuses it, and otherwise it runs `init()` of the
algorithm in use; the converted seed is the seed padded. -/
theorem resetReinitialisesTheAccumulators : Obligations.ResetReinitialisesTheAccumulators := by
  refine ⟨rfl, fun _ hop hne => rejectsWord_of_ne (op := 7) (by decide) hop hne, fun s hs =>
    ⟨fun hphase => exec_eq_of_refused (phase := .idle) (by simp only [lifecycle, hphase]),
      fun hphase => ?_⟩⟩
  obtain ⟨-, -, hreset⟩ := exec_of_ne_idle hphase
  refine ⟨_, hreset.trans (s.answer_eq _ 0), ?_⟩
  simp only [Block.init]
  refine ⟨fun halg => ?_, fun halg => ?_, fun halg => ?_, fun halg => ?_, fun halg => ?_, fun halg => ?_⟩
  · rw [halg, initParity]
  · rw [halg, initLrc]
  · obtain halg | halg := halg
    · rw [halg, initAdd]
    · rw [halg, initAdd1c]
  · rw [halg, initDual]
  · rw [halg, initCrc]
  · obtain ⟨-, hblk, -⟩ := hs
    obtain ⟨⟨hk, -, hlo, hhi, hinit, -⟩, -⟩ := (hblk.computes hphase).crc (.inr halg)
    refine ⟨convertedSeed s.blk.act, ?_, serialPad_isGf2Rem hk hlo hhi hinit _⟩
    rw [halg, initCrct]

end Sys2Proof.Machine
end

section
/-! PROOFS. `COMPUTE` (`46_pipeline.md` R186, R81): its `NEW` answers exactly when the staged configuration is valid,
and leaves the block `init()` would. -/

namespace Sys2Proof.Machine

/-- `NEW` with a valid staged configuration leaves an initial computation of its algorithm (R175). -/
theorem exec_newOf_of_stagedOk {alg : Alg} {s : State} (h : s.blk.cfg.StagedOk s.par alg) :
    ∃ blk, exec (Instr.newOf alg) s = s.answer blk 0 ∧ blk.phase = .active ∧ blk.act.alg = alg ∧
      blk.init = blk := by
  cases alg with
  | parity | lrc | add | add1c => exact ⟨_, rfl, rfl, rfl, rfl⟩
  | dual => exact ⟨_, execNewDual_of_valid ((isPrime8_iff_prime _).2 h), rfl, rfl, rfl⟩
  | crc => exact ⟨_, execNewCrc_of_valid ((Cfg.crcValid_iff _ _).2 h), rfl, rfl, rfl⟩
  | crct => exact ⟨_, execNewCrct_of_valid ((Cfg.crcValid_iff _ _).2 h) rfl, rfl, rfl, rfl⟩

theorem exec_newOf_of_not_stagedOk {alg : Alg} {s : State} (h : ¬ s.blk.cfg.StagedOk s.par alg) :
    exec (Instr.newOf alg) s = s.raise .invalidConfig := by
  cases alg with
  | parity | lrc | add | add1c => exact absurd trivial h
  | dual => exact execNewDual_of_invalid (Bool.eq_false_iff.2 (mt (isPrime8_iff_prime _).1 h))
  | crc => exact execNewCrc_of_invalid (Bool.eq_false_iff.2 (mt (Cfg.crcValid_iff _ _).1 h))
  | crct => exact execNewCrct_of_invalid (Bool.eq_false_iff.2 (mt (Cfg.crcValid_iff _ _).1 h))

/-- The host stops at the condition of the first command (R81). -/
theorem perform_cons_raise {i : Instr} {rest : List Instr} {s : State} {c : Condition}
    (h : exec i s = s.raise c) :
    perform (i :: rest) s = .next { s with resp := some ⟨.error c, 0⟩ } :=
  perform_cons_failed h rfl

/-- Settles O57: `COMPUTE` is its `NEW` and, when that answers `OK`, the absorption of the Data Word. -/
theorem computeAnswersTheChecksum : Obligations.ComputeAnswersTheChecksum := by
  refine ⟨fun alg data s => ⟨fun hstaged => ?_, fun hinvalid => ?_⟩, fun id data s hid => ?_⟩
  · obtain ⟨blk, hnew, hphase, halg, hinit⟩ := exec_newOf_of_stagedOk hstaged
    rw [State.answer_eq] at hnew
    have hresp : some (Response.mk .ok (blk.absorbAll s.par data).value) =
        some ⟨.ok, blk.checksum s.par data⟩ := by rw [Block.checksum, hinit]
    rw [computeCmds, decodeNew_sel]
    exact ⟨_, _, hnew, halg,
      (perform_cons_ok hnew rfl).trans (perform_absorbSeq_finalize data hphase rfl), rfl, hresp⟩
  · rw [computeCmds, decodeNew_sel]
    exact perform_cons_raise (exec_newOf_of_not_stagedOk hinvalid)
  · rw [computeCmds, decodeNew_of_le hid]
    exact perform_cons_raise rfl

end Sys2Proof.Machine
end

section
/-! PROOFS. The blocks of a system do not interact (R209, R233): serving a port runs the command on the block
behind it and puts the block it leaves back in its place. -/

namespace Sys2Proof.Machine

/-- The state with another block behind a port. -/
def State.setInstance (s : State) (port : Nat) (blk : Block) : State :=
  match port with
  | 0 => s.withBlk blk
  | j + 1 => { s with others := s.others.set j blk }

section
variable {s : State} {port : Nat}

theorem State.instanceAt_setInstance (h : port < s.ninst) (blk : Block) :
    (s.setInstance port blk).instanceAt port = some blk := by
  cases port with
  | zero => rfl
  | succ j => exact List.getElem?_set_self (Nat.lt_of_succ_lt_succ h)

theorem State.instanceAt_setInstance_of_ne {q : Nat} (h : q ≠ port) (blk : Block) :
    (s.setInstance port blk).instanceAt q = s.instanceAt q := by
  cases port with
  | zero =>
    cases q with
    | zero => exact absurd rfl h
    | succ j => rfl
  | succ j =>
    cases q with
    | zero => rfl
    | succ j' => exact List.getElem?_set_ne fun heq => h (congrArg Nat.succ heq.symm)

/-- Connecting a port, changing the connected block and connecting the port again changes the block behind the
port. -/
theorem State.exchange_withBlk_exchange (h : port < s.ninst) (blk : Block) :
    ((s.exchange port).withBlk blk).exchange port = s.setInstance port blk := by
  cases port with
  | zero => rfl
  | succ j =>
    have hj : j < s.others.length := Nat.lt_of_succ_lt_succ h
    simp [State.exchange, State.withBlk, State.setInstance, hj]

theorem State.withResp_exchange (r : Response) :
    (s.withResp r).exchange port = (s.exchange port).withResp r := by
  cases port <;> rfl

end

/-- What a word does depends on the parameters and the connected block alone. -/
theorem runWord_sameEnd (w : Word) {s u : State} (hpar : s.par = u.par) (hblk : s.blk = u.blk) :
    SameEnd s u (runWord w s) (runWord w u) := by
  cases hw : decode w with
  | command i =>
    rw [runWord_command hw, runWord_command hw]
    exact exec_sameEnd i hpar hblk
  | illegal why =>
    rw [runWord_illegal hw, runWord_illegal hw]
    exact .raise _

/-- Outcomes that end alike leave the same block and the same response. -/
theorem SameEnd.eq_next {s u : State} {o o' : Result} (h : SameEnd s u o o') (hblk : s.blk = u.blk) :
    ∃ blk r, o = .next ((s.withBlk blk).withResp r) ∧ o' = .next ((u.withBlk blk).withResp r) := by
  cases h with
  | raise c =>
    refine ⟨s.blk, ⟨.error c, 0⟩, rfl, ?_⟩
    rw [hblk]
    rfl
  | answer blk v => exact ⟨blk, ⟨.ok, v⟩, rfl, rfl⟩

/-- A served port whose block answers: the block it leaves goes back behind the port. -/
theorem servePort_of_next {s : State} {port : Nat} {f : State → Result} {blk : Block} {r : Response}
    (hport : port < s.ninst)
    (hf : f (s.exchange port) = .next (((s.exchange port).withBlk blk).withResp r)) :
    s.servePort port f = .next ((s.setInstance port blk).withResp r) := by
  rw [State.servePort_of_lt f hport, hf, Result.mapNext_next, State.withResp_exchange,
    State.exchange_withBlk_exchange hport]

/-- Settles O8: the connected block is the one behind the port, so the word ends as on that block alone, and the
block it leaves goes back behind the port. -/
theorem instancesAreIndependent : Obligations.InstancesAreIndependent := by
  intro s port w rest blk hinputs hblk
  have hport : port < s.ninst := (s.instanceAt_isSome_iff port).1 (by rw [hblk]; rfl)
  have hconnected : ((s.withInputs rest).exchange port).blk = blk := State.exchange_blk hblk
  have hsame := runWord_sameEnd w (s := (s.withInputs rest).exchange port)
    (u := { s with blk := blk, others := [], inputs := [] }) (State.exchange_par _ _) hconnected
  obtain ⟨blk', r, hserved, halone⟩ := hsame.eq_next hconnected
  have hstep := (step_of_inputs_cons hinputs).trans
    (servePort_of_next (s := s.withInputs rest) hport hserved)
  exact ⟨_, _, hstep, halone, State.instanceAt_setInstance (s := s.withInputs rest) hport blk', rfl,
    fun q hq => State.instanceAt_setInstance_of_ne (s := s.withInputs rest) hq blk'⟩

end Sys2Proof.Machine
end

section
/-! PROOFS. Who may write the configurations (`10_state.md` R38, R44, R206): `ACT` and `T` are written by a `NEW` that
answers `OK`, `CFG` by `CFGCLR` and `CFGSH`. -/

namespace Sys2Proof.Machine

theorem Block.finalized_frame (blk : Block) :
    blk.finalized.act = blk.act ∧ blk.finalized.t = blk.t ∧ blk.finalized.cfg = blk.cfg := by
  unfold Block.finalized
  cases blk.phase <;> exact ⟨rfl, rfl, rfl⟩

section
variable {s : State} {i : Instr} {blk : Block} {v : Nat}

/-- An answer that writes `ACT` or `T` is the (`OK`, 0) of a `NEW` (R38, R39). -/
theorem Answers.keeps_act_t_or_isNew (h : Answers s i blk v) :
    (blk.act = s.blk.act ∧ blk.t = s.blk.t) ∨ (∃ alg, i = Instr.newOf alg) ∧ v = 0 := by
  have hkept (hi : isAbsorb i = true) : blk.act = s.blk.act ∧ blk.t = s.blk.t := by
    obtain ⟨-, -, hact, ht, -⟩ := h.frame_of_isAbsorb hi
    exact ⟨hact, ht⟩
  cases h with
  | nop | cfgclr | cfgsh | getbyte => exact .inl ⟨rfl, rfl⟩
  | newParity => exact .inr ⟨⟨.parity, rfl⟩, rfl⟩
  | newLrc => exact .inr ⟨⟨.lrc, rfl⟩, rfl⟩
  | newAdd => exact .inr ⟨⟨.add, rfl⟩, rfl⟩
  | newAdd1c => exact .inr ⟨⟨.add1c, rfl⟩, rfl⟩
  | newDual => exact .inr ⟨⟨.dual, rfl⟩, rfl⟩
  | newCrc => exact .inr ⟨⟨.crc, rfl⟩, rfl⟩
  | newCrct => exact .inr ⟨⟨.crct, rfl⟩, rfl⟩
  | absorb | absorbbit => exact .inl (hkept rfl)
  | finalize | verify =>
    obtain ⟨hact, ht, -⟩ := s.blk.finalized_frame
    exact .inl ⟨hact, ht⟩
  | reset => exact .inl ⟨s.blk.init_act, s.blk.init_t⟩

/-- An answer that writes `CFG` is that of `CFGCLR` or `CFGSH` (R44). -/
theorem Answers.keeps_cfg_or_configures (h : Answers s i blk v) :
    blk.cfg = s.blk.cfg ∨ (∃ reg, i = .cfgclr reg) ∨ ∃ reg imm, i = .cfgsh reg imm := by
  have hkept (hi : isAbsorb i = true) : blk.cfg = s.blk.cfg := by
    obtain ⟨-, -, -, -, hcfg⟩ := h.frame_of_isAbsorb hi
    exact hcfg
  cases h with
  | cfgclr reg => exact .inr (.inl ⟨reg, rfl⟩)
  | cfgsh reg imm => exact .inr (.inr ⟨reg, imm, rfl⟩)
  | absorb | absorbbit => exact .inl (hkept rfl)
  | finalize | verify =>
    obtain ⟨-, -, hcfg⟩ := s.blk.finalized_frame
    exact .inl hcfg
  | reset => exact .inl s.blk.init_cfg
  | nop | getbyte | newParity | newLrc | newAdd | newAdd1c | newDual | newCrc | newCrct => exact .inl rfl

end

/-- Settles O20: a refusal changes nothing, and what an answer may write is said command by command. -/
theorem onlyNewChangesTheActiveConfiguration : Obligations.OnlyNewChangesTheActiveConfiguration := by
  intro i s t hexec
  obtain ⟨c, hraise⟩ | ⟨blk, v, hanswer, hanswers⟩ := exec_raisesOrAnswers i s
  · obtain rfl := (State.raise_next_iff s t c).1 (hraise.symm.trans hexec)
    exact ⟨fun hne => by simp at hne, fun _ => rfl, fun hne => absurd rfl hne⟩
  · obtain rfl := (State.answer_next_iff s t blk v).1 (hanswer.symm.trans hexec)
    refine ⟨fun hne => ?_, hanswers.eq_of_configures, hanswers.keeps_cfg_or_configures.resolve_left⟩
    obtain ⟨hact, ht⟩ | ⟨hnew, rfl⟩ := hanswers.keeps_act_t_or_isNew
    · exact absurd hne (not_or.2 ⟨not_not_intro hact, not_not_intro ht⟩)
    · exact ⟨hnew, rfl⟩

end Sys2Proof.Machine
end

section
/-! PROOFS. A finalized computation stays as it is (`46_pipeline.md` R202), and `RESET` leads back to its beginning
(R205): between a `NEW` and the next one, no command changes what `init()` would restore. -/

namespace Sys2Proof.Machine

/-! ### `FINAL` -/

/-- `FINALIZE`, `VERIFY` and `GETBYTE` in `FINAL` change nothing but the response (R179, R181, R183). -/
theorem exec_of_final {i : Instr} {s : State} (hphase : s.blk.phase = .final)
    (hi : i = .finalize ∨ i = .verify ∨ ∃ n, i = .getbyte n) :
    ∃ r, exec i s = .next { s with resp := some r } := by
  obtain ⟨hfinalize, hverify, -⟩ := exec_of_ne_idle (s := s) (by simp [hphase])
  rw [Block.finalized_of_final hphase] at hfinalize hverify
  obtain rfl | rfl | ⟨n, rfl⟩ := hi
  · exact ⟨_, hfinalize⟩
  · exact ⟨_, hverify⟩
  · by_cases hn : n.toNat < s.blk.act.nb
    · exact ⟨_, exec_getbyte_of_lt hphase hn⟩
    · exact ⟨_, exec_getbyte_of_refused (.inr (Nat.le_of_not_lt hn))⟩

/-- Settles O35, by induction on the commands: each leaves the block in `FINAL` as it is. -/
theorem finalizationIsIdempotent : Obligations.FinalizationIsIdempotent := by
  refine ⟨fun s hphase => ?_, fun cmds s hphase hcmds => ?_⟩
  · obtain ⟨hfinalize, -⟩ := exec_of_ne_idle (s := s) (by simp [hphase])
    rwa [Block.finalized_of_final hphase, State.answer_eq] at hfinalize
  · induction cmds generalizing s with
    | nil => exact ⟨s.resp, rfl⟩
    | cons i rest ih =>
      obtain ⟨hi, hrest⟩ := List.forall_mem_cons.1 hcmds
      obtain ⟨r, hexec⟩ := exec_of_final hphase hi
      rw [execAll_cons hexec]
      exact ih { s with resp := some r } hphase hrest

/-! ### `RESET` -/

/-- `init()` of `x` is `init()` of `y` but for `PHASE`, `RESULT` and `CFG`, which `init()` keeps: both blocks are in
computations that begin alike. -/
def Block.SameStart (x y : Block) : Prop :=
  x.init = { y.init with phase := x.phase, result := x.result, cfg := x.cfg }

theorem Block.SameStart.refl (x : Block) : x.SameStart x := by
  unfold Block.SameStart Block.init
  cases x.act.alg <;> rfl

theorem Block.SameStart.trans {x y z : Block} (hxy : x.SameStart y) (hyz : y.SameStart z) :
    x.SameStart z := by
  unfold Block.SameStart at *
  rw [hxy, hyz]

theorem Block.SameStart.of_init_eq {x y : Block} (h : x.init = y.init) : x.SameStart y := by
  unfold Block.SameStart
  rw [← h]
  exact Block.SameStart.refl x

/-- `init()` does not read `PHASE`, `RESULT` and `CFG`. -/
theorem Block.sameStart_update (x : Block) (phase : Phase) (result : Nat) (cfg : Cfg) :
    { x with phase := phase, result := result, cfg := cfg }.SameStart x := by
  unfold Block.SameStart Block.init
  cases x.act.alg <;> rfl

/-- `init()` reads no accumulator it writes (R171). -/
theorem Block.init_init (x : Block) : x.init.init = x.init := by
  unfold Block.init
  cases halg : x.act.alg <;>
    simp only [initParity, initLrc, initAdd, initAdd1c, initDual, initCrc, initCrct, halg]

/-- `init()` overwrites what a byte writes (R171). -/
theorem Block.init_absorbByte (p : Params) (x : Block) (d : Byte) :
    (x.absorbByte p d).init = x.init := by
  unfold Block.init
  rw [Block.absorbByte_act]
  unfold Block.absorbByte
  cases x.act.alg <;> rfl

/-- `init()` overwrites what a bit writes (R171). -/
theorem Block.init_absorbBit? {x y : Block} {c : Bool} (h : x.absorbBit? c = some y) :
    y.init = x.init := by
  obtain ⟨-, -, hact, -, -⟩ := Block.absorbBit?_frame h
  unfold Block.init
  rw [hact]
  unfold Block.absorbBit? at h
  cases halg : x.act.alg <;> simp only [halg] at h <;> cases h <;> rfl

theorem Block.finalized_sameStart (x : Block) : x.finalized.SameStart x := by
  unfold Block.finalized
  cases x.phase with
  | idle | final => exact .refl x
  | active => exact x.sameStart_update _ _ _

/-- A command that answers, no recognised `NEW`, stays in the same computation. -/
theorem Answers.sameStart {s : State} {i : Instr} {blk : Block} {v : Nat} (h : Answers s i blk v)
    (hi : ∀ alg, i ≠ Instr.newOf alg) : blk.SameStart s.blk := by
  cases h with
  | nop | getbyte => exact .refl _
  | cfgclr | cfgsh => exact s.blk.sameStart_update _ _ _
  | newParity => exact absurd rfl (hi .parity)
  | newLrc => exact absurd rfl (hi .lrc)
  | newAdd => exact absurd rfl (hi .add)
  | newAdd1c => exact absurd rfl (hi .add1c)
  | newDual => exact absurd rfl (hi .dual)
  | newCrc => exact absurd rfl (hi .crc)
  | newCrct => exact absurd rfl (hi .crct)
  | absorb imm => exact .of_init_eq (Block.init_absorbByte _ _ _)
  | absorbbit bit blk hphase hbit => exact .of_init_eq (Block.init_absorbBit? hbit)
  | finalize | verify => exact s.blk.finalized_sameStart
  | reset => exact (s.blk.init.sameStart_update .active _ _).trans (.of_init_eq s.blk.init_init)

/-- Commands without a recognised `NEW` stay in the same computation and do not end it (R184). -/
theorem execAll_sameStart {cmds : List Instr} (hcmds : ∀ i ∈ cmds, ∀ alg, i ≠ Instr.newOf alg)
    {s t : State} (h : execAll cmds s = .next t) :
    t.blk.SameStart s.blk ∧ (t.blk.phase = .idle → s.blk.phase = .idle) := by
  induction cmds generalizing s with
  | nil =>
    cases h
    exact ⟨.refl _, id⟩
  | cons i rest ih =>
    obtain ⟨hi, hrest⟩ := List.forall_mem_cons.1 hcmds
    obtain ⟨c, hexec⟩ | ⟨blk, v, hexec, hanswers⟩ := exec_raisesOrAnswers i s
    · rw [execAll_cons hexec] at h
      exact ih (s := s.withResp _) hrest h
    · rw [execAll_cons hexec] at h
      obtain ⟨hsame, hidle⟩ := ih hrest h
      exact ⟨hsame.trans (hanswers.sameStart hi), fun ht => hanswers.idle_of_idle (hidle ht)⟩

/-- A `NEW` that answers `OK` leaves an initial computation in `ACTIVE` (R175). -/
theorem init_eq_of_exec_newOf {alg : Alg} {s t : State} (h : exec (Instr.newOf alg) s = .next t)
    (hresp : t.resp = some ⟨.ok, 0⟩) : t.blk.phase = .active ∧ t.blk.init = t.blk := by
  by_cases hstaged : s.blk.cfg.StagedOk s.par alg
  · obtain ⟨blk, hnew, hphase, -, hinit⟩ := exec_newOf_of_stagedOk hstaged
    obtain rfl := (State.answer_next_iff s t blk 0).1 (hnew.symm.trans h)
    exact ⟨hphase, hinit⟩
  · obtain rfl := (State.raise_next_iff s t _).1 ((exec_newOf_of_not_stagedOk hstaged).symm.trans h)
    cases hresp

/-- Settles O40: the commands stay in the computation the `NEW` began, and its block is the one `init()` gives. -/
theorem resetRestoresTheFreshState : Obligations.ResetRestoresTheFreshState := by
  intro alg cmds s t t' hnew hresp hcmds hrun
  obtain ⟨hactive, hfresh⟩ := init_eq_of_exec_newOf hnew hresp
  obtain ⟨hsame, hidle⟩ := execAll_sameStart hcmds hrun
  have hphase : t'.blk.phase ≠ .idle := fun ht => nomatch hactive.symm.trans (hidle ht)
  obtain ⟨-, -, hreset⟩ := exec_of_ne_idle hphase
  refine ⟨_, hreset, ?_, rfl⟩
  calc { t'.blk.init with phase := .active }
      = { t.blk with phase := .active, result := t'.blk.result, cfg := t'.blk.cfg } := by
        rw [hsame, hfresh]
    _ = { t.blk with result := t'.blk.result, cfg := t'.blk.cfg } := by rw [← hactive]

end Sys2Proof.Machine
end

section
/-! PROOFS. The order of the bytes (`46_pipeline.md` R207): the values of `PARITY`, `LRC`, `ADD` and `ADD1C` are a
sum or an XOR over the bytes, which a permutation keeps. -/

namespace Sys2Proof.Machine

section
variable {data data' : List Byte} (h : data.Perm data')
include h

theorem dataWeight_perm : dataWeight data = dataWeight data' := (h.map byteWeight).sum_eq

theorem byteSum_perm : byteSum data = byteSum data' := (h.map BitVec.toNat).sum_eq

theorem xorBytes_perm (l : Byte) : xorBytes l data = xorBytes l data' :=
  h.foldl_eq l

end

/-- Settles O47, one algorithm at a time, from the closed form of its value. -/
theorem byteOrderDoesNotMatter : Obligations.ByteOrderDoesNotMatter := by
  intro p blk data data' hp hperm halg
  simp only [List.mem_cons, List.not_mem_nil, or_false] at halg
  obtain halg | halg | halg | halg := halg
  · rw [checksum_of_parity p _ halg, checksum_of_parity p _ halg, dataWeight_perm hperm]
  · rw [checksum_of_lrc p _ halg, checksum_of_lrc p _ halg, xorBytes_perm hperm]
  · rw [addValueIsSumModulo256 p blk _ hp halg, addValueIsSumModulo256 p blk _ hp halg,
      byteSum_perm hperm]
  · rw [checksum_of_add1c hp _ halg, checksum_of_add1c hp _ halg, byteSum_perm hperm]

end Sys2Proof.Machine
end

section
/-! PROOFS. What a ChecksumValue depends on (R200): `ACT`, the accumulators of its algorithm and, under
`CRCT`, the table. Blocks that agree on these go on to agree. -/

namespace Sys2Proof.Machine

/-- Equal accumulators of the algorithm of `x`; under `CRCT` the table too, which `absorb_byte` reads. -/
def Block.SameAccumulators (x y : Block) : Prop :=
  match x.act.alg with
  | .parity => x.p = y.p
  | .lrc => x.l = y.l
  | .add | .add1c => x.acc = y.acc
  | .dual => x.a = y.a ∧ x.b = y.b
  | .crc => x.r = y.r
  | .crct => x.r = y.r ∧ x.t = y.t

/-- Two blocks in the same computation, as far as its value can tell. -/
structure Block.Alike (x y : Block) : Prop where
  act : x.act = y.act
  accumulators : x.SameAccumulators y

section
variable {x y : Block}

/-- `PHASE`, `RESULT` and `CFG` do not matter to the value (R200). -/
theorem Block.alike_update (x : Block) (phase : Phase) (result : Nat) (cfg : Cfg) :
    { x with phase := phase, result := result, cfg := cfg }.Alike x := by
  refine ⟨rfl, ?_⟩
  unfold Block.SameAccumulators
  cases x.act.alg <;> simp

theorem Block.init_alike (hact : x.act = y.act) (ht : x.act.alg = .crct → x.t = y.t) :
    x.init.Alike y.init := by
  refine ⟨by rw [Block.init_act, Block.init_act, hact], ?_⟩
  unfold Block.SameAccumulators
  rw [Block.init_act]
  unfold Block.init
  rw [← hact]
  cases halg : x.act.alg with
  | parity | lrc | add | add1c => rfl
  | dual => exact ⟨rfl, rfl⟩
  | crc => exact congrArg Act.init hact
  | crct => exact ⟨congrArg convertedSeed hact, ht halg⟩

theorem Block.Alike.absorbByte (h : x.Alike y) (p : Params) (d : Byte) :
    (x.absorbByte p d).Alike (y.absorbByte p d) := by
  obtain ⟨hact, hacc⟩ := h
  refine ⟨by rw [Block.absorbByte_act, Block.absorbByte_act, hact], ?_⟩
  unfold Block.SameAccumulators at *
  rw [Block.absorbByte_act]
  unfold Block.absorbByte
  rw [← hact]
  cases halg : x.act.alg <;> simp only [halg] at hacc
  case parity | lrc | add | add1c =>
    simp only [absorbByteParity, absorbByteLrc, absorbByteAdd, absorbByteAdd1c, hacc]
  case dual | crc | crct =>
    simp only [absorbByteDual, absorbByteCrc, absorbByteCrct, hact, hacc, and_self]

theorem Block.Alike.absorbAll (h : x.Alike y) (p : Params) (data : List Byte) :
    (x.absorbAll p data).Alike (y.absorbAll p data) := by
  induction data generalizing x y with
  | nil => exact h
  | cons d rest ih => exact ih (h.absorbByte p d)

theorem Block.Alike.value_eq (h : x.Alike y) : x.value = y.value := by
  obtain ⟨hact, hacc⟩ := h
  unfold Block.SameAccumulators at hacc
  unfold Block.value
  rw [← hact]
  cases halg : x.act.alg <;> simp only [halg] at hacc
  case parity | lrc | add | add1c =>
    simp only [valueParity, valueLrc, valueAdd, valueAdd1c, hacc]
  case dual | crc | crct => simp only [valueDual, valueCrc, valueCrct, hact, hacc]

end

/-- Settles O56: `init()` makes the blocks alike, and every byte keeps them alike. -/
theorem checksumDependsOnConfigurationAndDataOnly :
    Obligations.ChecksumDependsOnConfigurationAndDataOnly :=
  fun p _ _ data hact ht => ((Block.init_alike hact ht).absorbAll p data).value_eq

end Sys2Proof.Machine
end

section
/-! PROOFS. `VERIFYDATA` (`46_pipeline.md` R203, R186, R81): it loads `CFG.EXPECT`, which no `NEW` reads, and then
computes what `COMPUTE` computes. -/

namespace Sys2Proof.Machine

/-- Bytes absorbed in `ACTIVE`, then the rest of the expansion; only the response depends on whether there was a
byte. -/
theorem perform_absorbSeq_append (data : List Byte) (rest : List Instr) {s : State}
    (hphase : s.blk.phase = .active) :
    ∃ r, perform (absorbSeq data ++ rest) s =
      perform rest { s with blk := s.blk.absorbAll s.par data, resp := r } := by
  induction data generalizing s with
  | nil => exact ⟨s.resp, rfl⟩
  | cons d tail ih =>
    have hstep := (exec_absorb_of_active hphase d).trans (s.answer_eq _ 0)
    have hnext := (s.blk.absorbByte_phase s.par d).trans hphase
    obtain ⟨r, htail⟩ := ih (s := { s with blk := s.blk.absorbByte s.par d, resp := some ⟨.ok, 0⟩ }) hnext
    exact ⟨r, (perform_cons_ok hstep rfl).trans htail⟩

theorem Block.absorbAll_frame (p : Params) (blk : Block) (data : List Byte) :
    (blk.absorbAll p data).SameButAccumulators blk := by
  induction data generalizing blk with
  | nil => exact ⟨rfl, rfl, rfl, rfl, rfl⟩
  | cons d rest ih =>
    simpa [Block.absorbAll_cons, Block.SameButAccumulators] using ih (blk.absorbByte p d)

/-- Bytes absorbed in `ACTIVE` and verified: the value of the whole Data Word is compared (R181). -/
theorem perform_absorbSeq_verify (data : List Byte) {s : State} (hphase : s.blk.phase = .active) :
    ∃ t, perform (absorbSeq data ++ [.verify]) s = .next t ∧ t.blk.phase = .final ∧
      t.resp =
        some ⟨.ok, if (s.blk.absorbAll s.par data).value = s.blk.cfg.expect then 1 else 0⟩ := by
  obtain ⟨r, habsorb⟩ := perform_absorbSeq_append data [.verify] hphase
  obtain ⟨hactive, -, -, -, hcfg⟩ := s.blk.absorbAll_frame s.par data
  rw [hphase] at hactive
  obtain ⟨-, hverify, -⟩ :=
    exec_of_ne_idle (s := { s with blk := s.blk.absorbAll s.par data, resp := r }) (hactive ▸ nofun)
  rw [Block.finalized_of_active hactive, hcfg] at hverify
  exact ⟨_, habsorb.trans (perform_cons_ok hverify rfl), rfl, rfl⟩

/-- No `NEW` reads `CFG.EXPECT` (R142, R129). -/
theorem Cfg.stagedOk_put_expect (p : Params) (c : Cfg) (e : Nat) (alg : Alg) :
    (c.put .expect e).StagedOk p alg ↔ c.StagedOk p alg := by
  cases alg <;> exact Iff.rfl

/-- A `NEW` after `LOADCFG EXPECT` leaves the block it would leave without it, but for `CFG`. -/
theorem exec_newOf_staged_expect {alg : Alg} {s : State} (h : s.blk.cfg.StagedOk s.par alg) (e : Nat) :
    ∃ blk, blk.phase = .active ∧ exec (Instr.newOf alg) s = s.answer blk 0 ∧
      exec (Instr.newOf alg) (s.staged .expect e) =
        (s.staged .expect e).answer { blk with cfg := s.blk.cfg.put .expect e } 0 := by
  cases alg with
  | parity | lrc | add | add1c => exact ⟨_, rfl, rfl, rfl⟩
  | dual =>
    have hvalid := (isPrime8_iff_prime _).2 h
    exact ⟨_, rfl, execNewDual_of_valid hvalid, execNewDual_of_valid hvalid⟩
  | crc =>
    have hvalid := (Cfg.crcValid_iff _ _).2 h
    exact ⟨_, rfl, execNewCrc_of_valid hvalid, execNewCrc_of_valid hvalid⟩
  | crct =>
    have hvalid := (Cfg.crcValid_iff _ _).2 h
    exact ⟨_, rfl, execNewCrct_of_valid hvalid rfl,
      execNewCrct_of_valid (s := s.staged .expect e) hvalid rfl⟩

section
variable {e : Nat} {s : State}

theorem perform_verifyDataCmds (he : e < 2 ^ s.par.ew) (id : BitVec 4) (data : List Byte) :
    perform (verifyDataCmds id data e) s =
      perform (decodeNew id :: (absorbSeq data ++ [.verify])) (s.staged .expect e) :=
  perform_append (perform_loadCfg (reg := .expect) he) rfl

/-- `VERIFYDATA` compares the expected value with what `COMPUTE` answers (R203). -/
theorem perform_verifyDataCmds_of_stagedOk (he : e < 2 ^ s.par.ew) (data : List Byte) {alg : Alg}
    (h : s.blk.cfg.StagedOk s.par alg) :
    ∃ t u v, perform (computeCmds alg.sel data) s = .next t ∧ t.resp = some ⟨.ok, v⟩ ∧
      perform (verifyDataCmds alg.sel data e) s = .next u ∧ u.blk.phase = .final ∧
      u.resp = some ⟨.ok, if v = e then 1 else 0⟩ := by
  obtain ⟨blk, hphase, hnew, hnewStaged⟩ := exec_newOf_staged_expect h e
  obtain ⟨t, ht, htresp⟩ := perform_computeCmds data hnew hphase
  obtain ⟨u, hu, hfinal, huresp⟩ := perform_absorbSeq_verify data
    (s := (s.staged .expect e).withBlk { blk with cfg := s.blk.cfg.put .expect e }) hphase
  have halike := blk.alike_update blk.phase blk.result (s.blk.cfg.put .expect e)
  have hvalue := (halike.absorbAll s.par data).value_eq
  refine ⟨t, u, _, ht, htresp, ?_, hfinal, ?_⟩
  · rw [perform_verifyDataCmds he, decodeNew_sel]
    exact (perform_cons_ok hnewStaged rfl).trans hu
  · rw [← hvalue]
    exact huresp

/-- A failing `NEW` is the result of `VERIFYDATA` (R81). -/
theorem perform_verifyDataCmds_of_raise (he : e < 2 ^ s.par.ew) (data : List Byte) {id : BitVec 4}
    {c : Condition} (h : exec (decodeNew id) (s.staged .expect e) = (s.staged .expect e).raise c) :
    perform (verifyDataCmds id data e) s =
      .next { s with blk := { s.blk with cfg := s.blk.cfg.put .expect e }, resp := some ⟨.error c, 0⟩ } := by
  rw [perform_verifyDataCmds he]
  exact perform_cons_raise h

end

/-- Settles O58: the loaded `CFG.EXPECT` is all that `VERIFYDATA` adds to `COMPUTE`, valid `NEW` or not. -/
theorem verificationRoundTrip : Obligations.VerificationRoundTrip := by
  intro data e s he
  refine ⟨fun alg hstaged => perform_verifyDataCmds_of_stagedOk he data hstaged,
    s.blk.cfg.put .expect e, Cfg.get_put s.par _ _ he, fun _ hreg => Cfg.get_put_of_ne _ _ hreg,
    fun alg hinvalid => ?_, fun id hid => ?_⟩
  · apply perform_verifyDataCmds_of_raise he
    rw [decodeNew_sel]
    exact exec_newOf_of_not_stagedOk (mt (Cfg.stagedOk_put_expect _ _ _ _).1 hinvalid)
  · apply perform_verifyDataCmds_of_raise he
    rw [decodeNew_of_le hid]
    rfl

end Sys2Proof.Machine
end

section
/-! PROOFS. Commands between absorbs (R201): an absorb neither reads nor writes `CFG`, and the commands
that may stand between absorbs write nothing but `CFG`. -/

namespace Sys2Proof.Machine

/-- Two states with blocks that are equal but for `CFG`, in `ACTIVE`. -/
structure State.SameComputation (s u : State) : Prop where
  par : s.par = u.par
  active : u.blk.phase = .active
  blk : s.blk = { u.blk with cfg := s.blk.cfg }

/-- An absorb does not read `CFG` (R171). -/
theorem Block.absorbByte_setCfg (p : Params) (blk : Block) (d : Byte) (cfg : Cfg) :
    { blk with cfg := cfg }.absorbByte p d = { blk.absorbByte p d with cfg := cfg } := by
  unfold Block.absorbByte
  cases blk.act.alg <;> rfl

theorem Block.absorbBit?_setCfg (blk : Block) (c : Bool) (cfg : Cfg) :
    { blk with cfg := cfg }.absorbBit? c = (blk.absorbBit? c).map ({ · with cfg := cfg }) := by
  unfold Block.absorbBit?
  cases blk.act.alg <;> rfl

/-- The commands of R201 that may stand between absorbs write nothing but `CFG`. -/
theorem Answers.eq_of_leavesComputation {s : State} {i : Instr} {blk : Block} {v : Nat}
    (h : Answers s i blk v) (hi : leavesComputation i = true) : blk = { s.blk with cfg := blk.cfg } := by
  cases h
  case nop | cfgclr | cfgsh | getbyte => rfl
  all_goals exact absurd hi Bool.false_ne_true

/-- `ABSORBBIT` in `ACTIVE` under an algorithm without a bit-wise absorb (R178). -/
theorem exec_absorbbit_of_none {s : State} (hphase : s.blk.phase = .active) {c : Bool}
    (hbit : s.blk.absorbBit? c = none) : exec (.absorbbit c) s = s.raise .illegalCommand := by
  simp only [exec, execAbsorbbit, hphase, hbit]

theorem not_isAbsorb_of_leavesComputation {i : Instr} (hi : leavesComputation i = true) :
    ¬ isAbsorb i = true := by
  cases i
  case absorb | absorbbit => exact absurd hi Bool.false_ne_true
  all_goals exact Bool.false_ne_true

section
variable {s u : State} {i : Instr} (h : s.SameComputation u)
include h

theorem State.SameComputation.active_left : s.blk.phase = .active := by rw [h.blk, h.active]

theorem State.SameComputation.exec_of_leavesComputation (hi : leavesComputation i = true) :
    ∃ t, exec i s = .next t ∧ t.SameComputation u := by
  obtain ⟨hpar, hactive, hblk⟩ := h
  obtain ⟨c, hexec⟩ | ⟨blk, v, hexec, hanswers⟩ := exec_raisesOrAnswers i s
  · exact ⟨_, hexec, hpar, hactive, hblk⟩
  · refine ⟨_, hexec, hpar, hactive, ?_⟩
    have hcfg := hanswers.eq_of_leavesComputation hi
    rw [hblk] at hcfg
    exact hcfg

/-- A byte is absorbed alike in both states. -/
theorem State.SameComputation.exec_absorb (d : Byte) :
    ∃ t v, exec (.absorb d) s = .next t ∧ exec (.absorb d) u = .next v ∧ t.SameComputation v := by
  have hactive := h.active_left
  obtain ⟨hpar, hactive', hblk⟩ := h
  have hbyte := u.blk.absorbByte_setCfg u.par d s.blk.cfg
  rw [← hblk, ← hpar] at hbyte
  refine ⟨_, _, exec_absorb_of_active hactive d, exec_absorb_of_active hactive' d, hpar,
    (u.blk.absorbByte_phase u.par d).trans hactive', ?_⟩
  simpa [← hpar] using hbyte

/-- A bit is absorbed, or refused, alike in both states. -/
theorem State.SameComputation.exec_absorbbit (c : Bool) :
    ∃ t v, exec (.absorbbit c) s = .next t ∧ exec (.absorbbit c) u = .next v ∧
      t.SameComputation v := by
  have hactive := h.active_left
  obtain ⟨hpar, hactive', hblk⟩ := h
  have hbit := u.blk.absorbBit?_setCfg c s.blk.cfg
  rw [← hblk] at hbit
  cases hbit' : u.blk.absorbBit? c with
  | none =>
    rw [hbit'] at hbit
    exact ⟨_, _, exec_absorbbit_of_none hactive hbit, exec_absorbbit_of_none hactive' hbit', hpar,
      hactive', hblk⟩
  | some blk =>
    rw [hbit'] at hbit
    obtain ⟨hphase, -⟩ := Block.absorbBit?_frame hbit'
    exact ⟨_, _, exec_absorbbit_of_active hactive hbit, exec_absorbbit_of_active hactive' hbit', hpar,
      hphase.trans hactive', rfl⟩

theorem State.SameComputation.exec_of_isAbsorb (hi : isAbsorb i = true) :
    ∃ t v, exec i s = .next t ∧ exec i u = .next v ∧ t.SameComputation v := by
  cases i
  case absorb d => exact h.exec_absorb d
  case absorbbit c => exact h.exec_absorbbit c
  all_goals exact absurd hi Bool.false_ne_true

/-- The run with the commands between the absorbs and the run without them stay in the same computation. -/
theorem State.SameComputation.execAll_filter {cmds : List Instr}
    (hcmds : ∀ i ∈ cmds, leavesComputation i = true ∨ isAbsorb i = true) :
    ∃ t v, execAll cmds s = .next t ∧ execAll (cmds.filter isAbsorb) u = .next v ∧
      t.SameComputation v := by
  induction cmds generalizing s u with
  | nil => exact ⟨s, u, rfl, rfl, h⟩
  | cons i rest ih =>
    obtain ⟨hi, hrest⟩ := List.forall_mem_cons.1 hcmds
    obtain hleaves | habsorb := hi
    · obtain ⟨t, hexec, hsame⟩ := h.exec_of_leavesComputation hleaves
      rw [execAll_cons hexec, List.filter_cons_of_neg (not_isAbsorb_of_leavesComputation hleaves)]
      exact ih hsame hrest
    · obtain ⟨t, v, hexec, hexec', hsame⟩ := h.exec_of_isAbsorb habsorb
      rw [execAll_cons hexec, List.filter_cons_of_pos habsorb, execAll_cons hexec']
      exact ih hsame hrest

end

/-- Settles O59: both runs start in the same state and stay in the same computation. -/
theorem chunkBoundariesDoNotMatter : Obligations.ChunkBoundariesDoNotMatter := by
  intro cmds s hphase hcmds
  have hself : s.SameComputation s := ⟨rfl, hphase, rfl⟩
  obtain ⟨t, u, ht, hu, hsame⟩ := hself.execAll_filter hcmds
  exact ⟨t, u, ht, hu, hsame.blk⟩

end Sys2Proof.Machine
end

section
/-! PROOFS. A condition that is raised (`60_exceptions.md` R226): of the two ways a command ends, only `raise` answers
with a status that is not `OK`, and it writes nothing but the response. -/

namespace Sys2Proof.Machine

/-- An outcome that answers a condition is that of `raise` (R226). -/
theorem Ends.eq_of_failed {s t : State} {o : Result} {r : Response} (h : Ends s o) (hnext : o = .next t)
    (hresp : t.resp = some r) (hfailed : r.status ≠ .ok) : r.value = 0 ∧ t = { s with resp := some r } := by
  obtain ⟨c, rfl⟩ | ⟨blk, v, rfl⟩ := h
  · obtain rfl := (State.raise_next_iff s t c).1 hnext
    cases hresp
    exact ⟨rfl, rfl⟩
  · obtain rfl := (State.answer_next_iff s t blk v).1 hnext
    cases hresp
    exact absurd rfl hfailed

/-- Settles O14: commands and words end alike, by `raise` or by an answer of status `OK`; the codes of R79 and R220
are those of the definitions. -/
theorem failedCommandChangesNothing : Obligations.FailedCommandChangesNothing :=
  ⟨fun i s _ _ => (exec_ends i s).eq_of_failed, fun w s _ _ => (runWord_ends w s).eq_of_failed, rfl,
    fun _ => rfl, fun _ _ => rfl⟩

end Sys2Proof.Machine
end

section
/-! PROOFS. The hardware reset (`70_reset_and_hazards.md` R240): it puts a block just reset behind its port. A word
puts the block its command leaves there, and no command makes `PHASE` `IDLE` (R184). -/

namespace Sys2Proof.Machine

section
variable (s : State) (port : Nat) (blk : Block)

@[simp] theorem State.setInstance_par : (s.setInstance port blk).par = s.par := by cases port <;> rfl
@[simp] theorem State.setInstance_inputs : (s.setInstance port blk).inputs = s.inputs := by
  cases port <;> rfl
@[simp] theorem State.setInstance_resp : (s.setInstance port blk).resp = s.resp := by
  cases port <;> rfl

end

section
variable {s t : State} {port : Nat}

theorem lt_ninst_of_servePort_next {f : State → Result} (h : s.servePort port f = .next t) :
    port < s.ninst := by
  by_contra hport
  rw [State.servePort, if_neg hport] at h
  cases h

/-- A hardware reset changes the block behind its port and draws free values (R240). -/
theorem servePort_hardReset (hport : port < s.ninst) :
    s.servePort port State.hardReset =
      .next { s.setInstance port (Block.afterHardReset s.par s.drawn) with
        drawn := s.drawn + resetDraws } := by
  rw [State.servePort_of_lt _ hport, ← State.exchange_withBlk_exchange hport]
  cases port <;> rfl

end

/-- A word writes the connected block and the response, and leaves `IDLE` alone as it found it (R184). -/
theorem runWord_next (w : Word) (s : State) :
    ∃ blk r, runWord w s = .next ((s.withBlk blk).withResp r) ∧
      (blk.phase = .idle → s.blk.phase = .idle) := by
  cases hw : decode w with
  | command i =>
    rw [runWord_command hw]
    obtain ⟨c, hexec⟩ | ⟨blk, v, hexec, hanswers⟩ := exec_raisesOrAnswers i s
    · exact ⟨s.blk, _, hexec, id⟩
    · exact ⟨blk, _, hexec, hanswers.idle_of_idle⟩
  | illegal why => exact ⟨s.blk, _, runWord_illegal hw s, id⟩

/-- A block that is `IDLE` after an input was `IDLE` before it, or the input was its hardware reset. -/
theorem takeInput_idle {x : Input} {s t : State} {q : Nat} {before after : Block}
    (h : takeInput x s = .next t) (hbefore : s.instanceAt q = some before)
    (hafter : t.instanceAt q = some after) (hidle : after.phase = .idle) :
    before.phase = .idle ∨ x = .hardReset q := by
  have hother {port : Nat} {blk : Block} (hq : q ≠ port)
      (hset : (s.setInstance port blk).instanceAt q = some after) : before.phase = .idle := by
    rw [State.instanceAt_setInstance_of_ne hq, hbefore] at hset
    cases hset
    exact hidle
  cases x with
  | command port w =>
    have hport := lt_ninst_of_servePort_next h
    obtain ⟨blk, r, hrun, hkeeps⟩ := runWord_next w (s.exchange port)
    cases (servePort_of_next hport hrun).symm.trans h
    by_cases hq : q = port
    · subst hq
      cases (State.instanceAt_setInstance hport blk).symm.trans hafter
      rw [State.exchange_blk hbefore] at hkeeps
      exact .inl (hkeeps hidle)
    · exact .inl (hother hq hafter)
  | hardReset port =>
    cases (servePort_hardReset (lt_ninst_of_servePort_next h)).symm.trans h
    by_cases hq : q = port
    · exact .inr (congrArg Input.hardReset hq.symm)
    · exact .inl (hother hq hafter)

/-- Settles O9: the reset block stands behind the port, and an idle step or another input makes no `PHASE`
`IDLE`. -/
theorem hardwareResetClearsPhaseAndConfiguration :
    Obligations.HardwareResetClearsPhaseAndConfiguration := by
  refine ⟨fun s port rest blk hinputs hblk => ?_,
    fun s t q before after hstep hbefore hafter hphase hidle => ?_⟩
  · have hport : port < s.ninst := (s.instanceAt_isSome_iff port).1 (by rw [hblk]; rfl)
    have hreset := (step_of_inputs_cons hinputs).trans
      (servePort_hardReset (s := s.withInputs rest) hport)
    exact ⟨_, _, hreset, State.instanceAt_setInstance (s := s.withInputs rest) hport _, rfl,
      Cfg.get_reset, State.setInstance_resp .., State.setInstance_inputs .., State.setInstance_par ..,
      fun q hq => State.instanceAt_setInstance_of_ne (s := s.withInputs rest) hq _⟩
  · cases hinputs : s.inputs with
    | nil =>
      cases (step_of_inputs_nil hinputs).symm.trans hstep
      cases hbefore.symm.trans hafter
      exact absurd hidle hphase
    | cons x rest =>
      have htake := (step_of_inputs_cons hinputs).symm.trans hstep
      obtain hbefore' | rfl := takeInput_idle (s := s.withInputs rest) htake hbefore hafter hidle
      · exact absurd hbefore' hphase
      · rfl

end Sys2Proof.Machine
end

section
/-! PROOFS. What a hardware reset leaves unspecified cannot be observed (`70_reset_and_hazards.md` R241): a command
reads `CFG` and `PHASE`, in a computation what the algorithm reads of `ACT` and the accumulators, and `RESULT` in
`FINAL`; the `NEW` that starts a computation writes these from `CFG`. Blocks that agree on them answer alike. -/

namespace Sys2Proof.Machine

/-! ### The part of `ACT` an algorithm reads -/

/-- `ACT` with every field cleared that its algorithm does not read (R29, R38). -/
def Act.read (act : Act) : Act :=
  match act.alg with
  | .parity | .lrc | .add | .add1c => { Act.reset with alg := act.alg }
  | .dual => { Act.reset with alg := .dual, m := act.m }
  | .crc | .crct => { act with m := 0 }

/-- A block with the unread fields of `ACT` cleared. -/
def Block.reduced (blk : Block) : Block := { blk with act := blk.act.read }

theorem Act.read_alg (act : Act) : act.read.alg = act.alg := by
  obtain ⟨alg⟩ := act
  cases alg <;> rfl

theorem Act.read_nb (act : Act) : act.read.nb = act.nb := by
  obtain ⟨alg⟩ := act
  cases alg <;> rfl

/-- A statement about a block that holds for each algorithm in `ACT.ALG`, the other fields being anything. -/
theorem Block.forall_of_alg {motive : Block → Prop}
    (h : ∀ (blk : Block) (act : Act) (alg : Alg), motive { blk with act := { act with alg := alg } })
    (blk : Block) : motive blk := h blk blk.act blk.act.alg

section
variable (blk : Block)

theorem Block.reduced_init : blk.init.reduced = blk.reduced.init := by
  induction blk using Block.forall_of_alg with
  | h blk act alg => cases alg <;> rfl

theorem Block.reduced_absorbByte (p : Params) (d : Byte) :
    (blk.absorbByte p d).reduced = blk.reduced.absorbByte p d := by
  induction blk using Block.forall_of_alg with
  | h blk act alg => cases alg <;> rfl

theorem Block.reduced_absorbBit? (c : Bool) :
    blk.reduced.absorbBit? c = (blk.absorbBit? c).map Block.reduced := by
  induction blk using Block.forall_of_alg with
  | h blk act alg => cases alg <;> rfl

theorem Block.reduced_value : blk.reduced.value = blk.value := by
  induction blk using Block.forall_of_alg with
  | h blk act alg => cases alg <;> rfl

end

/-! ### Blocks alike in their computation -/

section
variable {x y : Block}

theorem Block.Alike.init (h : x.Alike y) : x.init.Alike y.init := by
  refine Block.init_alike h.act fun halg => ?_
  have hacc := h.accumulators
  simp only [Block.SameAccumulators, halg] at hacc
  obtain ⟨-, ht⟩ := hacc
  exact ht

theorem Block.Alike.absorbBit? (h : x.Alike y) {c : Bool} {x' y' : Block}
    (hx : x.absorbBit? c = some x') (hy : y.absorbBit? c = some y') : x'.Alike y' := by
  obtain ⟨hact, hacc⟩ := h
  cases halg : x.act.alg
  case parity =>
    cases (Block.absorbBit?_of_parity c halg).symm.trans hx
    cases (Block.absorbBit?_of_parity c (hact ▸ halg)).symm.trans hy
    refine ⟨hact, ?_⟩
    simp only [Block.SameAccumulators, absorbBitParity, halg] at hacc ⊢
    rw [hacc]
  case crc =>
    cases (Block.absorbBit?_of_crc c halg).symm.trans hx
    cases (Block.absorbBit?_of_crc c (hact ▸ halg)).symm.trans hy
    refine ⟨hact, ?_⟩
    simp only [Block.SameAccumulators, absorbBitCrc, halg] at hacc ⊢
    rw [hact, hacc]
  all_goals simp only [Block.absorbBit?, halg, reduceCtorEq] at hx

end

/-! ### Blocks no command can tell apart -/

/-- Equal `PHASE` and `CFG`; in a computation, the same computation; in `FINAL`, equal `RESULT`. -/
structure Block.Indistinguishable (x y : Block) : Prop where
  phase : x.phase = y.phase
  cfg : x.cfg = y.cfg
  computation : x.phase ≠ .idle → x.reduced.Alike y.reduced
  result : x.phase = .final → x.result = y.result

section
variable {x y : Block} (h : x.Indistinguishable y)
include h

theorem Block.Indistinguishable.alg_eq (hphase : x.phase ≠ .idle) : x.act.alg = y.act.alg := by
  have hact : x.act.read = y.act.read := (h.computation hphase).act
  rw [← x.act.read_alg, hact, y.act.read_alg]

theorem Block.Indistinguishable.nb_eq (hphase : x.phase ≠ .idle) : x.act.nb = y.act.nb := by
  have hact : x.act.read = y.act.read := (h.computation hphase).act
  rw [← x.act.read_nb, hact, y.act.read_nb]

/-- Both blocks are in the same cell of R184. -/
theorem Block.Indistinguishable.lifecycle_eq (p : Params) (i : Instr) :
    lifecycle p x i = lifecycle p y i := by
  cases i <;> simp only [lifecycle, ← h.phase, ← h.cfg]
  case absorbbit bit =>
    cases hphase : x.phase with
    | idle => rfl
    | active | final => rw [h.alg_eq (by simp [hphase])]
  case getbyte imm =>
    cases hphase : x.phase with
    | idle | active => rfl
    | final => rw [h.nb_eq (by simp [hphase])]

theorem Block.Indistinguishable.setCfg (cfg : Cfg) :
    { x with cfg := cfg }.Indistinguishable { y with cfg := cfg } :=
  ⟨h.phase, rfl,
    fun hphase => ⟨(h.computation hphase).act, (h.computation hphase).accumulators⟩, h.result⟩

theorem Block.Indistinguishable.absorbByte (hphase : x.phase = .active) (p : Params) (d : Byte) :
    (x.absorbByte p d).Indistinguishable (y.absorbByte p d) where
  phase := by rw [Block.absorbByte_phase, Block.absorbByte_phase, h.phase]
  cfg := by rw [Block.absorbByte_cfg, Block.absorbByte_cfg, h.cfg]
  computation _ := by
    rw [Block.reduced_absorbByte, Block.reduced_absorbByte]
    exact (h.computation (by simp [hphase])).absorbByte p d
  result hfinal := by simp [hphase] at hfinal

theorem Block.Indistinguishable.absorbBit? (hphase : x.phase = .active) {c : Bool} {x' y' : Block}
    (hx : x.absorbBit? c = some x') (hy : y.absorbBit? c = some y') : x'.Indistinguishable y' := by
  obtain ⟨hxphase, -, -, -, hxcfg⟩ := Block.absorbBit?_frame hx
  obtain ⟨hyphase, -, -, -, hycfg⟩ := Block.absorbBit?_frame hy
  refine ⟨by rw [hxphase, hyphase, h.phase], by rw [hxcfg, hycfg, h.cfg], fun _ => ?_,
    fun hfinal => nomatch hphase.symm.trans (hxphase.symm.trans hfinal)⟩
  have hbit := (h.computation (by simp [hphase])).absorbBit? (c := c) (x' := x'.reduced) (y' := y'.reduced)
  simp only [Block.reduced_absorbBit?, hx, hy] at hbit
  exact hbit rfl rfl

theorem Block.Indistinguishable.finalized (hphase : x.phase ≠ .idle) :
    x.finalized.Indistinguishable y.finalized := by
  cases hcase : x.phase with
  | idle => exact absurd hcase hphase
  | active =>
    have halike := h.computation hphase
    have hvalue := halike.value_eq
    rw [Block.reduced_value, Block.reduced_value] at hvalue
    rw [Block.finalized_of_active hcase, Block.finalized_of_active (h.phase.symm.trans hcase)]
    exact ⟨rfl, h.cfg, fun _ => ⟨halike.act, halike.accumulators⟩, fun _ => hvalue⟩
  | final => rwa [Block.finalized_of_final hcase, Block.finalized_of_final (h.phase.symm.trans hcase)]

theorem Block.Indistinguishable.restart (hphase : x.phase ≠ .idle) :
    { x.init with phase := .active }.Indistinguishable { y.init with phase := .active } := by
  have halike := (h.computation hphase).init
  rw [← Block.reduced_init, ← Block.reduced_init] at halike
  exact ⟨rfl, by simp [h.cfg], fun _ => ⟨halike.act, halike.accumulators⟩, nofun⟩

end

/-- A computation that begins alike, whatever was before it. -/
theorem Block.indistinguishable_of_active {x y : Block} (h : x.reduced.Alike y.reduced) (hcfg : x.cfg = y.cfg)
    (hx : x.phase = .active) (hy : y.phase = .active) : x.Indistinguishable y :=
  ⟨hx.trans hy.symm, hcfg, fun _ => h, fun hfinal => nomatch hx.symm.trans hfinal⟩

/-- Indistinguishable blocks answer a command with the same value and stay indistinguishable. -/
theorem Answers.indistinguishable {s u : State} {i : Instr} {x y : Block} {v w : Nat}
    (hpar : s.par = u.par) (hblk : s.blk.Indistinguishable u.blk)
    (hs : Answers s i x v) (hu : Answers u i y w) : x.Indistinguishable y ∧ v = w := by
  have hcfg := hblk.cfg
  cases hs with
  | nop =>
    cases hu
    exact ⟨hblk, rfl⟩
  | cfgclr reg =>
    cases hu
    rw [hcfg]
    exact ⟨hblk.setCfg _, rfl⟩
  | cfgsh reg imm =>
    cases hu
    rw [hcfg, hpar]
    exact ⟨hblk.setCfg _, rfl⟩
  | newParity | newLrc | newAdd | newAdd1c =>
    cases hu
    exact ⟨Block.indistinguishable_of_active ⟨rfl, rfl⟩ hcfg rfl rfl, rfl⟩
  | newDual =>
    cases hu
    rw [hcfg]
    exact ⟨Block.indistinguishable_of_active ⟨rfl, rfl, rfl⟩ hcfg rfl rfl, rfl⟩
  | newCrc =>
    cases hu
    rw [hcfg]
    exact ⟨Block.indistinguishable_of_active ⟨rfl, rfl⟩ hcfg rfl rfl, rfl⟩
  | newCrct _ act hact =>
    cases hu with
    | newCrct _ act' hact' =>
      subst hact hact'
      rw [hcfg]
      exact ⟨Block.indistinguishable_of_active ⟨rfl, rfl, rfl⟩ hcfg rfl rfl, rfl⟩
  | absorb imm hphase =>
    cases hu
    rw [hpar]
    exact ⟨hblk.absorbByte hphase _ _, rfl⟩
  | absorbbit bit x hphase hbit =>
    cases hu with
    | absorbbit _ y _ hbit' => exact ⟨hblk.absorbBit? hphase hbit hbit', rfl⟩
  | finalize hphase =>
    cases hu
    have hfinalized := hblk.finalized hphase
    exact ⟨hfinalized, hfinalized.result (Block.finalized_phase hphase)⟩
  | reset hphase =>
    cases hu
    exact ⟨hblk.restart hphase, rfl⟩
  | verify hphase =>
    cases hu
    have hfinalized := hblk.finalized hphase
    rw [hfinalized.result (Block.finalized_phase hphase), hcfg]
    exact ⟨hfinalized, rfl⟩
  | getbyte imm hphase =>
    cases hu
    refine ⟨hblk, ?_⟩
    simp only [Block.ser, hblk.result hphase, hblk.nb_eq (by simp [hphase])]

/-! ### Sequences of commands -/

/-- Indistinguishable blocks answer a command alike and stay indistinguishable. -/
theorem exec_indistinguishable (i : Instr) {s u : State} (hpar : s.par = u.par)
    (hblk : s.blk.Indistinguishable u.blk) :
    ∃ x y r, exec i s = .next ((s.withBlk x).withResp r) ∧ exec i u = .next ((u.withBlk y).withResp r) ∧
      x.Indistinguishable y := by
  have hcell := hblk.lifecycle_eq s.par i
  nth_rw 2 [hpar] at hcell
  obtain ⟨c, hs, hexec⟩ | ⟨x, v, _, hs, hexec, hanswers, -⟩ := exec_followsCell i s
  · obtain ⟨c', hu, hexec'⟩ | ⟨y, w, _, hu, -⟩ := exec_followsCell i u
    · have hstatus : Status.error c = .error c' :=
        congrArg LifecycleCell.status (hs.symm.trans (hcell.trans hu))
      cases hstatus
      exact ⟨s.blk, u.blk, _, hexec, hexec', hblk⟩
    · nomatch congrArg LifecycleCell.status (hs.symm.trans (hcell.trans hu))
  · obtain ⟨c, hu, -⟩ | ⟨y, w, _, -, hexec', hanswers', -⟩ := exec_followsCell i u
    · nomatch congrArg LifecycleCell.status (hs.symm.trans (hcell.trans hu))
    · obtain ⟨hnext, rfl⟩ := hanswers.indistinguishable hpar hblk hanswers'
      exact ⟨x, y, _, hexec, hexec', hnext⟩

theorem responses_indistinguishable (cmds : List Instr) {s u : State} (hpar : s.par = u.par)
    (hblk : s.blk.Indistinguishable u.blk) : responses cmds s = responses cmds u := by
  induction cmds generalizing s u with
  | nil => rfl
  | cons i rest ih =>
    obtain ⟨x, y, r, hexec, hexec', hnext⟩ := exec_indistinguishable i hpar hblk
    rw [responses_cons hexec, responses_cons hexec']
    exact congrArg (some r :: ·) (ih hpar hnext)

/-- Settles O60: in `IDLE`, blocks with equal `CFG` are indistinguishable. -/
theorem unspecifiedStateIsUnobservable : Obligations.UnspecifiedStateIsUnobservable :=
  fun cmds _ _ hpar hphase hphase' hcfg => responses_indistinguishable cmds hpar
    ⟨hphase.trans hphase'.symm, hcfg, fun hne => absurd hphase hne,
      fun hfinal => nomatch hphase.symm.trans hfinal⟩

end Sys2Proof.Machine
end
